-- ==== Sys2Proof/Word.lean ====
section
/-! DEFINITION. The word types of CODEC-CORE: the byte (00_scope.md R8) and the 16-bit run count (10_state.md R22).
Positions and lengths are `Nat` (R6 allows IDX_BITS unbounded, log 3). -/

namespace Sys2Proof

/-- A byte: an unsigned 8-bit value, bit 7 most significant (R8). -/
abbrev Byte := BitVec 8

/-- The value of the RLE encoder's run counter, CNT_BITS = 16 bits (R6, R22). -/
abbrev RunCount := BitVec 16

end Sys2Proof
end

