-- ==== Sys2Proof/Config.lean ====
section
/-! DEFINITION. What an instance fixes (00_scope.md R6), the source's constants, and the free values: constants with no
body for everything the spec calls unspecified. -/

namespace Sys2Proof

/-- The OPEN parameters of one instance (R6). Fixed when the instance is built: a state carries them in `cfg` and no step
changes them (log 2). A capacity `none` is an unbounded buffer (D13). -/
structure Config where
  /-- `W`, the window bound of the match-finder. -/
  W : Nat
  /-- `L`, the lookahead cap of the match-finder. -/
  L : Nat
  /-- `IN_CAP`, the capacity of the input buffer. -/
  inCap : Option Nat
  /-- `OUT_CAP`, the capacity of the output buffer. -/
  outCap : Option Nat
  deriving DecidableEq, Repr

/-- The configuration of the reset state: the spec's default `W` and `L` (R6) and unbounded buffers.
DESIGN CHOICE (log 2): safe, every statement holds for every configuration or names the one it needs. -/
def Config.standard : Config := { W := 255, L := 255, inCap := none, outCap := none }

/-- `MIN_MATCH` (R6): the minimum profitable match length. -/
def Config.minMatch : Nat := 3

/-- `FIELD_MAX` (R6): the largest value of a serialized one-byte field. -/
def Config.fieldMax : Nat := 255

/-- `RUN_CAP` (R6): the largest value the run counter reaches before the run is closed. -/
def Config.runCap : Nat := 65535

/-- Well-configured (R7): `1 <= W <= FIELD_MAX` and `1 <= L <= FIELD_MAX`. -/
abbrev Config.WellConfigured (c : Config) : Prop :=
  1 ≤ c.W ∧ c.W ≤ Config.fieldMax ∧ 1 ≤ c.L ∧ c.L ≤ Config.fieldMax

/-- FREE VALUE (log 5): the power-on byte of IN at a position the host has not written (R39). -/
opaque Config.unwrittenIn : Nat → Byte

/-- FREE VALUE (logs 5, 6): the byte of OUT at a position the engine has not written since OUT's contents last became
unspecified; the first argument is the era (R39, R205). -/
opaque Config.unspecifiedOut : Nat → Nat → Byte

/-- FREE VALUE (log 7): what OUT_LEN holds while BUSY = 1 (R32), by the command's number and `ip`. -/
opaque Config.busyOutLen : Nat → Nat → Nat

/-- FREE VALUE (log 17): what the host reads at a position of OUT where R35 calls the read not meaningful, by the
command's number, `ip` and the position. -/
opaque Config.meaninglessOut : Nat → Nat → Nat → Byte

/-- FREE VALUE (log 4): the power-on values of the IDX_BITS-wide working registers (R39), by register. -/
opaque Config.powerOnIdx : Nat → Nat

/-- FREE VALUE (log 4): the power-on values of the 8-bit working registers (R39), by register. -/
opaque Config.powerOnByte : Nat → Byte

/-- FREE VALUE (log 4): the power-on value of the run counter (R39). -/
opaque Config.powerOnCnt : RunCount

end Sys2Proof
end

