-- ==== Sys2Proof/Machine/State.lean ====
section
/-! DEFINITION. The state of one CODEC-CORE instance as plain data (10_state.md R20), why a step can stop, and the state
after power-on reset (R39). -/

namespace Sys2Proof.Machine

/-- A buffer's contents: (position, byte) pairs, positions strictly rising, one entry for each position written. What an
unlisted position reads as is no value at all here, so no entry can equal it; `State.inByte` and `State.outByte` turn it
into a free byte (log 5). -/
abbrev Memory := List Host.Cell

/-- The flags of STATUS (R30). The register as one byte is `statusWord`. -/
structure Status where
  /-- Bit 0: a command is running. -/
  busy : Bool
  /-- Bit 1: a command has ended. -/
  done : Bool
  /-- Bit 2: it ended with an error. -/
  err : Bool
  /-- Bit 3: an RLE record was written with a truncated count (R108). -/
  rleOvf : Bool
  deriving DecidableEq, Repr

/-- A move of the host on the instance (R35, 45_dispatch_framing.md R176). -/
inductive HostOp where
  /-- `IN[position] <- value`. -/
  | writeIn (position : Nat) (value : Byte)
  /-- `IN_LEN <- value`. -/
  | writeInLen (value : Nat)
  /-- `CMD <- value`. -/
  | writeCmd (value : Byte)
  deriving DecidableEq, Repr

/-- The state of one instance. The engine's working registers are invisible to the host (R21). -/
structure State where
  /-- The parameters (R6), the same in every state of an instance (log 2). -/
  cfg : Config
  /-- CMD: the last legal command written (R29). -/
  cmd : Byte
  /-- STATUS (R30). -/
  status : Status
  /-- IN_LEN (R31). -/
  inLen : Nat
  /-- OUT_LEN (R32). -/
  outLenReg : Nat
  /-- ERR_KIND (R33). -/
  errKind : BitVec 3
  /-- ERR_POS (R34). -/
  errPos : Nat
  /-- ERR_EXP (R34). -/
  errExp : Nat
  /-- ERR_OBS (R34). -/
  errObs : Nat
  /-- `ip`, the input cursor: the program counter (R26). -/
  ip : Nat
  /-- `out_len`, the number of bytes the current command has appended (R28). -/
  outLen : Nat
  /-- `cur`, the byte of the run being aggregated (R22). -/
  cur : Byte
  /-- `cnt`, the run counter (R22). -/
  cnt : RunCount
  /-- `val`, the value byte of the REP record being expanded (R23). -/
  val : Byte
  /-- `rem`, its repetitions still to append (R23). -/
  rem : Byte
  /-- `cand`, the candidate offset being tried (R24). -/
  cand : Nat
  /-- `k`, the length matched for it (R24). -/
  k : Nat
  /-- `maxlen`, the cap on any match at this position (R24). -/
  maxlen : Nat
  /-- `best_off` (R24). -/
  bestOff : Nat
  /-- `best_len` (R24). -/
  bestLen : Nat
  /-- `tag`, the tag byte of the token being decoded (R25). -/
  tag : Byte
  /-- `off`, the offset byte of a MATCH token (R25). -/
  off : Byte
  /-- `len`, its length byte, counting down during the copy (R25). -/
  len : Byte
  /-- The buffer IN (R36). -/
  inBuf : Memory
  /-- The buffer OUT (R36). -/
  outBuf : Memory
  /-- The model's own: the host moves still to come, the next first (log 8). -/
  hostQ : List HostOp
  /-- The model's own: how many commands have started; it picks the free values of a command (logs 7, 17). -/
  runs : Nat
  /-- The model's own: how often OUT's contents have become unspecified; it picks OUT's free bytes (log 6). -/
  outEra : Nat
  deriving DecidableEq, Repr

/-- Why the model stops. None is an error of the spec: those are next states (60_exceptions.md R202). -/
inductive Fault where
  /-- An engine read of IN outside `[0, IN_LEN)`. R51 leaves it undefined and says a model makes it a fault; raised by the
  operation that reads IN. Safe; no run reaches it (log 14). -/
  | inReadOutOfRange
  /-- An engine read of OUT outside `[0, out_len)` (R53). Raised by the span copier. Safe; no run reaches it (log 14). -/
  | outReadOutOfRange
  /-- A host write to IN outside `[0, IN_CAP)`: no such cell exists (R36). Raised by the host's write. Safe (log 9). -/
  | hostWriteOutsideIn (position : Nat)
  deriving DecidableEq, Repr

/-- Why the model gives no meaning. -/
inductive Refusal where
  /-- Raised by `exec` for an instruction that has no meaning yet. Safe. -/
  | notModelled (mnemonic : String)
  /-- IN_LEN above IN_CAP: "a value above IN_CAP must not be written; the model refuses such a launch" (R31). Raised by
  the host's write and by every command start. Safe (log 9). -/
  | inLenOverCapacity (value : Nat)
  /-- A command other than the running one while BUSY = 1: the host has no such move (70_reset_and_hazards.md R223).
  Raised by the commands' meanings; no run reaches it. Safe (log 10). -/
  | commandWhileBusy
  /-- A stream record while its decoder does not run: only a decoder interprets records (30_encoding.md R70). Raised by
  the records' meanings; no run reaches it. Safe (log 10). -/
  | recordOutsideDecoder
  /-- BUSY = 1 with a reserved value in CMD: no command starts so (R29). Raised by `step`; no run reaches it. Safe
  (log 10). -/
  | reservedCommandLatched
  deriving DecidableEq, Repr

/-- The state after power-on reset (R39): every host-visible register 0 and idle; the working registers hold constants
with no body (log 4) and the buffers list nothing (log 5). The configuration is the default one (log 2). -/
def State.reset : State where
  cfg := Config.standard
  cmd := 0
  status := { busy := false, done := false, err := false, rleOvf := false }
  inLen := 0
  outLenReg := 0
  errKind := 0
  errPos := 0
  errExp := 0
  errObs := 0
  ip := Config.powerOnIdx 0
  outLen := Config.powerOnIdx 1
  cur := Config.powerOnByte 0
  cnt := Config.powerOnCnt
  val := Config.powerOnByte 1
  rem := Config.powerOnByte 2
  cand := Config.powerOnIdx 2
  k := Config.powerOnIdx 3
  maxlen := Config.powerOnIdx 4
  bestOff := Config.powerOnIdx 5
  bestLen := Config.powerOnIdx 6
  tag := Config.powerOnByte 3
  off := Config.powerOnByte 4
  len := Config.powerOnByte 5
  inBuf := []
  outBuf := []
  hostQ := []
  runs := 0
  outEra := 0

end Sys2Proof.Machine
end

