-- ==== Sys2Proof/Machine/Flags.lean ====
section
/-! DEFINITION. The flags of STATUS (10_state.md R30): every change of a flag, and the register as the host reads it. -/

namespace Sys2Proof.Machine

/-- STATUS at command start (R40). -/
def statusStarted : Status := { busy := true, done := false, err := false, rleOvf := false }

/-- STATUS at a successful command end (R30): `BUSY` falls, `DONE` rises. -/
def statusEndedOk (f : Status) : Status := { f with busy := false, done := true }

/-- STATUS at a command end with an error (R202): `RLE_OVF` keeps its value. -/
def statusEndedErr (f : Status) : Status := { f with busy := false, done := true, err := true }

/-- The overflow flag after a record with counter `c` is written (R108): set when `c` exceeds FIELD_MAX, else kept. -/
def statusAfterRecord (c : RunCount) (f : Status) : Status :=
  { f with rleOvf := f.rleOvf || decide (Config.fieldMax < c.toNat) }

/-- STATUS as the host reads it (R30): bits 7:4 are reserved and never set. -/
def statusWord (f : Status) : Byte :=
  0#4 ++ (BitVec.ofBool f.rleOvf ++ (BitVec.ofBool f.err ++ (BitVec.ofBool f.done ++ BitVec.ofBool f.busy)))

end Sys2Proof.Machine
end

