-- ==== Sys2Proof/Machine/Operands.lean ====
section
/-! DEFINITION. Operand forms: how a field of a record meets a wider quantity (30_encoding.md R81), the one narrowing of
the machine (00_scope.md R8), and the test of the encodable range (43_lz77_encoder.md R145). -/

namespace Sys2Proof.Machine

/-- A field as a number (R81): the whole byte, unsigned, zero-extended, no bias. -/
def fieldValue (b : Byte) : Nat := b.toNat

/-- A number as a field byte, each value stored as it is (R144). Only written where the number is at most FIELD_MAX. -/
def fieldByte (v : Nat) : Byte := BitVec.ofNat 8 v

/-- `trunc8` (R8, R107): the low 8 bits of the run counter. -/
def trunc8 (c : RunCount) : Byte := c.extractLsb' 0 8

/-- A value that does not fit a one-byte field (R145). -/
def exceedsField (v : Nat) : Bool := decide (Config.fieldMax < v)

/-- The tag byte of a literal token (R77). -/
def litTag : Byte := 0x00#8

/-- The tag byte of a match token (R78). -/
def matchTag : Byte := 0x01#8

end Sys2Proof.Machine
end

