-- ==== Sys2Proof/Machine/Ops.lean ====
section
/-! DEFINITION. The named operations over memory and registers (20_memory.md, 10_state.md), the two ends of a command
(`raiseError`, the one shared error entry of 60_exceptions.md R202, and `closeOk`), command start (R40), and the host's
reads (R35). There is no return from an error (R206). -/

namespace Sys2Proof.Machine

/-! Memory. -/

/-- The canonical form: positions strictly rising. -/
def Memory.wf : Memory → Bool
  | [] => true
  | [_] => true
  | a :: b :: rest => decide (a.1 < b.1) && Memory.wf (b :: rest)

/-- The byte listed at a position. -/
def Memory.read : Memory → Nat → Option Byte
  | [], _ => none
  | (a, v) :: rest, p => if a = p then some v else Memory.read rest p

/-- Write one byte, keeping the positions rising. -/
def Memory.write : Memory → Nat → Byte → Memory
  | [], p, v => [(p, v)]
  | (a, w) :: rest, p, v =>
    if p < a then (p, v) :: (a, w) :: rest
    else if p = a then (p, v) :: rest
    else (a, w) :: Memory.write rest p v

/-- Write bytes at consecutive increasing positions (R54). -/
def Memory.writeAll : Memory → Nat → List Byte → Memory
  | m, _, [] => m
  | m, p, v :: vs => Memory.writeAll (Memory.write m p v) (p + 1) vs

/-- The contents of IN at a position: what the host wrote, else a free byte (R39, log 5). -/
def State.inByte (s : State) (p : Nat) : Byte := (Memory.read s.inBuf p).getD (Config.unwrittenIn p)

/-- The contents of OUT at a position: what the engine wrote, else a free byte (R39, R205, logs 5 and 6). -/
def State.outByte (s : State) (q : Nat) : Byte := (Memory.read s.outBuf q).getD (Config.unspecifiedOut s.outEra q)

/-- `IN[p]` of the engine (R51): defined for `p < IN_LEN` only. -/
def readIn (p : Nat) (s : State) : Option Byte := if p < s.inLen then some (s.inByte p) else none

/-- `OUT[q]` of the engine (R53): defined for `q < out_len` only. -/
def readOut (q : Nat) (s : State) : Option Byte := if q < s.outLen then some (s.outByte q) else none

/-! How an operation inside a command goes on. -/

/-- The command goes on, has ended (R202 and the `return Ok` of R9), or the model stops. -/
inductive Flow where
  | go (s : State)
  | ended (s : State)
  | stop (f : Fault)
  deriving DecidableEq, Repr

/-- Go on with `f`, unless the command is over. -/
def Flow.andThen (x : Flow) (f : State → Flow) : Flow :=
  match x with
  | .go s => f s
  | .ended s => .ended s
  | .stop e => .stop e

/-- The end of one step: the command goes on in the next step or has ended in this one. -/
def Flow.outcome (x : Flow) : Host.Outcome State Fault Refusal :=
  match x with
  | .go s => .next s
  | .ended s => .next s
  | .stop e => .fault e

/-! The two ends of a command. -/

/-- The error kinds (R190). -/
inductive ErrorKind where
  | malformedLength
  | truncatedRecord
  | invalidBackReference
  | unrecognizedTag
  | encodableRangeExceeded
  | capacityExceeded
  deriving DecidableEq, Repr

/-- The cause code of a kind (R191). -/
def errorCode : ErrorKind → BitVec 3
  | .malformedLength => 1#3
  | .truncatedRecord => 2#3
  | .invalidBackReference => 3#3
  | .unrecognizedTag => 4#3
  | .encodableRangeExceeded => 5#3
  | .capacityExceeded => 6#3

/-- The kind a value of ERR_KIND names (R33, R191): none for 0 and for 7, which is never produced. -/
def errorKindOf (code : BitVec 3) : Option ErrorKind :=
  if code = 1#3 then some .malformedLength
  else if code = 2#3 then some .truncatedRecord
  else if code = 3#3 then some .invalidBackReference
  else if code = 4#3 then some .unrecognizedTag
  else if code = 5#3 then some .encodableRangeExceeded
  else if code = 6#3 then some .capacityExceeded
  else none

/-- `raise K(pos, exp, obs)` (R202). The contents of OUT become unspecified (R205, log 6): nothing is listed any more and
a new era of free bytes begins. -/
def State.raiseError (kind : ErrorKind) (pos exp obs : Nat) (s : State) : State :=
  { s with
    errKind := errorCode kind
    errPos := pos
    errExp := exp
    errObs := obs
    outLenReg := 0
    status := statusEndedErr s.status
    outBuf := []
    outEra := s.outEra + 1 }

/-- `return Ok` (R9, R30, R32). -/
def State.closeOk (s : State) : State :=
  { s with outLenReg := s.outLen, status := statusEndedOk s.status }

/-- `raise` inside a command. -/
def raise (kind : ErrorKind) (pos exp obs : Nat) (s : State) : Flow := .ended (s.raiseError kind pos exp obs)

/-- `return Ok` inside a command. -/
def returnOk (s : State) : Flow := .ended s.closeOk

/-! Appending to OUT. -/

/-- The byte written at `out_len`, and `out_len` incremented (R52). -/
def State.pushOut (v : Byte) (s : State) : State :=
  { s with outBuf := Memory.write s.outBuf s.outLen v, outLen := s.outLen + 1 }

/-- `emit(v)` (R9, R52). At `out_len = OUT_CAP` nothing is written and CapacityExceeded is raised with the context of
R197; a state with `out_len` beyond OUT_CAP, which no run reaches, is treated alike (log 13). -/
def emit (v : Byte) (s : State) : Flow :=
  match s.cfg.outCap with
  | none => .go (s.pushOut v)
  | some cap =>
    if cap ≤ s.outLen then raise .capacityExceeded s.ip cap (cap + 1) s
    else .go (s.pushOut v)

/-- `emit` of several bytes in order. -/
def emitAll : List Byte → State → Flow
  | [], s => .go s
  | v :: vs, s => (emit v s).andThen (emitAll vs)

/-- There is room in OUT for `n` more bytes. -/
abbrev State.hasRoom (s : State) (n : Nat) : Prop := ∀ cap ∈ s.cfg.outCap, s.outLen + n ≤ cap

/-! Command start. -/

/-- IN_LEN is above IN_CAP (R31). -/
def inOverCapacity (n : Nat) (c : Config) : Bool :=
  match c.inCap with
  | none => false
  | some cap => decide (cap < n)

/-- Command-start initialisation (R29, R40). OUT is not cleared. OUT_LEN is unspecified from here to the command's end
(R32, log 7). -/
def State.startCommand (code : Byte) (s : State) : State :=
  { s with
    cmd := code
    status := statusStarted
    errKind := 0
    errPos := 0
    errExp := 0
    errObs := 0
    ip := 0
    outLen := 0
    outLenReg := Config.busyOutLen (s.runs + 1) 0
    runs := s.runs + 1 }

/-- The engine runs the command with this CMD value: its phase is BUSY with the latched command (R38). -/
abbrev State.running (s : State) (code : Byte) : Prop := s.status.busy = true ∧ s.cmd = code

/-- One step of a command: its start when the engine is not busy (`enter` is what stands before the operation's outer
loop), one iteration of the outer loop when it runs (R38, log 1). -/
def commandStep (code : Byte) (enter iterate : State → Flow) (s : State) : Host.Outcome State Fault Refusal :=
  if s.status.busy then
    if s.cmd = code then (iterate s).outcome else .refused .commandWhileBusy
  else if inOverCapacity s.inLen s.cfg then .refused (.inLenOverCapacity s.inLen)
  else (enter (s.startCommand code)).outcome

/-- One record of a stream, which only the running decoder interprets (R70). -/
def recordStep (code : Byte) (record : State → Flow) (s : State) : Host.Outcome State Fault Refusal :=
  if s.running code then (record s).outcome else .refused .recordOutsideDecoder

/-! The host's reads. -/

/-- What the host can read (R35). -/
inductive HostReg where
  | cmd
  | status
  | inLen
  | outLen
  | errKind
  | errPos
  | errExp
  | errObs
  | inByte (position : Nat)
  | outByte (position : Nat)
  deriving DecidableEq, Repr

/-- A position is a cell of a buffer with this capacity. -/
def insideCapacity (p : Nat) (cap : Option Nat) : Bool :=
  match cap with
  | none => true
  | some c => decide (p < c)

/-- What a host read gives (R29 to R35); none at a position that is no cell of the buffer. Reading has no effect (R56).
OUT_LEN while BUSY and OUT outside a finished result are free values (R32, R35, logs 7 and 17). DESIGN CHOICE (log 20):
ERR_KIND, ERR_POS, ERR_EXP and ERR_OBS read as the registers stand also while BUSY, where R35 and R223 give the read no
meaning. DESIGN CHOICE (log 21): so do ERR and RLE_OVF in STATUS, which R30 calls meaningful only when DONE = 1. -/
def hostRead (r : HostReg) (s : State) : Option Nat :=
  match r with
  | .cmd => some s.cmd.toNat
  | .status => some (statusWord s.status).toNat
  | .inLen => some s.inLen
  | .outLen => if s.status.busy then some (Config.busyOutLen s.runs s.ip) else some s.outLenReg
  | .errKind => some s.errKind.toNat
  | .errPos => some s.errPos
  | .errExp => some s.errExp
  | .errObs => some s.errObs
  | .inByte p => if insideCapacity p s.cfg.inCap then some (s.inByte p).toNat else none
  | .outByte q =>
    if insideCapacity q s.cfg.outCap then
      if s.status.done && !s.status.err && decide (q < s.outLenReg) then some (s.outByte q).toNat
      else some (Config.meaninglessOut s.runs s.ip q).toNat
    else none

end Sys2Proof.Machine
end

