-- ==== Sys2Proof/Machine/Lz77Decoder.lean ====
section
/-! DEFINITION. LZ77.DECOMPRESS and its tokens LIT, MATCH and the illegal tags (44_lz77_decoder.md). -/

namespace Sys2Proof.Machine

/-- A token of `need` bytes of which the input holds fewer (R158, R160). -/
def truncatedToken (need : Nat) (s : State) : Flow := raise .truncatedRecord s.ip need (s.inLen - s.ip) s

/-- The token LIT byte (R157, R158). -/
def litToken (byte : Byte) (s : State) : Flow :=
  let s := { s with tag := litTag }
  if s.inLen ≤ s.ip + 1 then truncatedToken 2 s
  else (emit byte s).andThen fun t => .go { t with ip := t.ip + 2 }

/-- The span copy (R163): the read position is computed anew for every byte, from the live output. -/
def copySpan : Nat → State → Flow
  | 0, s => .go s
  | n + 1, s =>
    match readOut (s.outLen - fieldValue s.off) s with
    | none => .stop .outReadOutOfRange
    | some b => (emit b s).andThen fun t => copySpan n { t with len := t.len - 1#8 }

/-- The token MATCH offset, length (R159): truncation first (R160, R162), then the offset (R161), then the copy. -/
def matchToken (offset length : Byte) (s : State) : Flow :=
  let s := { s with tag := matchTag }
  if s.inLen ≤ s.ip + 2 then truncatedToken 3 s
  else
    let s := { s with off := offset, len := length }
    if offset = 0#8 ∨ s.outLen < fieldValue offset then
      raise .invalidBackReference s.ip s.outLen (fieldValue offset) s
    else (copySpan (fieldValue length) s).andThen fun t => .go { t with ip := t.ip + 3 }

/-- A token with an unrecognized tag (R166): no payload is read. -/
def illegalToken (tag : Byte) (s : State) : Flow :=
  raise .unrecognizedTag s.ip 1 (fieldValue tag) { s with tag := tag }

/-- Nothing stands before the loop of R155. -/
def lz77DecompressEnter (s : State) : Flow := .go s

/-- One iteration of lines 1 to 19 of R155, or the end, line 20 (R156, R167). -/
def lz77DecompressIterate (s : State) : Flow :=
  if s.ip < s.inLen then
    match readIn s.ip s with
    | none => .stop .inReadOutOfRange
    | some tag =>
      if tag = litTag then
        match readIn (s.ip + 1) s with
        | none => truncatedToken 2 { s with tag := tag }
        | some byte => litToken byte s
      else if tag = matchTag then
        match readIn (s.ip + 1) s, readIn (s.ip + 2) s with
        | some offset, some length => matchToken offset length s
        | _, _ => truncatedToken 3 { s with tag := tag }
      else illegalToken tag s
  else returnOk s

/-- LZ77.DECOMPRESS (R155), one step of it. -/
def execLz77Decompress (s : State) : Host.Outcome State Fault Refusal :=
  commandStep 0x03#8 lz77DecompressEnter lz77DecompressIterate s

/-- LIT (R157). -/
def execLit (byte : Byte) (s : State) : Host.Outcome State Fault Refusal := recordStep 0x03#8 (litToken byte) s

/-- MATCH (R159). -/
def execMatch (offset length : Byte) (s : State) : Host.Outcome State Fault Refusal :=
  recordStep 0x03#8 (matchToken offset length) s

/-- An illegal tag (R166). -/
def execIllegalTag (tag : Byte) (s : State) : Host.Outcome State Fault Refusal :=
  recordStep 0x03#8 (illegalToken tag) s

end Sys2Proof.Machine
end

