-- ==== Sys2Proof/Machine/MatchFinder.lean ====
section
/-! DEFINITION. The LZ77 match-finder (42_lz77_matchfinder.md): the reference scan R132 over the working registers. -/

namespace Sys2Proof.Machine

/-- The inner loop of R132 from length `k`, at most `fuel` more bytes: how far the stream from `i - cand` agrees with the
stream from `i`. None where a read leaves IN. -/
def matchFrom (s : State) (cand i : Nat) : Nat → Nat → Option Nat
  | 0, k => some k
  | fuel + 1, k =>
    match readIn (i - cand + k) s, readIn (i + k) s with
    | some x, some y => if x = y then matchFrom s cand i fuel (k + 1) else some k
    | _, _ => none

/-- The update of the best match (R129, R130): replaced on a strictly greater length only. -/
def keepBest (s : State) : State :=
  if s.bestLen < s.k then { s with bestLen := s.k, bestOff := s.cand } else s

/-- The outer loop of R132 over `fuel` more candidates from `cand` on. -/
def scanCandidates : Nat → State → Flow
  | 0, s => .go s
  | fuel + 1, s =>
    match matchFrom s s.cand s.ip s.maxlen 0 with
    | none => .stop .inReadOutOfRange
    | some k =>
      let t := keepBest { s with k := k }
      scanCandidates fuel { t with cand := t.cand + 1 }

/-- `FIND(ip)` (R125, R132): candidates 1 to `min(W, ip)`, lengths to `min(L, n - ip)`. The result is in `bestOff` and
`bestLen`. -/
def find (s : State) : Flow :=
  scanCandidates (min s.cfg.W s.ip)
    { s with bestOff := 0, bestLen := 0, maxlen := min s.cfg.L (s.inLen - s.ip), cand := 1 }

end Sys2Proof.Machine
end

