-- ==== Sys2Proof/Machine/Lz77Encoder.lean ====
section
/-! DEFINITION. LZ77.COMPRESS: the token formatter (43_lz77_encoder.md). -/

namespace Sys2Proof.Machine

/-- Match emission (R144): the range check (R145), the three bytes of the token, the advance (R146). -/
def emitMatch (s : State) : Flow :=
  if exceedsField s.bestOff || exceedsField s.bestLen then
    raise .encodableRangeExceeded s.ip Config.fieldMax (max s.bestOff s.bestLen) s
  else
    (emitAll [matchTag, fieldByte s.bestOff, fieldByte s.bestLen] s).andThen fun t =>
      .go { t with ip := t.ip + t.bestLen }

/-- Literal emission (R143). -/
def emitLiteral (s : State) : Flow :=
  match readIn s.ip s with
  | none => .stop .inReadOutOfRange
  | some b => (emitAll [litTag, b] s).andThen fun t => .go { t with ip := t.ip + 1 }

/-- The choice of the token (R142): a match if and only if its length is at least MIN_MATCH. DEDUCED (log 22): R140 is
followed where R148's lower bound on the output size contradicts it, as for a last byte or two that become literals. -/
def emitToken (s : State) : Flow :=
  if Config.minMatch ≤ s.bestLen then emitMatch s else emitLiteral s

/-- Nothing stands before the loop of R140. -/
def lz77CompressEnter (s : State) : Flow := .go s

/-- One iteration of lines 1 to 10 of R140, or the end, line 11. -/
def lz77CompressIterate (s : State) : Flow :=
  if s.ip < s.inLen then (find s).andThen emitToken else returnOk s

/-- LZ77.COMPRESS (R140), one step of it. -/
def execLz77Compress (s : State) : Host.Outcome State Fault Refusal :=
  commandStep 0x01#8 lz77CompressEnter lz77CompressIterate s

end Sys2Proof.Machine
end

