-- ==== Sys2Proof/Machine/RleDecoder.lean ====
section
/-! DEFINITION. RLE.DECOMPRESS and its record REP (41_rle_decoder.md). -/

namespace Sys2Proof.Machine

/-- Lines 5 and 6 of R115: append `val`, count `rem` down, as often as told. -/
def repLoop : Nat → State → Flow
  | 0, s => .go s
  | n + 1, s => (emit s.val s).andThen fun t => repLoop n { t with rem := t.rem - 1#8 }

/-- The record REP value, count (R117, R118). -/
def repRecord (value count : Byte) (s : State) : Flow :=
  (repLoop (fieldValue count) { s with val := value, rem := count }).andThen fun t => .go { t with ip := t.ip + 2 }

/-- Lines 1 and 2 of R115: the length check (R116). -/
def rleDecompressEnter (s : State) : Flow :=
  if s.inLen % 2 = 1 then raise .malformedLength 0 (s.inLen + 1) s.inLen s else .go s

/-- One iteration of lines 3 to 7 of R115, or the end (R119). -/
def rleDecompressIterate (s : State) : Flow :=
  if s.ip < s.inLen then
    match readIn s.ip s with
    | none => .stop .inReadOutOfRange
    | some value =>
      match readIn (s.ip + 1) s with
      | none => .stop .inReadOutOfRange
      | some count => repRecord value count s
  else returnOk s

/-- RLE.DECOMPRESS (R115), one step of it. -/
def execRleDecompress (s : State) : Host.Outcome State Fault Refusal :=
  commandStep 0x02#8 rleDecompressEnter rleDecompressIterate s

/-- REP (R117). -/
def execRep (value count : Byte) (s : State) : Host.Outcome State Fault Refusal :=
  recordStep 0x02#8 (repRecord value count) s

end Sys2Proof.Machine
end

