-- ==== Sys2Proof/Machine/RleEncoder.lean ====
section
/-! DEFINITION. RLE.COMPRESS: the run aggregator and the overflow handler (40_rle_encoder.md). -/

namespace Sys2Proof.Machine

/-- `close_run()` (R107, R108): the value, then the low 8 bits of the counter, then the overflow flag. -/
def closeRun (s : State) : Flow :=
  (emitAll [s.cur, trunc8 s.cnt] s).andThen fun t => .go { t with status := statusAfterRecord t.cnt t.status }

/-- Lines 1 to 4 of R100: the empty input ends at once (R101), else the first run is opened (R102). -/
def rleCompressEnter (s : State) : Flow :=
  if s.inLen = 0 then returnOk { s with cnt := 0#16 }
  else
    match readIn 0 s with
    | none => .stop .inReadOutOfRange
    | some b => .go { s with cur := b, cnt := 1#16, ip := 1 }

/-- One iteration of lines 5 to 11 of R100, or the final flush and the end, lines 12 and 13 (R103 to R106). -/
def rleCompressIterate (s : State) : Flow :=
  if s.ip < s.inLen then
    match readIn s.ip s with
    | none => .stop .inReadOutOfRange
    | some b =>
      if b = s.cur ∧ s.cnt.toNat < Config.runCap then .go { s with cnt := s.cnt + 1#16, ip := s.ip + 1 }
      else (closeRun s).andThen fun t => .go { t with cur := b, cnt := 1#16, ip := t.ip + 1 }
  else (closeRun s).andThen returnOk

/-- RLE.COMPRESS (R100), one step of it. -/
def execRleCompress (s : State) : Host.Outcome State Fault Refusal :=
  commandStep 0x00#8 rleCompressEnter rleCompressIterate s

end Sys2Proof.Machine
end

