-- ==== Sys2Proof/Syntax.lean ====
section
/-! DEFINITION. The instructions of CODEC-CORE: one constructor per row of spec/opcode_table.json (30_encoding.md R70):
the four commands a host can start and the stream records the decoders interpret. -/

namespace Sys2Proof

/-- One row of the opcode table. -/
inductive Instr where
  /-- RLE.COMPRESS, `CMD = 0x00` (R100). -/
  | rleCompress
  /-- LZ77.COMPRESS, `CMD = 0x01` (R140). -/
  | lz77Compress
  /-- RLE.DECOMPRESS, `CMD = 0x02` (R115). -/
  | rleDecompress
  /-- LZ77.DECOMPRESS, `CMD = 0x03` (R155). -/
  | lz77Decompress
  /-- REP value, count: format RLE2 (R74, R117). -/
  | rep (value count : Byte)
  /-- LIT byte: format LZ2 (R77, R157). -/
  | lit (byte : Byte)
  /-- MATCH offset, length: format LZ3 (R78, R159). -/
  | matchTok (offset length : Byte)
  /-- A token whose tag is neither 0x00 nor 0x01 (R79, R166). -/
  | illegalTag (tag : Byte)
  deriving DecidableEq, Repr

/-- What is being decoded (R70): the byte written to CMD, a record of an RLE stream, a token of an LZ77 stream. -/
inductive Layer where
  | command
  | rleStream
  | lz77Stream
  deriving DecidableEq, Repr

end Sys2Proof
end

