-- ==== Sys2Proof/Machine/Dispatch.lean ====
section
/-! DEFINITION. One arm per constructor of `Instr`. -/

namespace Sys2Proof.Machine

/-- The meaning of each instruction. -/
def exec (i : Instr) (s : State) : Host.Outcome State Fault Refusal :=
  match i with
  | .rleCompress => Sys2Proof.Machine.execRleCompress s
  | .lz77Compress => Sys2Proof.Machine.execLz77Compress s
  | .rleDecompress => Sys2Proof.Machine.execRleDecompress s
  | .lz77Decompress => Sys2Proof.Machine.execLz77Decompress s
  | .rep value count => Sys2Proof.Machine.execRep value count s
  | .lit byte => Sys2Proof.Machine.execLit byte s
  | .matchTok offset length => Sys2Proof.Machine.execMatch offset length s
  | .illegalTag tag => Sys2Proof.Machine.execIllegalTag tag s

end Sys2Proof.Machine
end

