-- ==== Sys2Proof/WellFormed.lean ====
section
/-! DEFINITION. Which instructions have an encoding. Every operand is one whole byte of any value (30_encoding.md R81);
the one restriction is that an illegal tag is none of the two legal ones (R79). -/

namespace Sys2Proof

/-- The instruction is one that some bytes encode (R79): an illegal tag is 0x02 to 0xFF. -/
def Instr.wellFormed : Instr → Bool
  | .rleCompress => true
  | .lz77Compress => true
  | .rleDecompress => true
  | .lz77Decompress => true
  | .rep _ _ => true
  | .lit _ => true
  | .matchTok _ _ => true
  | .illegalTag tag => decide (2 ≤ tag.toNat)

/-- The layer an instruction belongs to (R70). -/
def Instr.layer : Instr → Layer
  | .rleCompress => .command
  | .lz77Compress => .command
  | .rleDecompress => .command
  | .lz77Decompress => .command
  | .rep _ _ => .rleStream
  | .lit _ => .lz77Stream
  | .matchTok _ _ => .lz77Stream
  | .illegalTag _ => .lz77Stream

/-- How many bytes the instruction takes (R72, R74, R77, R78): an illegal tag is one byte, its payload is not read
(R166). -/
def Instr.size : Instr → Nat
  | .rleCompress => 1
  | .lz77Compress => 1
  | .rleDecompress => 1
  | .lz77Decompress => 1
  | .rep _ _ => 2
  | .lit _ => 2
  | .matchTok _ _ => 3
  | .illegalTag _ => 1

end Sys2Proof
end

