-- ==== Sys2Proof/Decode.lean ====
section
/-! DEFINITION. The decoder of each layer (30_encoding.md R72 to R80), total on any bytes and rejecting by name, and the
encoder written from the same formats. -/

namespace Sys2Proof

/-- Why bytes are no instruction. -/
inductive DecodeError where
  /-- No byte is left. -/
  | noBytes
  /-- A CMD value with one of bits 7:2 set (R73). -/
  | reservedCommand (value : Byte)
  /-- The input ends inside a record: `need` bytes make it whole, `present` are there (R82). -/
  | truncated (need present : Nat)
  deriving DecidableEq, Repr

/-- Format CMD (R72): bits 7:2 reserved, bit 1 `DIR`, bit 0 `ALG`; the opcode map R73. -/
def decodeCommand (b : Byte) : Except DecodeError Instr :=
  if b.extractLsb' 2 6 = 0#6 then
    match b.getLsbD 1, b.getLsbD 0 with
    | false, false => .ok .rleCompress
    | false, true => .ok .lz77Compress
    | true, false => .ok .rleDecompress
    | true, true => .ok .lz77Decompress
  else .error (.reservedCommand b)

/-- Format RLE2 (R74): every two bytes are a record, value first. -/
def decodeRle : List Byte → Except DecodeError (Instr × List Byte)
  | [] => .error .noBytes
  | [_] => .error (.truncated 2 1)
  | value :: count :: rest => .ok (.rep value count, rest)

/-- Formats LZ2 and LZ3 (R76 to R80): the tag alone decides the token's kind and length. -/
def decodeLz77 : List Byte → Except DecodeError (Instr × List Byte)
  | [] => .error .noBytes
  | tag :: payload =>
    if tag = 0x00#8 then
      match payload with
      | [] => .error (.truncated 2 1)
      | byte :: rest => .ok (.lit byte, rest)
    else if tag = 0x01#8 then
      match payload with
      | [] => .error (.truncated 3 1)
      | [_] => .error (.truncated 3 2)
      | offset :: length :: rest => .ok (.matchTok offset length, rest)
    else .ok (.illegalTag tag, payload)

/-- The first instruction of a byte list in a layer, with the bytes after it. -/
def decode (layer : Layer) (bytes : List Byte) : Except DecodeError (Instr × List Byte) :=
  match layer with
  | .command =>
    match bytes with
    | [] => .error .noBytes
    | b :: rest =>
      match decodeCommand b with
      | .ok i => .ok (i, rest)
      | .error e => .error e
  | .rleStream => decodeRle bytes
  | .lz77Stream => decodeLz77 bytes

/-- The low `n` bytes of a number, least significant first: the bytes of an opcode-table word in stream order (R71). -/
def bytesOf : Nat → Nat → List Byte
  | 0, _ => []
  | n + 1, w => BitVec.ofNat 8 w :: bytesOf n (w / 256)

/-- The layer whose table row the bytes fit (R71, log 12). One byte: a command where CMD has it, else an illegal tag.
Two bytes: LIT where the first is its tag, else REP, whose row fixes no bit. Three bytes: MATCH. -/
def tableLayer : List Byte → Option Layer
  | [b] =>
    match decodeCommand b with
    | .ok _ => some .command
    | .error _ => some .lz77Stream
  | [b, _] => if b = 0x00#8 then some .lz77Stream else some .rleStream
  | [_, _, _] => some .lz77Stream
  | _ => none

/-- What the decoder reads from an instruction given as an opcode-table word: bit 0 is the least significant bit of the
first byte. -/
def decodeTableWord (nbits w : Nat) : Option Instr :=
  match tableLayer (bytesOf (nbits / 8) w) with
  | none => none
  | some layer =>
    match decode layer (bytesOf (nbits / 8) w) with
    | .ok (i, []) => some i
    | .ok (_, _ :: _) => none
    | .error _ => none

/-- The bytes of an instruction (R73, R74, R77, R78, R79). -/
def encode : Instr → List Byte
  | .rleCompress => [0x00#8]
  | .lz77Compress => [0x01#8]
  | .rleDecompress => [0x02#8]
  | .lz77Decompress => [0x03#8]
  | .rep value count => [value, count]
  | .lit byte => [0x00#8, byte]
  | .matchTok offset length => [0x01#8, offset, length]
  | .illegalTag tag => [tag]

/-! The decoding of each constructor, by a word written out from its pattern string. -/

/-- R73, pattern `000000da` with d = 0, a = 0. -/
theorem decode_rleCompress : decode .command [0b00000000#8] = .ok (.rleCompress, []) := by rfl

/-- R73, d = 0, a = 1. -/
theorem decode_lz77Compress : decode .command [0b00000001#8] = .ok (.lz77Compress, []) := by rfl

/-- R73, d = 1, a = 0. -/
theorem decode_rleDecompress : decode .command [0b00000010#8] = .ok (.rleDecompress, []) := by rfl

/-- R73, d = 1, a = 1. -/
theorem decode_lz77Decompress : decode .command [0b00000011#8] = .ok (.lz77Decompress, []) := by rfl

/-- R74, pattern `vvvvvvvv cccccccc` with v = 01000001, c = 00000011 (S10). -/
theorem decode_rep : decode .rleStream [0b01000001#8, 0b00000011#8] = .ok (.rep 0x41#8 3#8, []) := by rfl

/-- R77, pattern `00000000 bbbbbbbb` with b = 00101010 (S9). -/
theorem decode_lit : decode .lz77Stream [0b00000000#8, 0b00101010#8] = .ok (.lit 0x2A#8, []) := by rfl

/-- R78, pattern `00000001 oooooooo llllllll` with o = 00000011, l = 00000110 (S9). -/
theorem decode_matchTok :
    decode .lz77Stream [0b00000001#8, 0b00000011#8, 0b00000110#8] = .ok (.matchTok 3#8 6#8, []) := by rfl

/-- R79, the smallest illegal tag 00000010 (V132). -/
theorem decode_illegalTag : decode .lz77Stream [0b00000010#8] = .ok (.illegalTag 2#8, []) := by rfl

end Sys2Proof
end

