-- ==== Sys2Proof/Machine/Fetch.lean ====
section
/-! DEFINITION. Fetching: which instruction a busy engine runs next (30_encoding.md R70, R80, R88; 20_memory.md R55, R64),
and placing an instruction where it is fetched. -/

namespace Sys2Proof.Machine

/-- The input bytes from `ip` on, as many as exist of the three the longest record takes (R78, R82). -/
def recordWindow (s : State) : List Byte := [s.ip, s.ip + 1, s.ip + 2].filterMap fun p => readIn p s

/-- The record a decoder's bytes begin with, or the command itself where no whole record stands there: at the end of the
stream and at a record cut short (log 18). -/
def recordOr (command : Instr) (r : Except DecodeError (Instr × List Byte)) : Instr :=
  match r with
  | .ok (i, _) => i
  | .error _ => command

/-- The instruction a busy engine runs: a compressor runs its command, a decompressor the record at `ip` in the format the
latched command names (R88). -/
def fetch (s : State) : Except DecodeError Instr :=
  match decodeCommand s.cmd with
  | .error e => .error e
  | .ok command =>
    if s.cmd.getLsbD 1 then
      if s.cmd.getLsbD 0 then .ok (recordOr command (decodeLz77 (recordWindow s)))
      else .ok (recordOr command (decodeRle (recordWindow s)))
    else .ok command

/-- The host's next move is to write this command, and the engine is not busy (log 8). -/
def placeCommand (b : Byte) (s : State) : State :=
  { s with status := { s.status with busy := false }, hostQ := .writeCmd b :: s.hostQ }

/-- The decompressor with this CMD value runs and stands at the beginning of an input stream of these bytes (log 8). -/
def placeStream (code : Byte) (bytes : List Byte) (s : State) : State :=
  { s with
    cmd := code
    status := { s.status with busy := true, done := false }
    ip := 0
    outLen := 0
    inLen := bytes.length
    inBuf := Memory.writeAll s.inBuf 0 bytes }

/-- The state with the instruction of these bytes placed where the next step fetches it. -/
def placeBytes (bytes : List Byte) (s : State) : State :=
  match tableLayer bytes with
  | none => s
  | some .command => placeCommand (bytes.headD 0#8) s
  | some .rleStream => placeStream 0x02#8 bytes s
  | some .lz77Stream => placeStream 0x03#8 bytes s

end Sys2Proof.Machine
end

