-- ==== Sys2Proof/Machine/HostPort.lean ====
section
/-! DEFINITION. The host's writes while the engine is not busy (10_state.md R31, R35, R36). A write of CMD runs a command
and stands in `step`. -/

namespace Sys2Proof.Machine

/-- `IN[position] <- value`: the cell exists below IN_CAP only (R36, log 9). -/
def hostWriteIn (position : Nat) (value : Byte) (s : State) : Host.Outcome State Fault Refusal :=
  if insideCapacity position s.cfg.inCap then .next { s with inBuf := Memory.write s.inBuf position value }
  else .fault (.hostWriteOutsideIn position)

/-- `IN_LEN <- value`: a value above IN_CAP must not be written (R31, log 9). -/
def hostWriteInLen (value : Nat) (s : State) : Host.Outcome State Fault Refusal :=
  if inOverCapacity value s.cfg then .refused (.inLenOverCapacity value) else .next { s with inLen := value }

end Sys2Proof.Machine
end

