-- ==== Sys2Proof/Machine/Step.lean ====
section
/-! DEFINITION. One step of the instance (10_state.md R38, 00_scope.md R12). -/

namespace Sys2Proof.Machine

/-- A busy engine runs the instruction it fetches. Otherwise the host makes its next move: a legal write of CMD runs the
command, a reserved one is ignored (R29), and with no move left the instance stays idle (R214). -/
def step (s : State) : Host.Outcome State Fault Refusal :=
  if s.status.busy then
    match fetch s with
    | .ok i => exec i s
    | .error _ => .refused .reservedCommandLatched
  else
    match s.hostQ with
    | [] => .next s
    | .writeIn position value :: q => hostWriteIn position value { s with hostQ := q }
    | .writeInLen value :: q => hostWriteInLen value { s with hostQ := q }
    | .writeCmd b :: q =>
      match decodeCommand b with
      | .ok i => exec i { s with hostQ := q }
      | .error _ => .next { s with hostQ := q }

/-- The state with the instruction of an opcode-table word placed where `step` fetches its next instruction (log 8). -/
def State.withFetchWord (s : State) (nbits w : Nat) : State := placeBytes (bytesOf (nbits / 8) w) s

end Sys2Proof.Machine
end

