-- ==== Sys2Proof/Safety.lean ====
section
/-! DEFINITION. The terms the statements are made in: the streams a state holds, a host transaction and its result
(45_dispatch_framing.md R176, 00_scope.md R10), the invariant of the machine, and the four functions of the call boundary
(R175) written over byte lists. -/

namespace Sys2Proof.Safety

open Sys2Proof.Machine

/-! Streams held by a state. -/

/-- The input stream `IN[0 .. IN_LEN)` (R31). -/
def input (s : State) : List Byte := (List.range s.inLen).map s.inByte

/-- What the running command has appended: `OUT[0 .. out_len)` (R28). -/
def produced (s : State) : List Byte := (List.range s.outLen).map s.outByte

/-- The result stream `OUT[0 .. OUT_LEN)` (R32). -/
def result (s : State) : List Byte := (List.range s.outLenReg).map s.outByte

/-! A call as a host transaction. -/

/-- The result of a command (R10): the bytes, or the error kind with its context (R34). -/
inductive CallResult where
  | ok (bytes : List Byte)
  | err (kind : ErrorKind) (pos exp obs : Nat)
  deriving DecidableEq, Repr

/-- The last lines of R176: what the host collects once `DONE = 1`. -/
def collect (s : State) : Option CallResult :=
  if s.status.done then
    if s.status.err then
      match errorKindOf s.errKind with
      | some kind => some (.err kind s.errPos s.errExp s.errObs)
      | none => none
    else some (.ok (result s))
  else none

/-- `IN[p .. p + |data|) <- data`, byte by byte. -/
def loadOps : Nat → List Byte → List HostOp
  | _, [] => []
  | p, v :: vs => .writeIn p v :: loadOps (p + 1) vs

/-- The host's side of R176: fill IN, write IN_LEN, write CMD. -/
def transaction (code : Byte) (data : List Byte) : List HostOp :=
  loadOps 0 data ++ [.writeInLen data.length, .writeCmd code]

/-- The state in which the host is about to make the transaction. -/
def withTransaction (code : Byte) (data : List Byte) (s : State) : State := { s with hostQ := transaction code data }

/-- As many steps as a transaction needs at most: one for each host move, one for each iteration, one for the end
(R230). A finished instance with no host move left stays as it is. -/
def callSteps (data : List Byte) : Nat := 2 * data.length + 3

/-- A call as a host transaction (R176) on an instance in state `s`. -/
def call (code : Byte) (data : List Byte) (s : State) : Option CallResult :=
  match Sys2Proof.core.run (callSteps data) (withTransaction code data s) with
  | .next t => collect t
  | .fault _ => none
  | .refused _ => none

/-- The instance can take a transaction with this data (R176, R222): it is not busy and the data fits. -/
structure Ready (data : List Byte) (s : State) : Prop where
  notBusy : s.status.busy = false
  fits : ∀ cap ∈ s.cfg.inCap, data.length ≤ cap

/-! The invariant. -/

/-- What every step keeps, from every state that has it. -/
structure Inv (s : State) : Prop where
  /-- IN is in canonical form. -/
  inWf : Memory.wf s.inBuf = true
  /-- OUT is in canonical form. -/
  outWf : Memory.wf s.outBuf = true
  /-- A command is not both running and finished (R30). -/
  phase : ¬(s.status.busy = true ∧ s.status.done = true)
  /-- `ERR` stands only after a command end (R30). -/
  errDone : s.status.err = true → s.status.done = true
  /-- `RLE_OVF` stands only in or after RLE.COMPRESS (R30, R108). -/
  overflowOwner : s.status.rleOvf = true → s.cmd = 0x00#8 ∧ (s.status.busy = true ∨ s.status.done = true)
  /-- ERR_KIND is never 7 (R33). -/
  kindLegal : s.errKind ≠ 7#3
  /-- ERR_KIND is 0 exactly when `ERR` is clear (R33, R202). -/
  kindErr : s.errKind = 0#3 ↔ s.status.err = false
  /-- The error context is 0 when ERR_KIND is 0 (R34). -/
  contextClear : s.errKind = 0#3 → s.errPos = 0 ∧ s.errExp = 0 ∧ s.errObs = 0
  /-- No result bytes after an error (R205). -/
  noPartial : s.status.err = true → s.outLenReg = 0
  /-- CMD holds a legal command (R29). -/
  cmdLegal : s.cmd.toNat < 4
  /-- IN_LEN is at most IN_CAP (R31). -/
  inLenFits : ∀ cap ∈ s.cfg.inCap, s.inLen ≤ cap
  /-- What is appended fits OUT (R52). -/
  outFits : ∀ cap ∈ s.cfg.outCap,
    (s.status.busy = true → s.outLen ≤ cap) ∧ (s.status.busy = false → s.outLenReg ≤ cap)
  /-- The input cursor is in range while a command runs (R26). -/
  cursor : s.status.busy = true → s.ip ≤ s.inLen
  /-- Every byte below `out_len` was appended by the running command (R28, R53). -/
  appended : s.status.busy = true → ∀ q < s.outLen, Memory.read s.outBuf q ≠ none
  /-- Every byte of a result was appended (R32). -/
  resultWritten : s.status.done = true → ∀ q < s.outLenReg, Memory.read s.outBuf q ≠ none
  /-- An open run has a counter of at least 1 and the cursor is past its first byte (R102). -/
  runOpen : s.running 0x00#8 → 1 ≤ s.ip ∧ 1 ≤ s.cnt.toNat
  /-- The RLE decoder works on an even length at an even position (R119). -/
  pairAligned : s.running 0x02#8 → s.inLen % 2 = 0 ∧ s.ip % 2 = 0

/-! The functions of the call boundary. -/

/-- The closed runs of a scan whose open run has byte `cur` and counter `cnt` (R103 to R106). -/
def closedRuns : Byte → Nat → List Byte → List (Byte × Nat)
  | cur, cnt, [] => [(cur, cnt)]
  | cur, cnt, b :: rest =>
    if b = cur ∧ cnt < Config.runCap then closedRuns cur (cnt + 1) rest
    else (cur, cnt) :: closedRuns b 1 rest

/-- The closed runs of an input (R101, R102). -/
def runsOf : List Byte → List (Byte × Nat)
  | [] => []
  | b :: rest => closedRuns b 1 rest

/-- A run as a record: the count modulo 256 (R107). -/
def recordOf (run : Byte × Nat) : List Byte := [run.1, BitVec.ofNat 8 run.2]

/-- `compress(d, RLE)` (R100). -/
def rleEncode (d : List Byte) : List Byte := (runsOf d).flatMap recordOf

/-- The expansion of an RLE stream's records (R117). -/
def rleExpand : List Byte → List Byte
  | value :: count :: rest => List.replicate count.toNat value ++ rleExpand rest
  | [_] => []
  | [] => []

/-- `decompress(d, RLE)` (R115, R116). -/
def rleDecode (d : List Byte) : CallResult :=
  if d.length % 2 = 1 then .err .malformedLength 0 (d.length + 1) d.length else .ok (rleExpand d)

/-- Every maximal run of equal bytes has at most FIELD_MAX bytes (R113). -/
def ShortRuns (d : List Byte) : Prop := ∀ run ∈ d.splitBy (· == ·), run.length ≤ Config.fieldMax

/-- `mlen(i, o)` (R127): the largest length up to the cap on which the streams from `i - o` and `i` agree. -/
def matchLength (L : Nat) (d : List Byte) (i o : Nat) : Nat :=
  Nat.findGreatest (fun k => ∀ j < k, d[i - o + j]? = d[i + j]?) (min L (d.length - i))

/-- The contract of `FIND(i)` (R125, R129, R130, R131): the longest match of the window, the smallest offset of that
length, or (0, 0). -/
def IsFind (W L : Nat) (d : List Byte) (i off len : Nat) : Prop :=
  (off = 0 ∧ len = 0 ∧ ∀ o, 1 ≤ o → o ≤ min W i → matchLength L d i o = 0) ∨
  (1 ≤ off ∧ off ≤ min W i ∧ 1 ≤ len ∧ len = matchLength L d i off ∧
    (∀ o, 1 ≤ o → o ≤ min W i → matchLength L d i o ≤ len) ∧
    (∀ o, 1 ≤ o → o < off → matchLength L d i o < len))

/-- `FIND(i)` as a function: the offsets in increasing order, replaced on a strictly greater length (R132). -/
def findMatch (W L : Nat) (d : List Byte) (i : Nat) : Nat × Nat :=
  (List.range (min W i)).foldl
    (fun best o => if best.2 < matchLength L d i (o + 1) then (o + 1, matchLength L d i (o + 1)) else best) (0, 0)

/-- The loop of R140 from position `i` with the output so far. -/
def lz77EncodeFrom (W L : Nat) (d : List Byte) : Nat → Nat → List Byte → CallResult
  | 0, _, out => .ok out
  | fuel + 1, i, out =>
    match d[i]? with
    | none => .ok out
    | some b =>
      let m := findMatch W L d i
      if Config.minMatch ≤ m.2 then
        if Config.fieldMax < m.1 ∨ Config.fieldMax < m.2 then
          .err .encodableRangeExceeded i Config.fieldMax (max m.1 m.2)
        else lz77EncodeFrom W L d fuel (i + m.2) (out ++ [0x01#8, BitVec.ofNat 8 m.1, BitVec.ofNat 8 m.2])
      else lz77EncodeFrom W L d fuel (i + 1) (out ++ [0x00#8, b])

/-- `compress(d, LZ77)` (R140). -/
def lz77Encode (W L : Nat) (d : List Byte) : CallResult := lz77EncodeFrom W L d d.length 0 []

/-- The span copy (R163) on the output so far: each byte is read from the live output. -/
def copyBack (off : Nat) : Nat → List Byte → List Byte
  | 0, out => out
  | n + 1, out => copyBack off n (out ++ [out.getD (out.length - off) 0#8])

/-- The loop of R155 from position `ip` with the output so far. -/
def lz77DecodeFrom (d : List Byte) : Nat → Nat → List Byte → CallResult
  | 0, _, out => .ok out
  | fuel + 1, ip, out =>
    match d.drop ip with
    | [] => .ok out
    | tag :: payload =>
      if tag = 0x00#8 then
        match payload with
        | [] => .err .truncatedRecord ip 2 (d.length - ip)
        | byte :: _ => lz77DecodeFrom d fuel (ip + 2) (out ++ [byte])
      else if tag = 0x01#8 then
        match payload with
        | off :: len :: _ =>
          if off = 0#8 ∨ out.length < off.toNat then .err .invalidBackReference ip out.length off.toNat
          else lz77DecodeFrom d fuel (ip + 3) (copyBack off.toNat len.toNat out)
        | [_] => .err .truncatedRecord ip 3 (d.length - ip)
        | [] => .err .truncatedRecord ip 3 (d.length - ip)
      else .err .unrecognizedTag ip 1 tag.toNat

/-- `decompress(d, LZ77)` (R155). -/
def lz77Decode (d : List Byte) : CallResult := lz77DecodeFrom d (d.length + 1) 0 []

/-- The call boundary (R175): the function each command computes. -/
def function (code : Byte) (W L : Nat) (d : List Byte) : CallResult :=
  if code = 0x00#8 then .ok (rleEncode d)
  else if code = 0x01#8 then lz77Encode W L d
  else if code = 0x02#8 then rleDecode d
  else lz77Decode d

end Sys2Proof.Safety
end

