-- ==== Sys2Proof/Certificates/Slice0/Obligations.lean ====
section
/-! DEFINITION. The statements of this row. Each docstring names the rule of spec/ it formalises; OBLIGATIONS.json lists
them. -/

open Sys2Proof Sys2Proof.Machine Sys2Proof.Safety

/-! ## Encoding -/

/-- R74, R77, R78, R79: the record formats, for every value of every field byte, and every other tag illegal, whatever
follows it. -/
def Obligations.RecordFormatsDecode : Prop :=
  (∀ (value count : Byte) (rest : List Byte), decode .rleStream (value :: count :: rest) = .ok (.rep value count, rest)) ∧
  (∀ (byte : Byte) (rest : List Byte), decode .lz77Stream (0x00#8 :: byte :: rest) = .ok (.lit byte, rest)) ∧
  (∀ (offset length : Byte) (rest : List Byte),
    decode .lz77Stream (0x01#8 :: offset :: length :: rest) = .ok (.matchTok offset length, rest)) ∧
  (∀ (tag : Byte) (rest : List Byte), 2 ≤ tag.toNat →
    decode .lz77Stream (tag :: rest) = .ok (.illegalTag tag, rest))

/-- R72, R73 (the spec's own decision D2): the four commands, and every other value reserved. -/
def Obligations.CommandMapIsTheTable : Prop :=
  decodeCommand 0x00#8 = .ok .rleCompress ∧ decodeCommand 0x01#8 = .ok .lz77Compress ∧
  decodeCommand 0x02#8 = .ok .rleDecompress ∧ decodeCommand 0x03#8 = .ok .lz77Decompress ∧
  ∀ b : Byte, 4 ≤ b.toNat → decodeCommand b = .error (.reservedCommand b)

/-- Words written out from the pattern strings of R73, R74, R77, R78 and R79 decode to their instructions. -/
def Obligations.SpecWordsDecode : Prop :=
  decode .command [0b00000010#8] = .ok (.rleDecompress, []) ∧
  decode .rleStream [0b01000001#8, 0b00000011#8] = .ok (.rep 0x41#8 3#8, []) ∧
  decode .lz77Stream [0b00000000#8, 0b00101010#8] = .ok (.lit 0x2A#8, []) ∧
  decode .lz77Stream [0b00000001#8, 0b00000011#8, 0b00000110#8] = .ok (.matchTok 3#8 6#8, []) ∧
  decode .lz77Stream [0b11111111#8, 0b00000000#8] = .ok (.illegalTag 0xFF#8, [0x00#8])

/-- Decoding the bytes of any well-formed instruction in its layer gives it back and leaves what follows. -/
def Obligations.DecodeOfEncode : Prop :=
  ∀ (i : Instr) (rest : List Byte), i.wellFormed = true → decode i.layer (encode i ++ rest) = .ok (i, rest)

/-- Whatever a layer decodes is well-formed, belongs to the layer, and its bytes are exactly the ones consumed: no bit
of the input is dropped or read twice. -/
def Obligations.EncodeOfDecode : Prop :=
  ∀ (layer : Layer) (bytes : List Byte) (i : Instr) (rest : List Byte), decode layer bytes = .ok (i, rest) →
    i.wellFormed = true ∧ i.layer = layer ∧ encode i ++ rest = bytes ∧ (encode i).length = i.size

/-- R74, R77, R78, R80, R82: a stream layer rejects bytes only where none are left or a record is cut short, and then says
how many bytes the record takes (2 for a REP and for the tag 0x00, 3 for the tag 0x01) and how many are there. -/
def Obligations.StreamDecoderRejectsOnlyShortInput : Prop :=
  ∀ (layer : Layer) (bytes : List Byte) (e : DecodeError), layer ≠ .command → decode layer bytes = .error e →
    (bytes = [] ∧ e = .noBytes) ∨
    (layer = .rleStream ∧ bytes.length = 1 ∧ e = .truncated 2 1) ∨
    (layer = .lz77Stream ∧ bytes = [0x00#8] ∧ e = .truncated 2 1) ∨
    (layer = .lz77Stream ∧ bytes.head? = some 0x01#8 ∧ bytes.length < 3 ∧ e = .truncated 3 bytes.length)

/-! ## The step -/

/-- A step of a busy engine is `exec` of the instruction it fetches; a step of an engine that is not busy, whose host
writes a legal command, is `exec` of that command with the host's move taken from the queue (R29, R38; log 8). -/
def Obligations.StepRunsTheFetchedInstruction : Prop :=
  (∀ (s : State) (i : Instr), s.status.busy = true → fetch s = .ok i → step s = exec i s) ∧
  (∀ (s : State) (b : Byte) (q : List HostOp) (i : Instr), s.status.busy = false → s.hostQ = .writeCmd b :: q →
    decodeCommand b = .ok i → step s = exec i { s with hostQ := q })

/-- R70, R80, R88: a running decoder fetches the record whose bytes stand at `ip`, in the format of the latched
command; at the end of the input and at a record cut short it goes on with its command (log 18); a compressor runs its
command. -/
def Obligations.FetchReadsTheRecordAtTheCursor : Prop :=
  ∀ s : State,
    (s.cmd = 0x00#8 → fetch s = .ok .rleCompress) ∧
    (s.cmd = 0x01#8 → fetch s = .ok .lz77Compress) ∧
    (s.cmd = 0x02#8 → s.ip + 1 < s.inLen → fetch s = .ok (.rep (s.inByte s.ip) (s.inByte (s.ip + 1)))) ∧
    (s.cmd = 0x02#8 → s.inLen ≤ s.ip + 1 → fetch s = .ok .rleDecompress) ∧
    (s.cmd = 0x03#8 → s.inLen ≤ s.ip → fetch s = .ok .lz77Decompress) ∧
    (s.cmd = 0x03#8 → s.ip < s.inLen → s.inByte s.ip = 0x00#8 →
      fetch s = if s.ip + 1 < s.inLen then .ok (.lit (s.inByte (s.ip + 1))) else .ok .lz77Decompress) ∧
    (s.cmd = 0x03#8 → s.ip < s.inLen → s.inByte s.ip = 0x01#8 →
      fetch s = if s.ip + 2 < s.inLen then .ok (.matchTok (s.inByte (s.ip + 1)) (s.inByte (s.ip + 2)))
        else .ok .lz77Decompress) ∧
    (s.cmd = 0x03#8 → s.ip < s.inLen → s.inByte s.ip ≠ 0x00#8 → s.inByte s.ip ≠ 0x01#8 →
      fetch s = .ok (.illegalTag (s.inByte s.ip)))

/-- Fetching, decoding and running a record is one iteration of the decompress command's own pseudocode (R115, R155):
the two ways to say it give the same outcome in every state. -/
def Obligations.RecordStepIsCommandIteration : Prop :=
  (∀ s : State, s.running 0x02#8 → step s = exec .rleDecompress s) ∧
  (∀ s : State, s.running 0x03#8 → step s = exec .lz77Decompress s)

/-- R29 (the spec's own decision D27): a write of CMD with one of bits 7:2 set is ignored; the host's move is over and
nothing else changes (log 11). -/
def Obligations.ReservedCommandIsIgnored : Prop :=
  ∀ (s : State) (b : Byte) (q : List HostOp), s.status.busy = false → s.hostQ = .writeCmd b :: q → 4 ≤ b.toNat →
    step s = .next { s with hostQ := q }

/-- R31, R35, R36: the host's writes of IN and IN_LEN while the engine is not busy, and where they stop (log 9). -/
def Obligations.HostWritesReachTheirTarget : Prop :=
  (∀ (s : State) (p : Nat) (v : Byte) (q : List HostOp), s.status.busy = false → s.hostQ = .writeIn p v :: q →
    (∀ cap ∈ s.cfg.inCap, p < cap) →
    ∃ t, step s = .next t ∧ t = { s with hostQ := q, inBuf := t.inBuf } ∧ t.inByte p = v ∧
      ∀ a, a ≠ p → t.inByte a = s.inByte a) ∧
  (∀ (s : State) (n : Nat) (q : List HostOp), s.status.busy = false → s.hostQ = .writeInLen n :: q →
    (∀ cap ∈ s.cfg.inCap, n ≤ cap) → step s = .next { s with hostQ := q, inLen := n }) ∧
  (∀ (s : State) (p cap : Nat) (v : Byte) (q : List HostOp), s.status.busy = false → s.hostQ = .writeIn p v :: q →
    s.cfg.inCap = some cap → cap ≤ p → step s = .fault (.hostWriteOutsideIn p)) ∧
  (∀ (s : State) (n cap : Nat) (q : List HostOp), s.status.busy = false → s.hostQ = .writeInLen n :: q →
    s.cfg.inCap = some cap → cap < n → step s = .refused (.inLenOverCapacity n))

/-! ## Command start -/

/-- R29, R40 (the spec's own decisions D2, D15): what a command start initialises, for the three commands whose loop has
nothing before it, the RLE decoder at an even length. -/
def Obligations.CommandStartInitialises : Prop :=
  ∀ (s : State) (i : Instr) (code : Byte), s.status.busy = false → (∀ cap ∈ s.cfg.inCap, s.inLen ≤ cap) →
    (i = .lz77Compress ∧ code = 0x01#8 ∨ i = .rleDecompress ∧ code = 0x02#8 ∧ s.inLen % 2 = 0 ∨
      i = .lz77Decompress ∧ code = 0x03#8) →
    ∃ t, exec i s = .next t ∧
      t.status = { busy := true, done := false, err := false, rleOvf := false } ∧ t.cmd = code ∧
      t.errKind = 0#3 ∧ t.errPos = 0 ∧ t.errExp = 0 ∧ t.errObs = 0 ∧ t.ip = 0 ∧ t.outLen = 0 ∧
      t = { s with
        status := t.status, cmd := t.cmd, errKind := t.errKind, errPos := t.errPos, errExp := t.errExp,
        errObs := t.errObs, ip := t.ip, outLen := t.outLen, outLenReg := t.outLenReg, runs := t.runs }

/-- R40, R102: RLE.COMPRESS starts on a non-empty input with the first run opened. -/
def Obligations.RleCompressOpensTheFirstRun : Prop :=
  ∀ s : State, s.status.busy = false → (∀ cap ∈ s.cfg.inCap, s.inLen ≤ cap) → 0 < s.inLen →
    ∃ t, exec .rleCompress s = .next t ∧
      t.status = { busy := true, done := false, err := false, rleOvf := false } ∧ t.cmd = 0x00#8 ∧
      t.cur = s.inByte 0 ∧ t.cnt = 1#16 ∧ t.ip = 1 ∧ t.outLen = 0 ∧
      t.errKind = 0#3 ∧ t.errPos = 0 ∧ t.errExp = 0 ∧ t.errObs = 0 ∧
      t = { s with
        status := t.status, cmd := t.cmd, cur := t.cur, cnt := t.cnt, errKind := t.errKind, errPos := t.errPos,
        errExp := t.errExp, errObs := t.errObs, ip := t.ip, outLen := t.outLen, outLenReg := t.outLenReg,
        runs := t.runs }

/-- R101, R29, R30, R40 (the registers and what a start clears: the spec's own decisions D1, D2, D4, D15; the end inside
the starting step: log 1): RLE.COMPRESS of the empty input ends at once, the counter 0, no record, no error. -/
def Obligations.RleCompressOfNothingEndsAtOnce : Prop :=
  ∀ s : State, s.status.busy = false → s.inLen = 0 →
    ∃ t, exec .rleCompress s = .next t ∧
      t.status = { busy := false, done := true, err := false, rleOvf := false } ∧
      t.outLenReg = 0 ∧ t.outLen = 0 ∧ t.ip = 0 ∧ t.cnt = 0#16 ∧ t.errKind = 0#3 ∧
      t = { s with
        status := t.status, cmd := 0x00#8, cnt := t.cnt, ip := t.ip, outLen := t.outLen, outLenReg := t.outLenReg,
        errKind := t.errKind, errPos := 0, errExp := 0, errObs := 0, runs := t.runs }

/-- R31 (the spec's own decision D13): a launch with IN_LEN above IN_CAP is refused, whichever the command. -/
def Obligations.OversizedLaunchIsRefused : Prop :=
  ∀ (s : State) (i : Instr) (cap : Nat), i.layer = .command → s.status.busy = false → s.cfg.inCap = some cap →
    cap < s.inLen → exec i s = .refused (.inLenOverCapacity s.inLen)

/-! ## RLE.COMPRESS -/

/-- R103: the byte equals `cur` on all 8 bits and the counter is not full: it is absorbed, nothing is emitted. -/
def Obligations.RunIsExtended : Prop :=
  ∀ s : State, s.running 0x00#8 → s.ip < s.inLen → s.inByte s.ip = s.cur → s.cnt.toNat < 65535 →
    ∃ t, exec .rleCompress s = .next t ∧ t.cnt.toNat = s.cnt.toNat + 1 ∧ t.ip = s.ip + 1 ∧
      t = { s with cnt := t.cnt, ip := t.ip }

/-- R104, R102, R107 (RLE_OVF: the spec's own decision D4): a differing byte closes the run with one record, and a new
run is opened with it. -/
def Obligations.RunIsClosedByADifferingByte : Prop :=
  ∀ s : State, s.running 0x00#8 → s.ip < s.inLen → s.inByte s.ip ≠ s.cur → s.hasRoom 2 →
    ∃ t, exec .rleCompress s = .next t ∧ t.cur = s.inByte s.ip ∧ t.cnt = 1#16 ∧ t.ip = s.ip + 1 ∧
      t.outLen = s.outLen + 2 ∧ t.outByte s.outLen = s.cur ∧
      (t.outByte (s.outLen + 1)).toNat = s.cnt.toNat % 256 ∧
      (∀ q, q ≠ s.outLen → q ≠ s.outLen + 1 → t.outByte q = s.outByte q) ∧
      t = { s with
        cur := t.cur, cnt := t.cnt, ip := t.ip, outLen := t.outLen, outBuf := t.outBuf, status := t.status } ∧
      t.status = { s.status with rleOvf := s.status.rleOvf || decide (255 < s.cnt.toNat) }

/-- R105 (the spec's own decision D3): an equal byte at a full counter closes the run and opens one with the same
byte. -/
def Obligations.RunIsClosedAtTheCap : Prop :=
  ∀ s : State, s.running 0x00#8 → s.ip < s.inLen → s.inByte s.ip = s.cur → s.cnt.toNat = 65535 → s.hasRoom 2 →
    ∃ t, exec .rleCompress s = .next t ∧ t.cur = s.cur ∧ t.cnt = 1#16 ∧ t.ip = s.ip + 1 ∧
      t.outLen = s.outLen + 2 ∧ t.outByte s.outLen = s.cur ∧ t.outByte (s.outLen + 1) = 0xFF#8 ∧
      (∀ q, q ≠ s.outLen → q ≠ s.outLen + 1 → t.outByte q = s.outByte q) ∧
      t = { s with cnt := t.cnt, ip := t.ip, outLen := t.outLen, outBuf := t.outBuf, status := t.status } ∧
      t.status = { s.status with rleOvf := true }

/-- R106, R107, R108 (the registers and RLE_OVF: the spec's own decisions D1, D4; the end as a step of its own: log
1): at the end of the input the open run is closed and the command ends. -/
def Obligations.LastRunIsFlushed : Prop :=
  ∀ s : State, s.running 0x00#8 → s.inLen ≤ s.ip → s.hasRoom 2 →
    ∃ t, exec .rleCompress s = .next t ∧ t.outLen = s.outLen + 2 ∧ t.outLenReg = s.outLen + 2 ∧
      t.outByte s.outLen = s.cur ∧ (t.outByte (s.outLen + 1)).toNat = s.cnt.toNat % 256 ∧
      (∀ q, q ≠ s.outLen → q ≠ s.outLen + 1 → t.outByte q = s.outByte q) ∧
      t.status = { s.status with
        busy := false, done := true, rleOvf := s.status.rleOvf || decide (255 < s.cnt.toNat) } ∧
      t = { s with outLen := t.outLen, outLenReg := t.outLenReg, outBuf := t.outBuf, status := t.status }

/-- R107 (its table): the count byte is the counter modulo 256: faithful up to 255 and zero exactly at multiples of
256. -/
def Obligations.CountByteIsTheCounterModulo256 : Prop :=
  ∀ c : RunCount, (trunc8 c).toNat = c.toNat % 256 ∧
    ((trunc8 c).toNat = c.toNat ↔ c.toNat ≤ 255) ∧ (trunc8 c = 0#8 ↔ 256 ∣ c.toNat)

/-! ## RLE.DECOMPRESS and REP -/

/-- R116, R192 (placement and context: the spec's own decisions D23, D11): an odd length ends the command before any
record. -/
def Obligations.OddLengthIsMalformed : Prop :=
  ∀ s : State, s.status.busy = false → (∀ cap ∈ s.cfg.inCap, s.inLen ≤ cap) → s.inLen % 2 = 1 →
    ∃ t, exec .rleDecompress s = .next t ∧ t.errKind = 1#3 ∧ t.errPos = 0 ∧ t.errExp = s.inLen + 1 ∧
      t.errObs = s.inLen ∧ t.outLenReg = 0 ∧ t.outLen = 0 ∧
      t.status = { busy := false, done := true, err := true, rleOvf := false } ∧
      t = { s with
        cmd := 0x02#8, ip := t.ip, outLen := t.outLen, runs := t.runs,
        errKind := t.errKind, errPos := t.errPos, errExp := t.errExp, errObs := t.errObs, outLenReg := t.outLenReg,
        status := t.status, outBuf := t.outBuf, outEra := t.outEra }

/-- R117: the record appends `count` copies of `value` and moves `ip` by 2; where they do not fit, CapacityExceeded (the
spec's own decision D13). Every other register keeps its value. -/
def Obligations.RepAppendsCopies : Prop :=
  ∀ (s : State) (value count : Byte), s.running 0x02#8 →
    (s.hasRoom count.toNat →
      ∃ t, exec (.rep value count) s = .next t ∧ t.ip = s.ip + 2 ∧ t.outLen = s.outLen + count.toNat ∧
        (∀ j < count.toNat, t.outByte (s.outLen + j) = value) ∧
        (∀ q, q < s.outLen ∨ s.outLen + count.toNat ≤ q → t.outByte q = s.outByte q) ∧
        t = { s with val := value, rem := 0#8, ip := t.ip, outLen := t.outLen, outBuf := t.outBuf }) ∧
    (∀ cap ∈ s.cfg.outCap, s.outLen ≤ cap → cap < s.outLen + count.toNat →
      ∃ t, exec (.rep value count) s = .next t ∧ t.errKind = 6#3 ∧ t.errPos = s.ip ∧ t.errExp = cap ∧
        t.errObs = cap + 1 ∧ t.outLenReg = 0 ∧ t.status = { s.status with busy := false, done := true, err := true } ∧
        t = { s with
          val := t.val, rem := t.rem, outLen := t.outLen, errKind := t.errKind, errPos := t.errPos,
          errExp := t.errExp, errObs := t.errObs, outLenReg := t.outLenReg, status := t.status, outBuf := t.outBuf,
          outEra := t.outEra })

/-- R118: a count of 0 raises nothing, appends nothing and is skipped like any other record, whatever the capacity. -/
def Obligations.CountZeroIsANoOp : Prop :=
  ∀ (s : State) (value : Byte), s.running 0x02#8 →
    exec (.rep value 0#8) s = .next { s with val := value, rem := 0#8, ip := s.ip + 2 }

/-- R119, R141, R167 (the registers: the spec's own decision D1; the end as a step of its own: log 1): at the end of the
input the command ends successfully, `OUT_LEN` the number of bytes appended. -/
def Obligations.CommandEndsAtTheEndOfInput : Prop :=
  ∀ (s : State) (i : Instr) (code : Byte),
    (i = .lz77Compress ∧ code = 0x01#8 ∨ i = .rleDecompress ∧ code = 0x02#8 ∨ i = .lz77Decompress ∧ code = 0x03#8) →
    s.running code → s.inLen ≤ s.ip →
    exec i s = .next { s with outLenReg := s.outLen, status := { s.status with busy := false, done := true } }

/-! ## The match-finder and LZ77.COMPRESS -/

/-- R125 to R131: `FIND(ip)` gives the longest match of the window with the smallest offset of that length, or (0, 0),
and writes nothing but its own registers. -/
def Obligations.FindMeetsItsContract : Prop :=
  ∀ s : State, ∃ t, find s = .go t ∧ IsFind s.cfg.W s.cfg.L (input s) s.ip t.bestOff t.bestLen ∧
    t = { s with cand := t.cand, k := t.k, maxlen := t.maxlen, bestOff := t.bestOff, bestLen := t.bestLen }

/-- R128 (its consequence for one repeated byte): the comparison runs into the bytes being matched: on a repetition of
one byte the nearest candidate matches the whole rest up to the cap. -/
def Obligations.FindOverlapsItsOwnLookahead : Prop :=
  ∀ (s : State) (v : Byte), 1 ≤ s.ip → s.ip < s.inLen → 1 ≤ s.cfg.W → 1 ≤ s.cfg.L →
    (∀ p < s.inLen, s.inByte p = v) →
    ∃ t, find s = .go t ∧ t.bestOff = 1 ∧ t.bestLen = min s.cfg.L (s.inLen - s.ip)

/-- R142, R143: a match shorter than 3 is not used; a literal for the single byte at `ip`. -/
def Obligations.ShortMatchBecomesALiteral : Prop :=
  ∀ (s : State) (o l : Nat), s.running 0x01#8 → s.ip < s.inLen →
    IsFind s.cfg.W s.cfg.L (input s) s.ip o l → l < 3 → s.hasRoom 2 →
    ∃ t, exec .lz77Compress s = .next t ∧ t.ip = s.ip + 1 ∧ t.outLen = s.outLen + 2 ∧
      t.outByte s.outLen = 0x00#8 ∧ t.outByte (s.outLen + 1) = s.inByte s.ip ∧
      (∀ q, q ≠ s.outLen → q ≠ s.outLen + 1 → t.outByte q = s.outByte q) ∧
      t = { s with
        ip := t.ip, outLen := t.outLen, outBuf := t.outBuf, cand := t.cand, k := t.k, maxlen := t.maxlen,
        bestOff := t.bestOff, bestLen := t.bestLen }

/-- R142, R144, R146 (what passes the check of R145, D24): a match of length 3 or more that fits its fields is emitted
as tag, offset, length. -/
def Obligations.LongMatchBecomesAMatchToken : Prop :=
  ∀ (s : State) (o l : Nat), s.running 0x01#8 → s.ip < s.inLen →
    IsFind s.cfg.W s.cfg.L (input s) s.ip o l → 3 ≤ l → o ≤ 255 → l ≤ 255 → s.hasRoom 3 →
    ∃ t, exec .lz77Compress s = .next t ∧ t.ip = s.ip + l ∧ t.outLen = s.outLen + 3 ∧
      t.outByte s.outLen = 0x01#8 ∧ (t.outByte (s.outLen + 1)).toNat = o ∧ (t.outByte (s.outLen + 2)).toNat = l ∧
      (∀ q, q < s.outLen ∨ s.outLen + 3 ≤ q → t.outByte q = s.outByte q) ∧
      t = { s with
        ip := t.ip, outLen := t.outLen, outBuf := t.outBuf, cand := t.cand, k := t.k, maxlen := t.maxlen,
        bestOff := t.bestOff, bestLen := t.bestLen }

/-- R145, R196 (the spec's own decisions D11, D24): a chosen match that does not fit its fields ends the command. -/
def Obligations.OversizedMatchIsAnError : Prop :=
  ∀ (s : State) (o l : Nat), s.running 0x01#8 → s.ip < s.inLen →
    IsFind s.cfg.W s.cfg.L (input s) s.ip o l → 3 ≤ l → 255 < o ∨ 255 < l →
    ∃ t, exec .lz77Compress s = .next t ∧ t.errKind = 5#3 ∧ t.errPos = s.ip ∧ t.errExp = 255 ∧
      t.errObs = max o l ∧ t.outLenReg = 0 ∧ t.outLen = s.outLen ∧
      t.status = { s.status with busy := false, done := true, err := true } ∧
      t = { s with
        cand := t.cand, k := t.k, maxlen := t.maxlen, bestOff := t.bestOff, bestLen := t.bestLen,
        errKind := t.errKind, errPos := t.errPos, errExp := t.errExp, errObs := t.errObs, outLenReg := t.outLenReg,
        status := t.status, outBuf := t.outBuf, outEra := t.outEra }

/-- R7, R149: in a well-configured instance no step brings EncodableRangeExceeded. -/
def Obligations.WellConfiguredNeverExceedsTheRange : Prop :=
  ∀ s t : State, s.cfg.WellConfigured → s.errKind ≠ 5#3 → step s = .next t → t.errKind ≠ 5#3

/-! ## LZ77.DECOMPRESS and its tokens -/

/-- R157: the payload byte is appended without interpretation. -/
def Obligations.LitAppendsItsByte : Prop :=
  ∀ (s : State) (byte : Byte), s.running 0x03#8 → s.ip + 1 < s.inLen → s.hasRoom 1 →
    ∃ t, exec (.lit byte) s = .next t ∧ t.ip = s.ip + 2 ∧ t.outLen = s.outLen + 1 ∧ t.outByte s.outLen = byte ∧
      (∀ q, q ≠ s.outLen → t.outByte q = s.outByte q) ∧
      t = { s with tag := 0x00#8, ip := t.ip, outLen := t.outLen, outBuf := t.outBuf }

/-- R158, R160, R162, R193 (context: the spec's own decision D11; the order of the checks: D9): a token cut short ends
the command with nothing appended, whatever its offset, run as a record and met by a step alike. -/
def Obligations.ShortTokenIsTruncated : Prop :=
  (∀ (s : State) (byte : Byte), s.running 0x03#8 → s.inLen ≤ s.ip + 1 →
    ∃ t, exec (.lit byte) s = .next t ∧ t.errKind = 2#3 ∧ t.errPos = s.ip ∧ t.errExp = 2 ∧
      t.errObs = s.inLen - s.ip ∧ t.outLenReg = 0 ∧ t.outLen = s.outLen ∧
      t.status = { s.status with busy := false, done := true, err := true } ∧
      t = { s with
        tag := 0x00#8,
        errKind := t.errKind, errPos := t.errPos, errExp := t.errExp, errObs := t.errObs, outLenReg := t.outLenReg,
        status := t.status, outBuf := t.outBuf, outEra := t.outEra }) ∧
  (∀ (s : State) (offset length : Byte), s.running 0x03#8 → s.inLen ≤ s.ip + 2 →
    ∃ t, exec (.matchTok offset length) s = .next t ∧ t.errKind = 2#3 ∧ t.errPos = s.ip ∧ t.errExp = 3 ∧
      t.errObs = s.inLen - s.ip ∧ t.outLenReg = 0 ∧ t.outLen = s.outLen ∧
      t.status = { s.status with busy := false, done := true, err := true } ∧
      t = { s with
        tag := 0x01#8,
        errKind := t.errKind, errPos := t.errPos, errExp := t.errExp, errObs := t.errObs, outLenReg := t.outLenReg,
        status := t.status, outBuf := t.outBuf, outEra := t.outEra }) ∧
  (∀ s : State, s.running 0x03#8 → s.ip + 1 = s.inLen → s.inByte s.ip = 0x00#8 →
    ∃ t, step s = .next t ∧ t.errKind = 2#3 ∧ t.errPos = s.ip ∧ t.errExp = 2 ∧ t.errObs = 1 ∧
      t.outLenReg = 0 ∧ t.outLen = s.outLen ∧
      t.status = { s.status with busy := false, done := true, err := true } ∧
      t = { s with
        tag := 0x00#8,
        errKind := t.errKind, errPos := t.errPos, errExp := t.errExp, errObs := t.errObs, outLenReg := t.outLenReg,
        status := t.status, outBuf := t.outBuf, outEra := t.outEra }) ∧
  (∀ s : State, s.running 0x03#8 → s.ip < s.inLen → s.inLen ≤ s.ip + 2 → s.inByte s.ip = 0x01#8 →
    ∃ t, step s = .next t ∧ t.errKind = 2#3 ∧ t.errPos = s.ip ∧ t.errExp = 3 ∧ t.errObs = s.inLen - s.ip ∧
      t.outLenReg = 0 ∧ t.outLen = s.outLen ∧
      t.status = { s.status with busy := false, done := true, err := true } ∧
      t = { s with
        tag := 0x01#8,
        errKind := t.errKind, errPos := t.errPos, errExp := t.errExp, errObs := t.errObs, outLenReg := t.outLenReg,
        status := t.status, outBuf := t.outBuf, outEra := t.outEra })

/-- R161, R194 (context: the spec's own decision D11): a whole token whose offset is 0 or reaches before the start of
the output ends the command, whatever its length. -/
def Obligations.BadOffsetIsAnError : Prop :=
  ∀ (s : State) (offset length : Byte), s.running 0x03#8 → s.ip + 2 < s.inLen →
    offset = 0#8 ∨ s.outLen < offset.toNat →
    ∃ t, exec (.matchTok offset length) s = .next t ∧ t.errKind = 3#3 ∧ t.errPos = s.ip ∧ t.errExp = s.outLen ∧
      t.errObs = offset.toNat ∧ t.outLenReg = 0 ∧ t.outLen = s.outLen ∧
      t.status = { s.status with busy := false, done := true, err := true } ∧
      t = { s with
        tag := 0x01#8, off := offset, len := length,
        errKind := t.errKind, errPos := t.errPos, errExp := t.errExp, errObs := t.errObs, outLenReg := t.outLenReg,
        status := t.status, outBuf := t.outBuf, outEra := t.outEra }

/-- R159, R161, R163, R164 (periodic: the spec's own inference; any length: its decision D19): a valid token of any
length appends `length` bytes, each equal to the byte `offset` places before it in the output as it then is, which is
the periodic extension of the last `offset` bytes. -/
def Obligations.SpanCopyExtendsPeriodically : Prop :=
  ∀ (s : State) (offset length : Byte), s.running 0x03#8 → s.ip + 2 < s.inLen → 1 ≤ offset.toNat →
    offset.toNat ≤ s.outLen → s.hasRoom length.toNat →
    ∃ t, exec (.matchTok offset length) s = .next t ∧ t.ip = s.ip + 3 ∧ t.outLen = s.outLen + length.toNat ∧
      (∀ j < length.toNat, t.outByte (s.outLen + j) = t.outByte (s.outLen + j - offset.toNat)) ∧
      (∀ j < length.toNat, t.outByte (s.outLen + j) = s.outByte (s.outLen - offset.toNat + j % offset.toNat)) ∧
      (∀ q, q < s.outLen ∨ s.outLen + length.toNat ≤ q → t.outByte q = s.outByte q) ∧
      t = { s with
        tag := 0x01#8, off := offset, len := 0#8, ip := t.ip, outLen := t.outLen, outBuf := t.outBuf }

/-- R166, R195 (context: the spec's own decision D11): every illegal tag ends the command, also as the last byte. -/
def Obligations.IllegalTagIsUnrecognized : Prop :=
  ∀ (s : State) (tag : Byte), s.running 0x03#8 → 2 ≤ tag.toNat →
    ∃ t, exec (.illegalTag tag) s = .next t ∧ t.errKind = 4#3 ∧ t.errPos = s.ip ∧ t.errExp = 1 ∧
      t.errObs = tag.toNat ∧ t.outLenReg = 0 ∧ t.outLen = s.outLen ∧
      t.status = { s.status with busy := false, done := true, err := true } ∧
      t = { s with
        tag := tag,
        errKind := t.errKind, errPos := t.errPos, errExp := t.errExp, errObs := t.errObs, outLenReg := t.outLenReg,
        status := t.status, outBuf := t.outBuf, outEra := t.outEra }

/-! ## Errors -/

/-- R202, R205, R191 (the spec's own decisions D10 to D12): what an error entry writes, for every kind and context. -/
def Obligations.RaiseEntersTheError : Prop :=
  ∀ (kind : ErrorKind) (pos exp obs : Nat) (s : State),
    let t := s.raiseError kind pos exp obs
    t.errPos = pos ∧ t.errExp = exp ∧ t.errObs = obs ∧ t.outLenReg = 0 ∧ t.status.err = true ∧
    t.status.done = true ∧ t.status.busy = false ∧ t.status.rleOvf = s.status.rleOvf ∧
    errorKindOf t.errKind = some kind ∧
    (t.errKind.toNat = match kind with
      | .malformedLength => 1
      | .truncatedRecord => 2
      | .invalidBackReference => 3
      | .unrecognizedTag => 4
      | .encodableRangeExceeded => 5
      | .capacityExceeded => 6) ∧
    t = { s with
      errKind := t.errKind, errPos := t.errPos, errExp := t.errExp, errObs := t.errObs, outLenReg := t.outLenReg,
      status := t.status, outBuf := t.outBuf, outEra := t.outEra }

/-- R52, R197 (the spec's own decision D13): an append at `out_len = OUT_CAP` ends the command, and any other appends. -/
def Obligations.FullBufferEndsTheCommand : Prop :=
  (∀ (s : State) (v : Byte), s.cfg.outCap = some s.outLen →
    ∃ t, emit v s = .ended t ∧ t.errKind = 6#3 ∧ t.errPos = s.ip ∧ t.errExp = s.outLen ∧ t.errObs = s.outLen + 1 ∧
      t.outLenReg = 0 ∧ t.outLen = s.outLen ∧ t.status = { s.status with busy := false, done := true, err := true } ∧
      t = { s with
        errKind := t.errKind, errPos := t.errPos, errExp := t.errExp, errObs := t.errObs, outLenReg := t.outLenReg,
        status := t.status, outBuf := t.outBuf, outEra := t.outEra }) ∧
  (∀ (s : State) (v : Byte), s.hasRoom 1 →
    ∃ t, emit v s = .go t ∧ t.outLen = s.outLen + 1 ∧ t.outByte s.outLen = v ∧
      (∀ q, q ≠ s.outLen → t.outByte q = s.outByte q) ∧ t = { s with outLen := t.outLen, outBuf := t.outBuf })

/-- R197, R202, R203 (the spec's own decisions D11 to D13): the tokens and records that no longer fit end the command with
CapacityExceeded at the `ip` of their step, in each operation that appends (REP: see RepAppendsCopies). -/
def Obligations.CapacityIsCheckedByEveryAppender : Prop :=
  ∀ (s : State) (cap : Nat), s.cfg.outCap = some cap → s.outLen ≤ cap →
    (∀ byte, s.running 0x03#8 → s.ip + 1 < s.inLen → cap < s.outLen + 1 →
      ∃ t, exec (.lit byte) s = .next t ∧ t.errKind = 6#3 ∧ t.errPos = s.ip ∧ t.errExp = cap ∧ t.errObs = cap + 1 ∧
        t.outLenReg = 0 ∧
        t.status = { s.status with busy := false, done := true, err := true }) ∧
    (∀ offset length : Byte, s.running 0x03#8 → s.ip + 2 < s.inLen → 1 ≤ offset.toNat → offset.toNat ≤ s.outLen →
      cap < s.outLen + length.toNat →
      ∃ t, exec (.matchTok offset length) s = .next t ∧ t.errKind = 6#3 ∧ t.errPos = s.ip ∧ t.errExp = cap ∧
        t.errObs = cap + 1 ∧ t.outLenReg = 0 ∧
        t.status = { s.status with busy := false, done := true, err := true }) ∧
    (s.running 0x00#8 → s.inLen ≤ s.ip ∨ s.inByte s.ip ≠ s.cur ∨ s.cnt.toNat = 65535 → cap < s.outLen + 2 →
      ∃ t, exec .rleCompress s = .next t ∧ t.errKind = 6#3 ∧ t.errPos = s.ip ∧ t.errExp = cap ∧ t.errObs = cap + 1 ∧
        t.outLenReg = 0 ∧
        t.status = { s.status with busy := false, done := true, err := true }) ∧
    (∀ o l, s.running 0x01#8 → s.ip < s.inLen → IsFind s.cfg.W s.cfg.L (input s) s.ip o l →
      l < 3 ∧ cap < s.outLen + 2 ∨ 3 ≤ l ∧ o ≤ 255 ∧ l ≤ 255 ∧ cap < s.outLen + 3 →
      ∃ t, exec .lz77Compress s = .next t ∧ t.errKind = 6#3 ∧ t.errPos = s.ip ∧ t.errExp = cap ∧ t.errObs = cap + 1 ∧
        t.outLenReg = 0 ∧
        t.status = { s.status with busy := false, done := true, err := true })

/-- R198, R199 (the spec's own inference; code numbers: D10): which running command can end with which error kind
(MalformedLength arises at the start of RLE.DECOMPRESS only: OddLengthIsMalformed). -/
def Obligations.EachCommandRaisesItsOwnKinds : Prop :=
  ∀ s t : State, s.status.busy = true → s.status.err = false → step s = .next t → t.status.err = true →
    (s.cmd = 0x00#8 ∧ t.errKind = 6#3) ∨
    (s.cmd = 0x01#8 ∧ (t.errKind = 5#3 ∨ t.errKind = 6#3)) ∨
    (s.cmd = 0x02#8 ∧ t.errKind = 6#3) ∨
    (s.cmd = 0x03#8 ∧ (t.errKind = 2#3 ∨ t.errKind = 3#3 ∨ t.errKind = 4#3 ∨ t.errKind = 6#3))

/-! ## Frames -/

/-- R21 to R25: each working register is written only by its own sub-block. -/
def Obligations.WorkingRegistersHaveOneWriter : Prop :=
  ∀ (i : Instr) (s t : State), exec i s = .next t →
    (i ≠ .rleCompress → t.cur = s.cur ∧ t.cnt = s.cnt) ∧
    (i.layer ≠ .rleStream → i ≠ .rleDecompress → t.val = s.val ∧ t.rem = s.rem) ∧
    (i ≠ .lz77Compress → t.cand = s.cand ∧ t.k = s.k ∧ t.maxlen = s.maxlen ∧ t.bestOff = s.bestOff ∧
      t.bestLen = s.bestLen) ∧
    (i.layer ≠ .lz77Stream → i ≠ .lz77Decompress → t.tag = s.tag ∧ t.off = s.off ∧ t.len = s.len)

/-- R51, R35: no instruction writes IN, IN_LEN, the parameters or the host's moves; on every address of IN the byte read
afterwards is the byte read before. -/
def Obligations.EngineNeverWritesIn : Prop :=
  ∀ (i : Instr) (s t : State), exec i s = .next t →
    t.inLen = s.inLen ∧ t.cfg = s.cfg ∧ t.hostQ = s.hostQ ∧ t.inBuf = s.inBuf ∧ ∀ p, t.inByte p = s.inByte p

/-- R52, R53: OUT is append-only: unless the command ends in an error, every byte of OUT outside the positions from the
old to the new `out_len` is unchanged, and `out_len` does not shrink. A command start appends nothing. -/
def Obligations.OutIsAppendOnly : Prop :=
  ∀ (i : Instr) (s t : State), exec i s = .next t → t.status.err = false →
    (s.status.busy = true → s.outLen ≤ t.outLen ∧
      ∀ q, q < s.outLen ∨ t.outLen ≤ q → t.outByte q = s.outByte q) ∧
    (s.status.busy = false → ∀ q, t.outByte q = s.outByte q)

/-- R30, R33, R34, R40, R202 (the spec's own decisions D1, D4, D10 to D12): the host-visible registers across one
instruction of a running command: CMD stays, the error registers and `ERR` change only by an error entry, `BUSY` and
`DONE` change together, `RLE_OVF` is written by RLE.COMPRESS only and never cleared, and OUT_LEN is written at the
command's end only. -/
def Obligations.HostRegistersOfARunningCommand : Prop :=
  ∀ (i : Instr) (s t : State), s.status.busy = true → s.status.done = false → exec i s = .next t →
    t.cmd = s.cmd ∧ t.runs = s.runs ∧
    (t.status.busy = !t.status.done) ∧
    (s.status.rleOvf = true → t.status.rleOvf = true) ∧ (i ≠ .rleCompress → t.status.rleOvf = s.status.rleOvf) ∧
    (t.status.busy = true → t.outLenReg = s.outLenReg) ∧
    ((t.status.err = s.status.err ∧ t.errKind = s.errKind ∧ t.errPos = s.errPos ∧ t.errExp = s.errExp ∧
        t.errObs = s.errObs ∧ t.outEra = s.outEra ∧ (t.status.done = true → t.outLenReg = t.outLen)) ∨
      (t.status.err = true ∧ t.status.done = true ∧ t.errKind ≠ 0#3 ∧ t.outLenReg = 0 ∧ t.errPos = s.ip))

/-- R30 (the spec's own decisions D1, D4): the place of each flag in STATUS, and bits 7:4 never set. -/
def Obligations.StatusWordHasTheFlagsInPlace : Prop :=
  ∀ f : Status, (statusWord f).getLsbD 0 = f.busy ∧ (statusWord f).getLsbD 1 = f.done ∧
    (statusWord f).getLsbD 2 = f.err ∧ (statusWord f).getLsbD 3 = f.rleOvf ∧ (statusWord f).toNat < 16

/-- R35 (the spec's own decisions D1, D16): what the host reads of a finished instance: the registers as they stand
and, after success, the bytes of the result. -/
def Obligations.HostReadsTheResult : Prop :=
  ∀ s : State, s.status.busy = false →
    hostRead .cmd s = some s.cmd.toNat ∧ hostRead .status s = some (statusWord s.status).toNat ∧
    hostRead .inLen s = some s.inLen ∧ hostRead .outLen s = some s.outLenReg ∧
    hostRead .errKind s = some s.errKind.toNat ∧ hostRead .errPos s = some s.errPos ∧
    hostRead .errExp s = some s.errExp ∧ hostRead .errObs s = some s.errObs ∧
    (∀ p, (∀ cap ∈ s.cfg.inCap, p < cap) → hostRead (.inByte p) s = some (s.inByte p).toNat) ∧
    (s.status.done = true → s.status.err = false → ∀ q < s.outLenReg, (∀ cap ∈ s.cfg.outCap, q < cap) →
      hostRead (.outByte q) s = some (s.outByte q).toNat)

/-! ## Reset and the invariant -/

/-- R39, R220 (the spec's own decision D15): every host-visible register is 0 and the instance is idle. -/
def Obligations.ResetLeavesTheInstanceIdle : Prop :=
  let s := State.reset
  s.cmd = 0#8 ∧ statusWord s.status = 0#8 ∧ s.inLen = 0 ∧ s.outLenReg = 0 ∧ s.errKind = 0#3 ∧ s.errPos = 0 ∧
  s.errExp = 0 ∧ s.errObs = 0 ∧ step s = .next s

/-- The invariant holds after reset. -/
def Obligations.ResetMeetsTheInvariant : Prop := Inv State.reset

/-- R26, R28 to R34, R119 (the spec's own decisions D1, D4, D10 to D13): every step, of the engine or of the host,
keeps the invariant, from every state that has it. -/
def Obligations.StepKeepsTheInvariant : Prop := ∀ s t : State, Inv s → step s = .next t → Inv t

/-- R51, R53, R182: a busy engine never stops: no read leaves IN[0 .. IN_LEN) or OUT[0 .. out_len), no input is
refused. -/
def Obligations.BusyEngineNeverStops : Prop := ∀ s : State, Inv s → s.status.busy = true → ∃ t, step s = .next t

/-- R27, R230 (the spec's own inference; one iteration a step: log 1): each iteration moves `ip` forward, or the
command ends; it never moves back or past the input. -/
def Obligations.CursorMovesForward : Prop :=
  ∀ s t : State, Inv s → s.status.busy = true → step s = .next t →
    (t.status.busy = true → s.ip < t.ip ∧ t.ip ≤ t.inLen) ∧ (t.status.busy = false → t.status.done = true ∧ s.ip ≤ t.ip)

/-- R230 (the spec's own inference; the end as a step of its own: log 1): a started command ends after at most IN_LEN
- ip further iterations and the step that ends it. -/
def Obligations.EveryCommandTerminates : Prop :=
  ∀ s : State, Inv s → s.status.busy = true →
    ∃ k t, k ≤ s.inLen - s.ip + 1 ∧ Sys2Proof.core.run k s = .next t ∧ t.status.busy = false ∧ t.status.done = true

/-! ## The call boundary -/

/-- R100, R176 (the register protocol: the spec's own decisions D1, D2, D16): RLE.COMPRESS as a host transaction
computes the record stream of the input's closed runs. -/
def Obligations.RleCompressComputesItsFunction : Prop :=
  ∀ (d : List Byte) (s : State), Ready d s → s.cfg.outCap = none →
    call 0x00#8 d s = some (.ok (rleEncode d))

/-- R115, R176 (the register protocol: the spec's own decisions D1, D2, D16): RLE.DECOMPRESS as a host transaction
expands the records, or reports the odd length. -/
def Obligations.RleDecompressComputesItsFunction : Prop :=
  ∀ (d : List Byte) (s : State), Ready d s → s.cfg.outCap = none → call 0x02#8 d s = some (rleDecode d)

/-- R140, R176 (the register protocol: the spec's own decisions D1, D2, D16): LZ77.COMPRESS as a host transaction
computes the greedy token stream for the instance's `W` and `L`, or the range error. -/
def Obligations.Lz77CompressComputesItsFunction : Prop :=
  ∀ (d : List Byte) (s : State), Ready d s → s.cfg.outCap = none →
    call 0x01#8 d s = some (lz77Encode s.cfg.W s.cfg.L d)

/-- R155, R176 (the register protocol: the spec's own decisions D1, D2, D16): LZ77.DECOMPRESS as a host transaction
decodes the token stream, or reports the first bad token. -/
def Obligations.Lz77DecompressComputesItsFunction : Prop :=
  ∀ (d : List Byte) (s : State), Ready d s → s.cfg.outCap = none → call 0x03#8 d s = some (lz77Decode d)

/-- R113 (the spec's own inference from R107 and R117): an RLE round trip returns the input if and only if every
maximal run has at most 255 bytes. -/
def Obligations.RleRoundTripNeedsShortRuns : Prop :=
  ∀ (d e : List Byte) (s u : State), Ready d s → s.cfg.outCap = none → Ready e u → u.cfg.outCap = none →
    call 0x00#8 d s = some (.ok e) → (call 0x02#8 e u = some (.ok d) ↔ ShortRuns d)

/-- R151 (the spec's own inference from R147 and R163): an LZ77 round trip returns the input, on instances of any `W`
and `L`, the decoder's its own. -/
def Obligations.Lz77RoundTrip : Prop :=
  ∀ (d e : List Byte) (s u : State), Ready d s → Ready e u → u.cfg.outCap = none →
    call 0x01#8 d s = some (.ok e) → call 0x03#8 e u = some (.ok d)

/-- R179: all four commands map the empty stream to the empty stream. -/
def Obligations.EmptyInputGivesEmptyOutput : Prop :=
  ∀ (code : Byte) (s : State), code.toNat < 4 → s.status.busy = false → call code [] s = some (.ok [])

/-- R175, R176, R230 (the protocol: the spec's own decisions D1, D2, D16): each call is total: it ends with bytes or
with an error, whatever the data, the capacity and the parameters. -/
def Obligations.EveryCallReturns : Prop :=
  ∀ (code : Byte) (d : List Byte) (s : State), code.toNat < 4 → Ready d s → ∃ r, call code d s = some r

/-- R11, R178: the result of a call depends on the command, the data and the parameters only: two instances of the same
configuration, whatever they did before, give the same result. -/
def Obligations.CallsAreIndependent : Prop :=
  ∀ (code : Byte) (d : List Byte) (s u : State), code.toNat < 4 → s.status.busy = false → u.status.busy = false →
    s.cfg = u.cfg → call code d s = call code d u
end

