-- ==== Sys2Proof/Laws/State.lean ====
section
/-! SUPPORT. Each named update of the state, field by field: what it writes and what it leaves. -/

namespace Sys2Proof.Machine

@[simp] theorem State.raiseError_cfg (kind : ErrorKind) (pos exp obs : Nat) (s : State) : (s.raiseError kind pos exp obs).cfg = s.cfg := rfl
@[simp] theorem State.raiseError_cmd (kind : ErrorKind) (pos exp obs : Nat) (s : State) : (s.raiseError kind pos exp obs).cmd = s.cmd := rfl
@[simp] theorem State.raiseError_status (kind : ErrorKind) (pos exp obs : Nat) (s : State) : (s.raiseError kind pos exp obs).status = statusEndedErr s.status := rfl
@[simp] theorem State.raiseError_inLen (kind : ErrorKind) (pos exp obs : Nat) (s : State) : (s.raiseError kind pos exp obs).inLen = s.inLen := rfl
@[simp] theorem State.raiseError_outLenReg (kind : ErrorKind) (pos exp obs : Nat) (s : State) : (s.raiseError kind pos exp obs).outLenReg = 0 := rfl
@[simp] theorem State.raiseError_errKind (kind : ErrorKind) (pos exp obs : Nat) (s : State) : (s.raiseError kind pos exp obs).errKind = errorCode kind := rfl
@[simp] theorem State.raiseError_errPos (kind : ErrorKind) (pos exp obs : Nat) (s : State) : (s.raiseError kind pos exp obs).errPos = pos := rfl
@[simp] theorem State.raiseError_errExp (kind : ErrorKind) (pos exp obs : Nat) (s : State) : (s.raiseError kind pos exp obs).errExp = exp := rfl
@[simp] theorem State.raiseError_errObs (kind : ErrorKind) (pos exp obs : Nat) (s : State) : (s.raiseError kind pos exp obs).errObs = obs := rfl
@[simp] theorem State.raiseError_ip (kind : ErrorKind) (pos exp obs : Nat) (s : State) : (s.raiseError kind pos exp obs).ip = s.ip := rfl
@[simp] theorem State.raiseError_outLen (kind : ErrorKind) (pos exp obs : Nat) (s : State) : (s.raiseError kind pos exp obs).outLen = s.outLen := rfl
@[simp] theorem State.raiseError_cur (kind : ErrorKind) (pos exp obs : Nat) (s : State) : (s.raiseError kind pos exp obs).cur = s.cur := rfl
@[simp] theorem State.raiseError_cnt (kind : ErrorKind) (pos exp obs : Nat) (s : State) : (s.raiseError kind pos exp obs).cnt = s.cnt := rfl
@[simp] theorem State.raiseError_val (kind : ErrorKind) (pos exp obs : Nat) (s : State) : (s.raiseError kind pos exp obs).val = s.val := rfl
@[simp] theorem State.raiseError_rem (kind : ErrorKind) (pos exp obs : Nat) (s : State) : (s.raiseError kind pos exp obs).rem = s.rem := rfl
@[simp] theorem State.raiseError_cand (kind : ErrorKind) (pos exp obs : Nat) (s : State) : (s.raiseError kind pos exp obs).cand = s.cand := rfl
@[simp] theorem State.raiseError_k (kind : ErrorKind) (pos exp obs : Nat) (s : State) : (s.raiseError kind pos exp obs).k = s.k := rfl
@[simp] theorem State.raiseError_maxlen (kind : ErrorKind) (pos exp obs : Nat) (s : State) : (s.raiseError kind pos exp obs).maxlen = s.maxlen := rfl
@[simp] theorem State.raiseError_bestOff (kind : ErrorKind) (pos exp obs : Nat) (s : State) : (s.raiseError kind pos exp obs).bestOff = s.bestOff := rfl
@[simp] theorem State.raiseError_bestLen (kind : ErrorKind) (pos exp obs : Nat) (s : State) : (s.raiseError kind pos exp obs).bestLen = s.bestLen := rfl
@[simp] theorem State.raiseError_tag (kind : ErrorKind) (pos exp obs : Nat) (s : State) : (s.raiseError kind pos exp obs).tag = s.tag := rfl
@[simp] theorem State.raiseError_off (kind : ErrorKind) (pos exp obs : Nat) (s : State) : (s.raiseError kind pos exp obs).off = s.off := rfl
@[simp] theorem State.raiseError_len (kind : ErrorKind) (pos exp obs : Nat) (s : State) : (s.raiseError kind pos exp obs).len = s.len := rfl
@[simp] theorem State.raiseError_inBuf (kind : ErrorKind) (pos exp obs : Nat) (s : State) : (s.raiseError kind pos exp obs).inBuf = s.inBuf := rfl
@[simp] theorem State.raiseError_outBuf (kind : ErrorKind) (pos exp obs : Nat) (s : State) : (s.raiseError kind pos exp obs).outBuf = [] := rfl
@[simp] theorem State.raiseError_hostQ (kind : ErrorKind) (pos exp obs : Nat) (s : State) : (s.raiseError kind pos exp obs).hostQ = s.hostQ := rfl
@[simp] theorem State.raiseError_runs (kind : ErrorKind) (pos exp obs : Nat) (s : State) : (s.raiseError kind pos exp obs).runs = s.runs := rfl
@[simp] theorem State.raiseError_outEra (kind : ErrorKind) (pos exp obs : Nat) (s : State) : (s.raiseError kind pos exp obs).outEra = s.outEra + 1 := rfl

@[simp] theorem State.closeOk_cfg (s : State) : (s.closeOk).cfg = s.cfg := rfl
@[simp] theorem State.closeOk_cmd (s : State) : (s.closeOk).cmd = s.cmd := rfl
@[simp] theorem State.closeOk_status (s : State) : (s.closeOk).status = statusEndedOk s.status := rfl
@[simp] theorem State.closeOk_inLen (s : State) : (s.closeOk).inLen = s.inLen := rfl
@[simp] theorem State.closeOk_outLenReg (s : State) : (s.closeOk).outLenReg = s.outLen := rfl
@[simp] theorem State.closeOk_errKind (s : State) : (s.closeOk).errKind = s.errKind := rfl
@[simp] theorem State.closeOk_errPos (s : State) : (s.closeOk).errPos = s.errPos := rfl
@[simp] theorem State.closeOk_errExp (s : State) : (s.closeOk).errExp = s.errExp := rfl
@[simp] theorem State.closeOk_errObs (s : State) : (s.closeOk).errObs = s.errObs := rfl
@[simp] theorem State.closeOk_ip (s : State) : (s.closeOk).ip = s.ip := rfl
@[simp] theorem State.closeOk_outLen (s : State) : (s.closeOk).outLen = s.outLen := rfl
@[simp] theorem State.closeOk_cur (s : State) : (s.closeOk).cur = s.cur := rfl
@[simp] theorem State.closeOk_cnt (s : State) : (s.closeOk).cnt = s.cnt := rfl
@[simp] theorem State.closeOk_val (s : State) : (s.closeOk).val = s.val := rfl
@[simp] theorem State.closeOk_rem (s : State) : (s.closeOk).rem = s.rem := rfl
@[simp] theorem State.closeOk_cand (s : State) : (s.closeOk).cand = s.cand := rfl
@[simp] theorem State.closeOk_k (s : State) : (s.closeOk).k = s.k := rfl
@[simp] theorem State.closeOk_maxlen (s : State) : (s.closeOk).maxlen = s.maxlen := rfl
@[simp] theorem State.closeOk_bestOff (s : State) : (s.closeOk).bestOff = s.bestOff := rfl
@[simp] theorem State.closeOk_bestLen (s : State) : (s.closeOk).bestLen = s.bestLen := rfl
@[simp] theorem State.closeOk_tag (s : State) : (s.closeOk).tag = s.tag := rfl
@[simp] theorem State.closeOk_off (s : State) : (s.closeOk).off = s.off := rfl
@[simp] theorem State.closeOk_len (s : State) : (s.closeOk).len = s.len := rfl
@[simp] theorem State.closeOk_inBuf (s : State) : (s.closeOk).inBuf = s.inBuf := rfl
@[simp] theorem State.closeOk_outBuf (s : State) : (s.closeOk).outBuf = s.outBuf := rfl
@[simp] theorem State.closeOk_hostQ (s : State) : (s.closeOk).hostQ = s.hostQ := rfl
@[simp] theorem State.closeOk_runs (s : State) : (s.closeOk).runs = s.runs := rfl
@[simp] theorem State.closeOk_outEra (s : State) : (s.closeOk).outEra = s.outEra := rfl

@[simp] theorem State.pushOut_cfg (v : Byte) (s : State) : (s.pushOut v).cfg = s.cfg := rfl
@[simp] theorem State.pushOut_cmd (v : Byte) (s : State) : (s.pushOut v).cmd = s.cmd := rfl
@[simp] theorem State.pushOut_status (v : Byte) (s : State) : (s.pushOut v).status = s.status := rfl
@[simp] theorem State.pushOut_inLen (v : Byte) (s : State) : (s.pushOut v).inLen = s.inLen := rfl
@[simp] theorem State.pushOut_outLenReg (v : Byte) (s : State) : (s.pushOut v).outLenReg = s.outLenReg := rfl
@[simp] theorem State.pushOut_errKind (v : Byte) (s : State) : (s.pushOut v).errKind = s.errKind := rfl
@[simp] theorem State.pushOut_errPos (v : Byte) (s : State) : (s.pushOut v).errPos = s.errPos := rfl
@[simp] theorem State.pushOut_errExp (v : Byte) (s : State) : (s.pushOut v).errExp = s.errExp := rfl
@[simp] theorem State.pushOut_errObs (v : Byte) (s : State) : (s.pushOut v).errObs = s.errObs := rfl
@[simp] theorem State.pushOut_ip (v : Byte) (s : State) : (s.pushOut v).ip = s.ip := rfl
@[simp] theorem State.pushOut_outLen (v : Byte) (s : State) : (s.pushOut v).outLen = s.outLen + 1 := rfl
@[simp] theorem State.pushOut_cur (v : Byte) (s : State) : (s.pushOut v).cur = s.cur := rfl
@[simp] theorem State.pushOut_cnt (v : Byte) (s : State) : (s.pushOut v).cnt = s.cnt := rfl
@[simp] theorem State.pushOut_val (v : Byte) (s : State) : (s.pushOut v).val = s.val := rfl
@[simp] theorem State.pushOut_rem (v : Byte) (s : State) : (s.pushOut v).rem = s.rem := rfl
@[simp] theorem State.pushOut_cand (v : Byte) (s : State) : (s.pushOut v).cand = s.cand := rfl
@[simp] theorem State.pushOut_k (v : Byte) (s : State) : (s.pushOut v).k = s.k := rfl
@[simp] theorem State.pushOut_maxlen (v : Byte) (s : State) : (s.pushOut v).maxlen = s.maxlen := rfl
@[simp] theorem State.pushOut_bestOff (v : Byte) (s : State) : (s.pushOut v).bestOff = s.bestOff := rfl
@[simp] theorem State.pushOut_bestLen (v : Byte) (s : State) : (s.pushOut v).bestLen = s.bestLen := rfl
@[simp] theorem State.pushOut_tag (v : Byte) (s : State) : (s.pushOut v).tag = s.tag := rfl
@[simp] theorem State.pushOut_off (v : Byte) (s : State) : (s.pushOut v).off = s.off := rfl
@[simp] theorem State.pushOut_len (v : Byte) (s : State) : (s.pushOut v).len = s.len := rfl
@[simp] theorem State.pushOut_inBuf (v : Byte) (s : State) : (s.pushOut v).inBuf = s.inBuf := rfl
@[simp] theorem State.pushOut_outBuf (v : Byte) (s : State) : (s.pushOut v).outBuf = Memory.write s.outBuf s.outLen v := rfl
@[simp] theorem State.pushOut_hostQ (v : Byte) (s : State) : (s.pushOut v).hostQ = s.hostQ := rfl
@[simp] theorem State.pushOut_runs (v : Byte) (s : State) : (s.pushOut v).runs = s.runs := rfl
@[simp] theorem State.pushOut_outEra (v : Byte) (s : State) : (s.pushOut v).outEra = s.outEra := rfl

@[simp] theorem State.startCommand_cfg (code : Byte) (s : State) : (s.startCommand code).cfg = s.cfg := rfl
@[simp] theorem State.startCommand_cmd (code : Byte) (s : State) : (s.startCommand code).cmd = code := rfl
@[simp] theorem State.startCommand_status (code : Byte) (s : State) : (s.startCommand code).status = statusStarted := rfl
@[simp] theorem State.startCommand_inLen (code : Byte) (s : State) : (s.startCommand code).inLen = s.inLen := rfl
@[simp] theorem State.startCommand_outLenReg (code : Byte) (s : State) : (s.startCommand code).outLenReg = Config.busyOutLen (s.runs + 1) 0 := rfl
@[simp] theorem State.startCommand_errKind (code : Byte) (s : State) : (s.startCommand code).errKind = 0 := rfl
@[simp] theorem State.startCommand_errPos (code : Byte) (s : State) : (s.startCommand code).errPos = 0 := rfl
@[simp] theorem State.startCommand_errExp (code : Byte) (s : State) : (s.startCommand code).errExp = 0 := rfl
@[simp] theorem State.startCommand_errObs (code : Byte) (s : State) : (s.startCommand code).errObs = 0 := rfl
@[simp] theorem State.startCommand_ip (code : Byte) (s : State) : (s.startCommand code).ip = 0 := rfl
@[simp] theorem State.startCommand_outLen (code : Byte) (s : State) : (s.startCommand code).outLen = 0 := rfl
@[simp] theorem State.startCommand_cur (code : Byte) (s : State) : (s.startCommand code).cur = s.cur := rfl
@[simp] theorem State.startCommand_cnt (code : Byte) (s : State) : (s.startCommand code).cnt = s.cnt := rfl
@[simp] theorem State.startCommand_val (code : Byte) (s : State) : (s.startCommand code).val = s.val := rfl
@[simp] theorem State.startCommand_rem (code : Byte) (s : State) : (s.startCommand code).rem = s.rem := rfl
@[simp] theorem State.startCommand_cand (code : Byte) (s : State) : (s.startCommand code).cand = s.cand := rfl
@[simp] theorem State.startCommand_k (code : Byte) (s : State) : (s.startCommand code).k = s.k := rfl
@[simp] theorem State.startCommand_maxlen (code : Byte) (s : State) : (s.startCommand code).maxlen = s.maxlen := rfl
@[simp] theorem State.startCommand_bestOff (code : Byte) (s : State) : (s.startCommand code).bestOff = s.bestOff := rfl
@[simp] theorem State.startCommand_bestLen (code : Byte) (s : State) : (s.startCommand code).bestLen = s.bestLen := rfl
@[simp] theorem State.startCommand_tag (code : Byte) (s : State) : (s.startCommand code).tag = s.tag := rfl
@[simp] theorem State.startCommand_off (code : Byte) (s : State) : (s.startCommand code).off = s.off := rfl
@[simp] theorem State.startCommand_len (code : Byte) (s : State) : (s.startCommand code).len = s.len := rfl
@[simp] theorem State.startCommand_inBuf (code : Byte) (s : State) : (s.startCommand code).inBuf = s.inBuf := rfl
@[simp] theorem State.startCommand_outBuf (code : Byte) (s : State) : (s.startCommand code).outBuf = s.outBuf := rfl
@[simp] theorem State.startCommand_hostQ (code : Byte) (s : State) : (s.startCommand code).hostQ = s.hostQ := rfl
@[simp] theorem State.startCommand_runs (code : Byte) (s : State) : (s.startCommand code).runs = s.runs + 1 := rfl
@[simp] theorem State.startCommand_outEra (code : Byte) (s : State) : (s.startCommand code).outEra = s.outEra := rfl

/-! The flags after each change of STATUS. -/

@[simp] theorem statusStarted_busy : statusStarted.busy = true := rfl
@[simp] theorem statusStarted_done : statusStarted.done = false := rfl
@[simp] theorem statusStarted_err : statusStarted.err = false := rfl
@[simp] theorem statusStarted_rleOvf : statusStarted.rleOvf = false := rfl

@[simp] theorem statusEndedOk_busy (f : Status) : (statusEndedOk f).busy = false := rfl
@[simp] theorem statusEndedOk_done (f : Status) : (statusEndedOk f).done = true := rfl
@[simp] theorem statusEndedOk_err (f : Status) : (statusEndedOk f).err = f.err := rfl
@[simp] theorem statusEndedOk_rleOvf (f : Status) : (statusEndedOk f).rleOvf = f.rleOvf := rfl

@[simp] theorem statusEndedErr_busy (f : Status) : (statusEndedErr f).busy = false := rfl
@[simp] theorem statusEndedErr_done (f : Status) : (statusEndedErr f).done = true := rfl
@[simp] theorem statusEndedErr_err (f : Status) : (statusEndedErr f).err = true := rfl
@[simp] theorem statusEndedErr_rleOvf (f : Status) : (statusEndedErr f).rleOvf = f.rleOvf := rfl

@[simp] theorem statusAfterRecord_busy (c : RunCount) (f : Status) : (statusAfterRecord c f).busy = f.busy := rfl
@[simp] theorem statusAfterRecord_done (c : RunCount) (f : Status) : (statusAfterRecord c f).done = f.done := rfl
@[simp] theorem statusAfterRecord_err (c : RunCount) (f : Status) : (statusAfterRecord c f).err = f.err := rfl
@[simp] theorem statusAfterRecord_rleOvf (c : RunCount) (f : Status) : (statusAfterRecord c f).rleOvf = (f.rleOvf || decide (Config.fieldMax < c.toNat)) := rfl

end Sys2Proof.Machine
end

