-- ==== Sys2Proof/Laws/Memory.lean ====
section
/-! SUPPORT. The laws of a buffer: a read after a write, and the canonical form kept by every operation. -/

namespace Sys2Proof.Machine

@[simp] theorem Memory.read_nil (p : Nat) : Memory.read [] p = none := rfl

@[simp] theorem Memory.read_write_same (m : Memory) (p : Nat) (v : Byte) :
    Memory.read (Memory.write m p v) p = some v := by
  induction m with
  | nil => simp [Memory.write, Memory.read]
  | cons c rest ih =>
    obtain ⟨a, w⟩ := c
    unfold Memory.write
    split
    · simp [Memory.read]
    · split
      · simp [Memory.read]
      · rename_i _ h
        simpa [Memory.read, Ne.symm h] using ih

theorem Memory.read_write_other (m : Memory) {p q : Nat} (h : q ≠ p) (v : Byte) :
    Memory.read (Memory.write m p v) q = Memory.read m q := by
  induction m with
  | nil => simp [Memory.write, Memory.read, Ne.symm h]
  | cons c rest ih =>
    obtain ⟨a, w⟩ := c
    unfold Memory.write
    split
    · simp [Memory.read, Ne.symm h]
    · split
      · rename_i _ hpa
        subst hpa
        simp [Memory.read, Ne.symm h]
      · simp only [Memory.read, ih]

theorem Memory.read_write (m : Memory) (p q : Nat) (v : Byte) :
    Memory.read (Memory.write m p v) q = if q = p then some v else Memory.read m q := by
  by_cases h : q = p
  · subst h; simp
  · simp [Memory.read_write_other m h, h]

/-- In canonical form means positions strictly rising. -/
theorem Memory.wf_iff (m : Memory) : Memory.wf m = true ↔ m.Pairwise fun a b => a.1 < b.1 := by
  induction m with
  | nil => simp [Memory.wf]
  | cons a rest ih =>
    cases rest with
    | nil => simp [Memory.wf]
    | cons b t =>
      simp only [Memory.wf, Bool.and_eq_true, decide_eq_true_eq, ih, List.pairwise_cons (a := a)]
      constructor
      · rintro ⟨hab, h⟩
        refine ⟨fun c hc => ?_, h⟩
        rcases List.mem_cons.1 hc with rfl | hc
        · exact hab
        · exact hab.trans ((List.pairwise_cons.1 h).1 c hc)
      · exact fun ⟨h1, h2⟩ => ⟨h1 b (by simp), h2⟩

/-- Every position of a written buffer is the written one or was listed before. -/
theorem Memory.mem_write {m : Memory} {p : Nat} {v : Byte} {c : Host.Cell} (h : c ∈ Memory.write m p v) :
    c = (p, v) ∨ c ∈ m := by
  induction m with
  | nil => simpa [Memory.write] using h
  | cons d rest ih =>
    obtain ⟨a, w⟩ := d
    unfold Memory.write at h
    split at h
    · simpa using h
    · split at h
      · rcases List.mem_cons.1 h with h | h
        · exact .inl h
        · exact .inr (List.mem_cons_of_mem _ h)
      · rcases List.mem_cons.1 h with h | h
        · exact .inr (h ▸ List.mem_cons_self)
        · exact (ih h).imp id (List.mem_cons_of_mem _)

theorem Memory.write_wf {m : Memory} (h : Memory.wf m = true) (p : Nat) (v : Byte) :
    Memory.wf (Memory.write m p v) = true := by
  rw [Memory.wf_iff] at h ⊢
  induction m with
  | nil => simp [Memory.write]
  | cons d rest ih =>
    obtain ⟨a, w⟩ := d
    obtain ⟨hfirst, hrest⟩ := List.pairwise_cons.1 h
    unfold Memory.write
    split
    · rename_i hpa
      refine List.pairwise_cons.2 ⟨fun c hc => ?_, h⟩
      rcases List.mem_cons.1 hc with rfl | hc
      · exact hpa
      · exact Nat.lt_trans hpa (hfirst c hc)
    · split
      · rename_i _ hpa
        subst hpa
        exact List.pairwise_cons.2 ⟨hfirst, hrest⟩
      · rename_i hlt hne
        refine List.pairwise_cons.2 ⟨fun c hc => ?_, ih hrest⟩
        rcases Memory.mem_write hc with rfl | hc
        · show a < p
          omega
        · exact hfirst c hc

theorem Memory.writeAll_wf {m : Memory} (h : Memory.wf m = true) (p : Nat) (vs : List Byte) :
    Memory.wf (Memory.writeAll m p vs) = true := by
  induction vs generalizing m p with
  | nil => exact h
  | cons v vs ih => exact ih (Memory.write_wf h p v) (p + 1)

@[simp] theorem Memory.writeAll_nil (m : Memory) (p : Nat) : Memory.writeAll m p [] = m := rfl

@[simp] theorem Memory.writeAll_cons (m : Memory) (p : Nat) (v : Byte) (vs : List Byte) :
    Memory.writeAll m p (v :: vs) = Memory.writeAll (Memory.write m p v) (p + 1) vs := rfl

theorem Memory.writeAll_append (m : Memory) (p : Nat) (us vs : List Byte) :
    Memory.writeAll m p (us ++ vs) = Memory.writeAll (Memory.writeAll m p us) (p + us.length) vs := by
  induction us generalizing m p with
  | nil => rfl
  | cons u us ih =>
    simp only [List.cons_append, Memory.writeAll_cons, ih, List.length_cons]
    congr 1
    omega

/-- A read after a write of several bytes: the byte written there, else what was there. -/
theorem Memory.read_writeAll (m : Memory) (p : Nat) (vs : List Byte) (q : Nat) :
    Memory.read (Memory.writeAll m p vs) q =
      if p ≤ q ∧ q < p + vs.length then vs[q - p]? else Memory.read m q := by
  induction vs generalizing m p with
  | nil =>
    have h : ¬(p ≤ q ∧ q < p + ([] : List Byte).length) := by simp
    rw [if_neg h]; rfl
  | cons v vs ih =>
    rw [Memory.writeAll_cons, ih, Memory.read_write]
    by_cases h0 : q = p
    · subst h0
      simp
    · by_cases h1 : p + 1 ≤ q ∧ q < p + 1 + vs.length
      · have h2 : p ≤ q ∧ q < p + (v :: vs).length := by simp; omega
        rw [if_pos h1, if_pos h2, show q - p = (q - (p + 1)) + 1 by omega, List.getElem?_cons_succ]
      · have h2 : ¬(p ≤ q ∧ q < p + (v :: vs).length) := by simp; omega
        rw [if_neg h1, if_neg h2, if_neg h0]

end Sys2Proof.Machine
end

