-- ==== Sys2Proof/Laws/Ops.lean ====
section
/-! SUPPORT. What each shared operation can do, said once: reads, `emit` and its repetitions, the two shapes of a
meaning. -/

namespace Sys2Proof.Machine

/-! Flow. -/

@[simp] theorem Flow.andThen_go (s : State) (f : State → Flow) : (Flow.go s).andThen f = f s := rfl
@[simp] theorem Flow.andThen_ended (s : State) (f : State → Flow) : (Flow.ended s).andThen f = .ended s := rfl
@[simp] theorem Flow.andThen_stop (e : Fault) (f : State → Flow) : (Flow.stop e).andThen f = .stop e := rfl
@[simp] theorem Flow.outcome_go (s : State) : (Flow.go s).outcome = .next s := rfl
@[simp] theorem Flow.outcome_ended (s : State) : (Flow.ended s).outcome = .next s := rfl
@[simp] theorem Flow.outcome_stop (e : Fault) : (Flow.stop e).outcome = .fault e := rfl

theorem Flow.andThen_assoc (x : Flow) (f g : State → Flow) :
    (x.andThen f).andThen g = x.andThen fun s => (f s).andThen g := by
  cases x <;> rfl

/-- A step answers a next state only where the flow goes on or has ended in it. -/
theorem Flow.outcome_next {x : Flow} {t : State} (h : x.outcome = .next t) : x = .go t ∨ x = .ended t := by
  cases x <;> simp_all

/-! Operands. -/

theorem trunc8_toNat (c : RunCount) : (trunc8 c).toNat = c.toNat % 256 := by
  simp [trunc8, BitVec.extractLsb'_toNat]

theorem fieldByte_toNat {v : Nat} (h : v ≤ 255) : (fieldByte v).toNat = v := by
  simp [fieldByte]; omega

theorem exceedsField_eq_true (v : Nat) : exceedsField v = true ↔ 255 < v := decide_eq_true_iff

theorem exceedsField_eq_false (v : Nat) : exceedsField v = false ↔ v ≤ 255 := by
  rw [← Bool.not_eq_true, exceedsField_eq_true]; omega

/-! Reads. -/

theorem readIn_eq {p : Nat} {s : State} (h : p < s.inLen) : readIn p s = some (s.inByte p) := if_pos h
theorem readIn_eq_none {p : Nat} {s : State} (h : s.inLen ≤ p) : readIn p s = none := if_neg (by omega)
theorem readOut_eq {q : Nat} {s : State} (h : q < s.outLen) : readOut q s = some (s.outByte q) := if_pos h

/-- IN reads alike in two states that agree on the buffer and its length. -/
theorem readIn_congr {s t : State} (h1 : t.inBuf = s.inBuf) (h2 : t.inLen = s.inLen) (p : Nat) :
    readIn p t = readIn p s := by
  simp only [readIn, State.inByte, h1, h2]

/-! Appending. -/

/-- The state after several bytes were appended. -/
def State.appended (vs : List Byte) (s : State) : State :=
  { s with outBuf := Memory.writeAll s.outBuf s.outLen vs, outLen := s.outLen + vs.length }

@[simp] theorem State.appended_nil (s : State) : s.appended [] = s := rfl

theorem State.appended_cons (v : Byte) (vs : List Byte) (s : State) :
    s.appended (v :: vs) = (s.pushOut v).appended vs := by
  simp only [State.appended, State.pushOut, Memory.writeAll_cons, List.length_cons]
  congr 1
  omega

theorem State.appended_append (us vs : List Byte) (s : State) :
    s.appended (us ++ vs) = (s.appended us).appended vs := by
  simp only [State.appended, Memory.writeAll_append, List.length_append]
  congr 1
  omega

/-- OUT after an append: the bytes appended, and everything else as it was. -/
theorem State.outByte_appended (vs : List Byte) (s : State) (q : Nat) :
    (s.appended vs).outByte q =
      if h : s.outLen ≤ q ∧ q < s.outLen + vs.length then vs[q - s.outLen]'(by omega) else s.outByte q := by
  simp only [State.outByte, State.appended, Memory.read_writeAll]
  split
  · rename_i h
    rw [List.getElem?_eq_getElem (by omega)]
    rfl
  · rfl

/-- OUT after one append. -/
theorem State.outByte_pushOut (v : Byte) (s : State) (q : Nat) :
    (s.pushOut v).outByte q = if q = s.outLen then v else s.outByte q := by
  simp only [State.outByte, State.pushOut, Memory.read_write]
  split <;> rfl

theorem State.hasRoom_zero_of {s : State} {n : Nat} (h : s.hasRoom n) : s.hasRoom 0 := fun cap hc => by
  have := h cap hc; omega

theorem State.hasRoom_mono {s : State} {m n : Nat} (h : s.hasRoom n) (hmn : m ≤ n) : s.hasRoom m := fun cap hc => by
  have := h cap hc; omega

theorem State.hasRoom_pushOut {s : State} {n : Nat} (v : Byte) (h : s.hasRoom (n + 1)) : (s.pushOut v).hasRoom n :=
  fun cap hc => by
    have h1 := h cap hc
    have h2 : (s.pushOut v).outLen = s.outLen + 1 := rfl
    omega

/-- `emit` appends where there is room (R52). -/
theorem emit_room {s : State} (v : Byte) (h : s.hasRoom 1) : emit v s = .go (s.pushOut v) := by
  unfold emit
  cases hc : s.cfg.outCap with
  | none => rfl
  | some cap =>
    have := h cap (by simp [hc])
    simp only []
    rw [if_neg (by omega)]

/-- `emit` at a full buffer raises CapacityExceeded (R197). -/
theorem emit_full {s : State} (v : Byte) {cap : Nat} (hc : s.cfg.outCap = some cap) (h : cap ≤ s.outLen) :
    emit v s = .ended (s.raiseError .capacityExceeded s.ip cap (cap + 1)) := by
  simp only [emit, hc, if_pos h, raise]

/-- Everything `emit` can do. -/
theorem emit_cases (v : Byte) (s : State) :
    (s.hasRoom 1 ∧ emit v s = .go (s.pushOut v)) ∨
    (∃ cap, s.cfg.outCap = some cap ∧ cap ≤ s.outLen ∧
      emit v s = .ended (s.raiseError .capacityExceeded s.ip cap (cap + 1))) := by
  cases hc : s.cfg.outCap with
  | none => exact .inl ⟨by simp [State.hasRoom, hc], by simp [emit, hc]⟩
  | some cap =>
    by_cases h : cap ≤ s.outLen
    · exact .inr ⟨cap, rfl, h, emit_full v hc h⟩
    · have hr : s.hasRoom 1 := fun c hcc => by
        have : c = cap := by simpa [hc] using hcc.symm
        omega
      exact .inl ⟨hr, emit_room v hr⟩

/-- Several appends where there is room. -/
theorem emitAll_room {s : State} (vs : List Byte) (h : s.hasRoom vs.length) : emitAll vs s = .go (s.appended vs) := by
  induction vs generalizing s with
  | nil => rfl
  | cons v vs ih =>
    simp only [List.length_cons] at h
    rw [emitAll, emit_room v (State.hasRoom_mono h (by omega)), Flow.andThen_go, ih (State.hasRoom_pushOut v h),
      State.appended_cons]

/-- Several appends that do not fit: as many as fit are appended, then CapacityExceeded (R197, R203). -/
theorem emitAll_full {s : State} (vs : List Byte) {cap : Nat} (hc : s.cfg.outCap = some cap) (h0 : s.outLen ≤ cap)
    (h : cap < s.outLen + vs.length) :
    emitAll vs s =
      .ended ((s.appended (vs.take (cap - s.outLen))).raiseError .capacityExceeded s.ip cap (cap + 1)) := by
  induction vs generalizing s with
  | nil => simp at h; omega
  | cons v vs ih =>
    simp only [List.length_cons] at h
    by_cases hf : cap ≤ s.outLen
    · have h1 : cap - s.outLen = 0 := by omega
      rw [emitAll, emit_full v hc hf, Flow.andThen_ended, h1, List.take_zero, State.appended_nil]
    · have hr : s.hasRoom 1 := fun c hcc => by
        have : c = cap := by simpa [hc] using hcc.symm
        omega
      have h1 : cap - s.outLen = (cap - (s.pushOut v).outLen) + 1 := by
        rw [State.pushOut_outLen]; omega
      rw [emitAll, emit_room v hr, Flow.andThen_go,
        ih (s := s.pushOut v) hc (by rw [State.pushOut_outLen]; omega) (by rw [State.pushOut_outLen]; omega), h1,
        List.take_succ_cons, State.appended_cons, State.pushOut_ip]

/-- Everything several appends can do. -/
theorem emitAll_cases (vs : List Byte) (s : State) :
    (s.hasRoom vs.length ∨ vs = []) ∧ emitAll vs s = .go (s.appended vs) ∨
    ∃ us cap, s.cfg.outCap = some cap ∧ us.length ≤ vs.length ∧
      emitAll vs s = .ended ((s.appended us).raiseError .capacityExceeded s.ip cap (cap + 1)) := by
  induction vs generalizing s with
  | nil => exact .inl ⟨.inr rfl, rfl⟩
  | cons v vs ih =>
    rcases emit_cases v s with ⟨hr, he⟩ | ⟨cap, hc, _, he⟩
    · rcases ih (s.pushOut v) with ⟨h1, h2⟩ | ⟨us, cap, hc, hl, h2⟩
      · refine .inl ⟨.inl fun cap hcap => ?_, ?_⟩
        · rcases h1 with h1 | h1
          · have := h1 cap hcap
            rw [State.pushOut_outLen] at this
            simp only [List.length_cons]
            omega
          · subst h1; exact hr cap hcap
        · rw [emitAll, he, Flow.andThen_go, h2, State.appended_cons]
      · refine .inr ⟨v :: us, cap, hc, by simpa using hl, ?_⟩
        rw [emitAll, he, Flow.andThen_go, h2, State.appended_cons, State.pushOut_ip]
    · exact .inr ⟨[], cap, hc, by simp, by rw [emitAll, he]; rfl⟩

/-! The two shapes of a meaning. -/

/-- A command step answers a next state only by starting the command or by one iteration of it. -/
theorem commandStep_next {code : Byte} {enter iterate : State → Flow} {s t : State}
    (h : commandStep code enter iterate s = .next t) :
    (s.running code ∧ (iterate s).outcome = .next t) ∨
    (s.status.busy = false ∧ inOverCapacity s.inLen s.cfg = false ∧
      (enter (s.startCommand code)).outcome = .next t) := by
  unfold commandStep at h
  split at h
  · rename_i hb
    split at h
    · rename_i hc
      exact .inl ⟨⟨hb, hc⟩, h⟩
    · cases h
  · rename_i hb
    split at h
    · cases h
    · rename_i hc
      exact .inr ⟨by simpa using hb, by simpa using hc, h⟩

/-- A record step answers a next state only while its decoder runs. -/
theorem recordStep_next {code : Byte} {record : State → Flow} {s t : State}
    (h : recordStep code record s = .next t) : s.running code ∧ (record s).outcome = .next t := by
  unfold recordStep at h
  split at h
  · rename_i hr
    exact ⟨hr, h⟩
  · cases h

theorem commandStep_running {code : Byte} {enter iterate : State → Flow} {s : State} (h : s.running code) :
    commandStep code enter iterate s = (iterate s).outcome := by
  simp only [commandStep, h.1, h.2, if_true]

theorem commandStep_idle {code : Byte} {enter iterate : State → Flow} {s : State} (hb : s.status.busy = false)
    (hc : inOverCapacity s.inLen s.cfg = false) :
    commandStep code enter iterate s = (enter (s.startCommand code)).outcome := by
  simp [commandStep, hb, hc]

theorem recordStep_running {code : Byte} {record : State → Flow} {s : State} (h : s.running code) :
    recordStep code record s = (record s).outcome := if_pos h

/-- A value is within a capacity exactly where the test says so. -/
theorem inOverCapacity_eq_false (n : Nat) (c : Config) :
    inOverCapacity n c = false ↔ ∀ cap ∈ c.inCap, n ≤ cap := by
  unfold inOverCapacity
  cases c.inCap <;> simp

theorem insideCapacity_eq_true (p : Nat) (cap : Option Nat) :
    insideCapacity p cap = true ↔ ∀ c ∈ cap, p < c := by
  unfold insideCapacity
  cases cap <;> simp

end Sys2Proof.Machine
end

