-- ==== Sys2Proof/Laws/Records.lean ====
section
/-! SUPPORT. What the loops of the operations can do, said once: closing a run, the expansion of a REP record, the span
copy, the match-finder's scan. -/

namespace Sys2Proof.Machine

/-- Everything `close_run()` can do (R107, R108): the record and the overflow flag, or CapacityExceeded. -/
theorem closeRun_cases (s : State) :
    (s.hasRoom 2 ∧ closeRun s = .go { s.appended [s.cur, trunc8 s.cnt] with
      status := statusAfterRecord s.cnt s.status }) ∨
    (∃ us cap, s.cfg.outCap = some cap ∧ us.length ≤ 2 ∧
      closeRun s = .ended ((s.appended us).raiseError .capacityExceeded s.ip cap (cap + 1))) := by
  rcases emitAll_cases [s.cur, trunc8 s.cnt] s with ⟨h1, h2⟩ | ⟨us, cap, hc, hl, h2⟩
  · exact .inl ⟨by simpa using h1, by rw [closeRun, h2]; rfl⟩
  · exact .inr ⟨us, cap, hc, by simpa using hl, by rw [closeRun, h2]; rfl⟩

/-- `close_run()` where the record fits. -/
theorem closeRun_room {s : State} (h : s.hasRoom 2) :
    closeRun s = .go { s.appended [s.cur, trunc8 s.cnt] with status := statusAfterRecord s.cnt s.status } := by
  rw [closeRun, emitAll_room _ (by simpa using h)]; rfl

/-- The state after `n` bytes of a REP record. -/
def repAfter (n : Nat) (s : State) : State :=
  { s.appended (List.replicate n s.val) with rem := s.rem - BitVec.ofNat 8 n }

theorem repAfter_zero (s : State) : repAfter 0 s = s := by simp [repAfter]

theorem repAfter_succ (n : Nat) (s : State) :
    repAfter (n + 1) s = repAfter n { s.pushOut s.val with rem := s.rem - 1#8 } := by
  have h : s.rem - BitVec.ofNat 8 (n + 1) = s.rem - 1#8 - BitVec.ofNat 8 n := by
    rw [BitVec.sub_sub, BitVec.ofNat_add, BitVec.add_comm]
  simp only [repAfter, List.replicate_succ, State.appended_cons, h]
  rfl

/-- Everything the expansion of a REP record can do (R117): all copies, or as many as fit and CapacityExceeded. -/
theorem repLoop_cases (n : Nat) (s : State) :
    ((s.hasRoom n ∨ n = 0) ∧ repLoop n s = .go (repAfter n s)) ∨
    (∃ m cap, s.cfg.outCap = some cap ∧ m < n ∧ cap < s.outLen + n ∧
      repLoop n s = .ended ((repAfter m s).raiseError .capacityExceeded s.ip cap (cap + 1))) := by
  induction n generalizing s with
  | zero => exact .inl ⟨.inr rfl, by rw [repAfter_zero]; rfl⟩
  | succ n ih =>
    rcases emit_cases s.val s with ⟨hr, he⟩ | ⟨cap, hc, hl, he⟩
    · rcases ih { s.pushOut s.val with rem := s.rem - 1#8 } with ⟨h1, h2⟩ | ⟨m, cap, hc, hm, hcap, h2⟩
      · refine .inl ⟨.inl fun cap hcap => ?_, ?_⟩
        · rcases h1 with h1 | rfl
          · have : s.outLen + 1 + n ≤ cap := h1 cap hcap
            omega
          · exact hr cap hcap
        · rw [repLoop, he, Flow.andThen_go, State.pushOut_rem, h2, repAfter_succ]
      · refine .inr ⟨m + 1, cap, hc, by omega, ?_, ?_⟩
        · have : cap < s.outLen + 1 + n := hcap
          omega
        · rw [repLoop, he, Flow.andThen_go, State.pushOut_rem, h2, repAfter_succ]; rfl
    · exact .inr ⟨0, cap, hc, by omega, by omega, by rw [repLoop, he, repAfter_zero]; rfl⟩

/-- What a span copy has done (R163): `n` bytes appended, each the byte `off` places before it in the output as it is
then, and nothing else but `len` counted down. -/
structure Copied (n : Nat) (s t : State) : Prop where
  frame : t = { s with outBuf := t.outBuf, outLen := s.outLen + n, len := s.len - BitVec.ofNat 8 n }
  live : ∀ j < n, t.outByte (s.outLen + j) = t.outByte (s.outLen + j - s.off.toNat)
  outside : ∀ q, q < s.outLen ∨ s.outLen + n ≤ q → t.outByte q = s.outByte q
  listed : ∀ q, q < s.outLen + n → s.outLen ≤ q ∨ Memory.read s.outBuf q ≠ none → Memory.read t.outBuf q ≠ none
  wf : Memory.wf s.outBuf = true → Memory.wf t.outBuf = true

theorem Copied.refl (s : State) : Copied 0 s s where
  frame := by simp
  live := fun j hj => absurd hj (by omega)
  outside := fun _ _ => rfl
  listed := fun q hq h => h.elim (fun h => absurd hq (by omega)) id
  wf := id

/-- One more byte in front of a span copy. -/
theorem Copied.step {n : Nat} {s t : State} (h1 : 1 ≤ s.off.toNat) (h2 : s.off.toNat ≤ s.outLen)
    (h : Copied n { s.pushOut (s.outByte (s.outLen - s.off.toNat)) with len := s.len - 1#8 } t) :
    Copied (n + 1) s t := by
  obtain ⟨hf, hl, ho, hs, hw⟩ := h
  have hlen : (s.pushOut (s.outByte (s.outLen - s.off.toNat))).outLen = s.outLen + 1 := rfl
  simp only [hlen, State.pushOut_off] at hl
  have hsame : ∀ q, q < s.outLen + 1 ∨ s.outLen + 1 + n ≤ q → t.outByte q =
      if q = s.outLen then s.outByte (s.outLen - s.off.toNat) else s.outByte q := fun q hq => by
    rw [ho q hq, ← State.outByte_pushOut]; rfl
  refine ⟨?_, ?_, ?_, ?_, ?_⟩
  · have hn : s.len - BitVec.ofNat 8 (n + 1) = s.len - 1#8 - BitVec.ofNat 8 n := by
      rw [BitVec.sub_sub, BitVec.ofNat_add, BitVec.add_comm]
    rw [hn, show s.outLen + (n + 1) = s.outLen + 1 + n by omega]
    conv => lhs; rw [hf]
    simp only [State.pushOut]
  · intro j hj
    cases j with
    | zero =>
      rw [Nat.add_zero, hsame s.outLen (.inl (by omega)), if_pos rfl, hsame _ (.inl (by omega)), if_neg (by omega)]
    | succ j =>
      have := hl j (by omega)
      rw [show s.outLen + 1 + j = s.outLen + (j + 1) by omega] at this
      exact this
  · intro q hq
    rw [hsame q (by omega), if_neg (by omega)]
  · intro q hq h
    refine hs q (by show q < s.outLen + 1 + n; omega) ?_
    rcases h with h | h
    · by_cases hq' : q = s.outLen
      · subst hq'
        right
        simp [State.pushOut]
      · left
        show s.outLen + 1 ≤ q
        omega
    · right
      simp only [State.pushOut, Memory.read_write]
      split
      · simp
      · exact h
  · exact fun h => hw (Memory.write_wf h _ _)

/-- Everything the span copy of a valid offset can do (R163): the whole copy, or part of it and CapacityExceeded. It never
reads outside the output. -/
theorem copySpan_cases (n : Nat) (s : State) (h1 : 1 ≤ s.off.toNat) (h2 : s.off.toNat ≤ s.outLen) :
    (∃ t, (s.hasRoom n ∨ n = 0) ∧ copySpan n s = .go t ∧ Copied n s t) ∨
    (∃ m cap u, s.cfg.outCap = some cap ∧ m < n ∧ cap < s.outLen + n ∧ Copied m s u ∧
      copySpan n s = .ended (u.raiseError .capacityExceeded s.ip cap (cap + 1))) := by
  induction n generalizing s with
  | zero => exact .inl ⟨s, .inr rfl, rfl, Copied.refl s⟩
  | succ n ih =>
    have hread : readOut (s.outLen - fieldValue s.off) s = some (s.outByte (s.outLen - s.off.toNat)) :=
      readOut_eq (by simp only [fieldValue]; omega)
    rcases emit_cases (s.outByte (s.outLen - s.off.toNat)) s with ⟨hr, he⟩ | ⟨cap, hc, hl, he⟩
    · rcases ih { s.pushOut (s.outByte (s.outLen - s.off.toNat)) with len := s.len - 1#8 } h1
        (Nat.le_succ_of_le h2) with ⟨t, hroom, hgo, hcop⟩ | ⟨m, cap, u, hc, hm, hcap, hcop, hend⟩
      · refine .inl ⟨t, .inl fun cap hcap => ?_, ?_, Copied.step h1 h2 hcop⟩
        · rcases hroom with hroom | rfl
          · have : s.outLen + 1 + n ≤ cap := hroom cap hcap
            omega
          · exact hr cap hcap
        · simp only [copySpan, hread, he, Flow.andThen_go, State.pushOut_len, hgo]
      · refine .inr ⟨m + 1, cap, u, hc, by omega, ?_, Copied.step h1 h2 hcop, ?_⟩
        · have : cap < s.outLen + 1 + n := hcap
          omega
        · simp only [copySpan, hread, he, Flow.andThen_go, State.pushOut_len, hend]
          rfl
    · exact .inr ⟨0, cap, s, hc, by omega, by omega, Copied.refl s, by simp only [copySpan, hread, he, Flow.andThen_ended]⟩

/-- What the match-finder has done besides finding: only its own registers are written, and the result is in the bounds of
R134. -/
structure Searched (s t : State) : Prop where
  frame : t = { s with cand := t.cand, k := t.k, maxlen := t.maxlen, bestOff := t.bestOff, bestLen := t.bestLen }
  offBound : t.bestOff ≤ min s.cfg.W s.ip
  lenBound : t.bestLen ≤ min s.cfg.L (s.inLen - s.ip)
  offPos : 1 ≤ t.bestLen → 1 ≤ t.bestOff

/-- The inner loop stays inside IN and below its cap. -/
theorem matchFrom_bounds (s : State) (cand i fuel k : Nat) (h : fuel = 0 ∨ i + k + fuel ≤ s.inLen) :
    ∃ n, matchFrom s cand i fuel k = some n ∧ n ≤ k + fuel := by
  induction fuel generalizing k with
  | zero => exact ⟨k, rfl, by omega⟩
  | succ f ih =>
    have hle : i + k + (f + 1) ≤ s.inLen := by omega
    simp only [matchFrom, readIn_eq (show i - cand + k < s.inLen by omega), readIn_eq (show i + k < s.inLen by omega)]
    split
    · obtain ⟨n, hn, hb⟩ := ih (k + 1) (by omega)
      exact ⟨n, hn, by omega⟩
    · exact ⟨k, rfl, by omega⟩

/-- The outer loop keeps the bounds of the best match. -/
theorem scanCandidates_spec (fuel : Nat) (s : State) (hm : s.maxlen ≤ s.inLen - s.ip) (hc : 1 ≤ s.cand)
    (ho : s.bestOff ≤ s.cand + fuel - 1) (hl : s.bestLen ≤ s.maxlen) (hp : 1 ≤ s.bestLen → 1 ≤ s.bestOff) :
    ∃ t, scanCandidates fuel s = .go t ∧
      t = { s with cand := t.cand, k := t.k, bestOff := t.bestOff, bestLen := t.bestLen } ∧
      t.bestOff ≤ s.cand + fuel - 1 ∧ t.bestLen ≤ s.maxlen ∧ (1 ≤ t.bestLen → 1 ≤ t.bestOff) := by
  induction fuel generalizing s with
  | zero => exact ⟨s, rfl, rfl, ho, hl, hp⟩
  | succ f ih =>
    obtain ⟨n, hn, hb⟩ := matchFrom_bounds s s.cand s.ip s.maxlen 0 (by omega)
    simp only [scanCandidates, hn]
    by_cases hk : s.bestLen < n
    · have hkeep : keepBest { s with k := n } = { s with k := n, bestLen := n, bestOff := s.cand } := by
        simp [keepBest, hk]
      rw [hkeep]
      obtain ⟨t, h1, h2, h3, h4, h5⟩ :=
        ih { s with k := n, bestLen := n, bestOff := s.cand, cand := s.cand + 1 } hm (by simp)
          (show s.cand ≤ s.cand + 1 + f - 1 by omega)
          (by simp; omega) (by simp; omega)
      exact ⟨t, h1, by rw [h2], by simp at h3; omega, h4, h5⟩
    · have hkeep : keepBest { s with k := n } = { s with k := n } := by simp [keepBest, hk]
      rw [hkeep]
      obtain ⟨t, h1, h2, h3, h4, h5⟩ :=
        ih { s with k := n, cand := s.cand + 1 } hm (by simp) (by simp; omega) hl hp
      exact ⟨t, h1, by rw [h2], by simp at h3; omega, h4, h5⟩

/-- Everything `FIND` can do besides the choice of the match: it never stops. -/
theorem find_cases (s : State) : ∃ t, find s = .go t ∧ Searched s t := by
  obtain ⟨t, h1, h2, h3, h4, h5⟩ := scanCandidates_spec (min s.cfg.W s.ip)
    { s with bestOff := 0, bestLen := 0, maxlen := min s.cfg.L (s.inLen - s.ip), cand := 1 }
    (Nat.min_le_right _ _) (Nat.le_refl 1) (Nat.zero_le _) (Nat.zero_le _) (by simp)
  exact ⟨t, h1, ⟨by rw [h2], by simp at h3; omega, h4, h5⟩⟩

end Sys2Proof.Machine
end

