-- ==== Sys2Proof/Laws/Effects.lean ====
section
/-! SUPPORT. What one instruction of a running command can do, said once: it goes on or ends with bytes appended and
working registers written, or it ends in an error (`Effect`). One lemma per operation, and the lemma for `exec`. -/

namespace Sys2Proof.Machine

/-- `t` is `s` with bytes appended to OUT and working registers written: every host-visible register but the overflow flag
is kept. -/
structure Grown (s t : State) : Prop where
  cfg : t.cfg = s.cfg
  cmd : t.cmd = s.cmd
  busy : t.status.busy = s.status.busy
  done : t.status.done = s.status.done
  err : t.status.err = s.status.err
  overflow : s.status.rleOvf = true → t.status.rleOvf = true
  inLen : t.inLen = s.inLen
  outLenReg : t.outLenReg = s.outLenReg
  errKind : t.errKind = s.errKind
  errPos : t.errPos = s.errPos
  errExp : t.errExp = s.errExp
  errObs : t.errObs = s.errObs
  inBuf : t.inBuf = s.inBuf
  hostQ : t.hostQ = s.hostQ
  runs : t.runs = s.runs
  outEra : t.outEra = s.outEra
  outMono : s.outLen ≤ t.outLen
  outside : ∀ q, q < s.outLen ∨ t.outLen ≤ q → t.outByte q = s.outByte q
  listed : ∀ q < t.outLen, s.outLen ≤ q ∨ Memory.read s.outBuf q ≠ none → Memory.read t.outBuf q ≠ none
  wf : Memory.wf s.outBuf = true → Memory.wf t.outBuf = true
  room : ∀ cap ∈ s.cfg.outCap, s.outLen ≤ cap → t.outLen ≤ cap

/-- What an instruction of a running command can do: go on past `ip`, end successfully, or end in an error at `ip`. -/
inductive Effect (s : State) : Flow → Prop where
  | goesOn {t : State} (grown : Grown s t) (ip : s.ip < t.ip) (bound : t.ip ≤ s.inLen ∨ t.ip = s.ip + 2) :
    Effect s (.go t)
  | endsOk {u : State} (grown : Grown s u) (ip : u.ip = s.ip) : Effect s (.ended u.closeOk)
  | endsErr {u : State} (grown : Grown s u) (ip : u.ip = s.ip) (overflow : u.status = s.status) (kind : ErrorKind)
      (exp obs : Nat) : Effect s (.ended (u.raiseError kind s.ip exp obs))

/-- Working registers and the cursor can change without touching what `Grown` speaks of. -/
theorem Grown.refl (s : State) : Grown s s where
  cfg := rfl
  cmd := rfl
  busy := rfl
  done := rfl
  err := rfl
  overflow := id
  inLen := rfl
  outLenReg := rfl
  errKind := rfl
  errPos := rfl
  errExp := rfl
  errObs := rfl
  inBuf := rfl
  hostQ := rfl
  runs := rfl
  outEra := rfl
  outMono := Nat.le_refl _
  outside := fun _ _ => rfl
  listed := fun q hq h => h.elim (fun h => absurd hq (by omega)) id
  wf := id
  room := fun _ _ h => h

/-- Appending bytes where they fit. -/
theorem Grown.appended (vs : List Byte) (s : State)
    (h : ∀ cap ∈ s.cfg.outCap, s.outLen ≤ cap → s.outLen + vs.length ≤ cap) : Grown s (s.appended vs) where
  cfg := rfl
  cmd := rfl
  busy := rfl
  done := rfl
  err := rfl
  overflow := id
  inLen := rfl
  outLenReg := rfl
  errKind := rfl
  errPos := rfl
  errExp := rfl
  errObs := rfl
  inBuf := rfl
  hostQ := rfl
  runs := rfl
  outEra := rfl
  outMono := Nat.le_add_right _ _
  outside := fun q hq => by
    have hl : (s.appended vs).outLen = s.outLen + vs.length := rfl
    rw [State.outByte_appended, dif_neg (by omega)]
  listed := fun q hq h => by
    have hl : (s.appended vs).outLen = s.outLen + vs.length := rfl
    simp only [State.appended, Memory.read_writeAll]
    split
    · rw [List.getElem?_eq_getElem (by omega)]; simp
    · exact h.elim (fun h => absurd h (by omega)) id
  wf := fun hw => Memory.writeAll_wf hw _ _
  room := h

/-- A span copy that fits. -/
theorem Grown.copied {n : Nat} {s t : State} (hc : Copied n s t)
    (h : ∀ cap ∈ s.cfg.outCap, s.outLen ≤ cap → s.outLen + n ≤ cap) : Grown s t := by
  have hl : t.outLen = s.outLen + n := by rw [hc.frame]
  exact
    { cfg := by rw [hc.frame], cmd := by rw [hc.frame], busy := by rw [hc.frame], done := by rw [hc.frame],
      err := by rw [hc.frame], overflow := by rw [hc.frame]; exact id, inLen := by rw [hc.frame],
      outLenReg := by rw [hc.frame], errKind := by rw [hc.frame], errPos := by rw [hc.frame],
      errExp := by rw [hc.frame], errObs := by rw [hc.frame], inBuf := by rw [hc.frame], hostQ := by rw [hc.frame],
      runs := by rw [hc.frame], outEra := by rw [hc.frame], outMono := by omega,
      outside := fun q hq => hc.outside q (by omega), listed := fun q hq => hc.listed q (by omega), wf := hc.wf,
      room := fun cap hcap hle => by rw [hl]; exact h cap hcap hle }

theorem Grown.trans {s t u : State} (h1 : Grown s t) (h2 : Grown t u) : Grown s u where
  cfg := h2.cfg.trans h1.cfg
  cmd := h2.cmd.trans h1.cmd
  busy := h2.busy.trans h1.busy
  done := h2.done.trans h1.done
  err := h2.err.trans h1.err
  overflow := fun h => h2.overflow (h1.overflow h)
  inLen := h2.inLen.trans h1.inLen
  outLenReg := h2.outLenReg.trans h1.outLenReg
  errKind := h2.errKind.trans h1.errKind
  errPos := h2.errPos.trans h1.errPos
  errExp := h2.errExp.trans h1.errExp
  errObs := h2.errObs.trans h1.errObs
  inBuf := h2.inBuf.trans h1.inBuf
  hostQ := h2.hostQ.trans h1.hostQ
  runs := h2.runs.trans h1.runs
  outEra := h2.outEra.trans h1.outEra
  outMono := h1.outMono.trans h2.outMono
  outside := fun q hq => by
    have := h1.outMono
    have := h2.outMono
    rw [h2.outside q (by omega), h1.outside q (by omega)]
  listed := fun q hq h => by
    by_cases hqt : q < t.outLen
    · exact h2.listed q hq (.inr (h1.listed q hqt h))
    · exact h2.listed q hq (.inl (by omega))
  wf := fun h => h2.wf (h1.wf h)
  room := fun cap hcap h => h2.room cap (by rw [h1.cfg]; exact hcap) (h1.room cap hcap h)

/-- A state is grown by what another state was grown by, if the two differ in working registers only. -/
theorem Grown.of_registers {s s' t : State} (h : Grown s' t)
    (e : s' = { s with
      cur := s'.cur, cnt := s'.cnt, val := s'.val, rem := s'.rem, cand := s'.cand, k := s'.k,
      maxlen := s'.maxlen, bestOff := s'.bestOff, bestLen := s'.bestLen, tag := s'.tag, off := s'.off, len := s'.len }) :
    Grown s t := by
  refine Grown.trans ?_ h
  rw [e]
  exact
    { cfg := rfl, cmd := rfl, busy := rfl, done := rfl, err := rfl, overflow := id, inLen := rfl, outLenReg := rfl,
      errKind := rfl, errPos := rfl, errExp := rfl, errObs := rfl, inBuf := rfl, hostQ := rfl, runs := rfl,
      outEra := rfl, outMono := Nat.le_refl _, outside := fun _ _ => rfl,
      listed := fun q hq h => h.elim (fun h => absurd hq (by simp only; omega)) id, wf := id,
      room := fun _ _ h => h }

/-- The cursor and the working registers of `t` do not matter to `Grown s t`. -/
theorem Grown.to_registers {s t t' : State} (h : Grown s t)
    (e : t' = { t with
      ip := t'.ip, cur := t'.cur, cnt := t'.cnt, val := t'.val, rem := t'.rem, cand := t'.cand,
      k := t'.k, maxlen := t'.maxlen, bestOff := t'.bestOff, bestLen := t'.bestLen, tag := t'.tag, off := t'.off,
      len := t'.len }) :
    Grown s t' := by
  refine Grown.trans h ?_
  rw [e]
  exact
    { cfg := rfl, cmd := rfl, busy := rfl, done := rfl, err := rfl, overflow := id, inLen := rfl, outLenReg := rfl,
      errKind := rfl, errPos := rfl, errExp := rfl, errObs := rfl, inBuf := rfl, hostQ := rfl, runs := rfl,
      outEra := rfl, outMono := Nat.le_refl _, outside := fun _ _ => rfl,
      listed := fun q hq h => h.elim (fun h => absurd hq (by simp only; omega)) id, wf := id,
      room := fun _ _ h => h }

/-- The overflow flag may rise without touching the rest. -/
theorem Grown.to_overflow {s t : State} (h : Grown s t) (c : RunCount) :
    Grown s { t with status := statusAfterRecord c t.status } := by
  refine Grown.trans h ?_
  exact
    { cfg := rfl, cmd := rfl, busy := rfl, done := rfl, err := rfl,
      overflow := fun h => by simp [statusAfterRecord, h],
      inLen := rfl, outLenReg := rfl,
      errKind := rfl, errPos := rfl, errExp := rfl, errObs := rfl, inBuf := rfl, hostQ := rfl, runs := rfl,
      outEra := rfl, outMono := Nat.le_refl _, outside := fun _ _ => rfl,
      listed := fun q hq h => h.elim (fun h => absurd hq (by simp only; omega)) id, wf := id,
      room := fun _ _ h => h }

/-- The number of bytes appended before CapacityExceeded is at most what fits: `emitAll_cases` with the room it leaves. -/
theorem emitAll_grown (vs : List Byte) (s : State) :
    (s.hasRoom vs.length ∨ vs = []) ∧ emitAll vs s = .go (s.appended vs) ∧ Grown s (s.appended vs) ∨
    ∃ us cap, s.cfg.outCap = some cap ∧ Grown s (s.appended us) ∧
      emitAll vs s = .ended ((s.appended us).raiseError .capacityExceeded s.ip cap (cap + 1)) := by
  induction vs generalizing s with
  | nil => exact .inl ⟨.inr rfl, rfl, Grown.refl s⟩
  | cons v vs ih =>
    rcases emit_cases v s with ⟨hr, he⟩ | ⟨cap, hc, _, he⟩
    · have hg1 : Grown s (s.pushOut v) := Grown.appended [v] s fun cap hcap _ => hr cap hcap
      rcases ih (s.pushOut v) with ⟨h1, h2, hg⟩ | ⟨us, cap, hc, hg, h2⟩
      · refine .inl ⟨.inl fun cap hcap => ?_, ?_, ?_⟩
        · rcases h1 with h1 | h1
          · have := h1 cap hcap
            rw [State.pushOut_outLen] at this
            simp only [List.length_cons]
            omega
          · subst h1; exact hr cap hcap
        · rw [emitAll, he, Flow.andThen_go, h2, State.appended_cons]
        · rw [State.appended_cons]; exact hg1.trans hg
      · refine .inr ⟨v :: us, cap, hc, ?_, ?_⟩
        · rw [State.appended_cons]; exact hg1.trans hg
        · rw [emitAll, he, Flow.andThen_go, h2, State.appended_cons, State.pushOut_ip]
    · exact .inr ⟨[], cap, hc, Grown.refl s, by rw [emitAll, he]; rfl⟩

/-- The expansion of a REP record grows the state. -/
theorem repLoop_grown (n : Nat) (s : State) :
    repLoop n s = .go (repAfter n s) ∧ Grown s (repAfter n s) ∨
    ∃ m cap, s.cfg.outCap = some cap ∧ Grown s (repAfter m s) ∧
      repLoop n s = .ended ((repAfter m s).raiseError .capacityExceeded s.ip cap (cap + 1)) := by
  induction n generalizing s with
  | zero => exact .inl ⟨by rw [repAfter_zero]; rfl, by rw [repAfter_zero]; exact Grown.refl s⟩
  | succ n ih =>
    rcases emit_cases s.val s with ⟨hr, he⟩ | ⟨cap, hc, hl, he⟩
    · have hg1 : Grown s { s.pushOut s.val with rem := s.rem - 1#8 } :=
        (Grown.appended [s.val] s fun cap hcap _ => hr cap hcap).to_registers rfl
      rcases ih { s.pushOut s.val with rem := s.rem - 1#8 } with ⟨h2, hg⟩ | ⟨m, cap, hc, hg, h2⟩
      · refine .inl ⟨?_, ?_⟩
        · rw [repLoop, he, Flow.andThen_go, State.pushOut_rem, h2, repAfter_succ]
        · rw [repAfter_succ]; exact hg1.trans hg
      · refine .inr ⟨m + 1, cap, hc, ?_, ?_⟩
        · rw [repAfter_succ]; exact hg1.trans hg
        · rw [repLoop, he, Flow.andThen_go, State.pushOut_rem, h2, repAfter_succ]; rfl
    · exact .inr ⟨0, cap, hc, by rw [repAfter_zero]; exact Grown.refl s, by rw [repLoop, he, repAfter_zero]; rfl⟩

/-- The span copy of a valid offset grows the state. -/
theorem copySpan_grown (n : Nat) (s : State) (h1 : 1 ≤ s.off.toNat) (h2 : s.off.toNat ≤ s.outLen) :
    (∃ t, copySpan n s = .go t ∧ t.ip = s.ip ∧ Grown s t) ∨
    (∃ cap u, s.cfg.outCap = some cap ∧ u.ip = s.ip ∧ u.status = s.status ∧ Grown s u ∧
      copySpan n s = .ended (u.raiseError .capacityExceeded s.ip cap (cap + 1))) := by
  induction n generalizing s with
  | zero => exact .inl ⟨s, rfl, rfl, Grown.refl s⟩
  | succ n ih =>
    have hread : readOut (s.outLen - fieldValue s.off) s = some (s.outByte (s.outLen - s.off.toNat)) :=
      readOut_eq (by simp only [fieldValue]; omega)
    rcases emit_cases (s.outByte (s.outLen - s.off.toNat)) s with ⟨hr, he⟩ | ⟨cap, hc, hl, he⟩
    · have hg1 : Grown s { s.pushOut (s.outByte (s.outLen - s.off.toNat)) with len := s.len - 1#8 } :=
        (Grown.appended [_] s fun cap hcap _ => hr cap hcap).to_registers rfl
      rcases ih { s.pushOut (s.outByte (s.outLen - s.off.toNat)) with len := s.len - 1#8 } h1
        (Nat.le_succ_of_le h2) with ⟨t, hgo, hip, hg⟩ | ⟨cap, u, hc, hip, hst, hg, hend⟩
      · exact .inl ⟨t, by simp only [copySpan, hread, he, Flow.andThen_go, State.pushOut_len, hgo], hip, hg1.trans hg⟩
      · refine .inr ⟨cap, u, hc, hip, hst, hg1.trans hg, ?_⟩
        simp only [copySpan, hread, he, Flow.andThen_go, State.pushOut_len, hend]
        rfl
    · exact .inr ⟨cap, s, hc, rfl, rfl, Grown.refl s, by simp only [copySpan, hread, he, Flow.andThen_ended]⟩

/-! Each operation. -/

theorem repRecord_effect (value count : Byte) (s : State) : Effect s (repRecord value count s) := by
  rcases repLoop_grown (fieldValue count) { s with val := value, rem := count } with ⟨h, hg⟩ | ⟨m, cap, _, hg, h⟩
  · rw [repRecord, h]
    exact .goesOn ((hg.of_registers rfl).to_registers rfl) (by show s.ip < s.ip + 2; omega) (.inr rfl)
  · rw [repRecord, h]
    exact .endsErr (hg.of_registers rfl) rfl rfl _ _ _

theorem litToken_effect (byte : Byte) (s : State) : Effect s (litToken byte s) := by
  have hg0 : Grown s { s with tag := litTag } := (Grown.refl s).to_registers rfl
  simp only [litToken]
  split
  · exact .endsErr hg0 rfl rfl _ _ _
  · rcases emit_cases byte { s with tag := litTag } with ⟨hr, he⟩ | ⟨cap, hc, hl, he⟩
    · rw [he]
      refine .goesOn ((hg0.trans (Grown.appended [byte] _ fun cap hcap _ => hr cap hcap)).to_registers rfl) ?_ (.inr rfl)
      show s.ip < s.ip + 2
      omega
    · rw [he]
      exact .endsErr hg0 rfl rfl _ _ _

theorem matchToken_effect (offset length : Byte) (s : State) : Effect s (matchToken offset length s) := by
  have hg0 : Grown s { s with tag := matchTag } := (Grown.refl s).to_registers rfl
  have hg1 : Grown s { s with tag := matchTag, off := offset, len := length } := (Grown.refl s).to_registers rfl
  simp only [matchToken]
  split
  · exact .endsErr hg0 rfl rfl _ _ _
  · rename_i hin
    split
    · exact .endsErr hg1 rfl rfl _ _ _
    · rename_i hv
      have h1 : 1 ≤ offset.toNat := by
        rcases Nat.eq_zero_or_pos offset.toNat with h | h
        · exact absurd (.inl (BitVec.eq_of_toNat_eq h)) hv
        · exact h
      have h2 : offset.toNat ≤ s.outLen := by
        by_contra h
        exact hv (.inr (Nat.lt_of_not_le h))
      rcases copySpan_grown (fieldValue length) { s with tag := matchTag, off := offset, len := length } h1 h2 with
        ⟨t, h, hip, hg⟩ | ⟨cap, u, _, hip, hst, hg, h⟩
      · rw [h]
        have : t.ip = s.ip := hip
        refine .goesOn ((hg1.trans hg).to_registers rfl) ?_ (.inl ?_)
        · show s.ip < t.ip + 3
          omega
        · show t.ip + 3 ≤ s.inLen
          omega
      · rw [h]
        exact .endsErr (hg1.trans hg) hip hst _ _ _

theorem illegalToken_effect (tag : Byte) (s : State) : Effect s (illegalToken tag s) :=
  .endsErr (u := { s with tag := tag }) ((Grown.refl s).to_registers rfl) rfl rfl _ _ _

/-- The RLE decoder's iteration stops the model only where a record is cut short, which the length check excludes. -/
theorem rleDecompressIterate_effect (s : State) :
    Effect s (rleDecompressIterate s) ∨ (s.inLen = s.ip + 1 ∧ rleDecompressIterate s = .stop .inReadOutOfRange) := by
  unfold rleDecompressIterate
  split
  · rename_i hl
    rw [readIn_eq hl]
    by_cases hl1 : s.ip + 1 < s.inLen
    · rw [readIn_eq hl1]; exact .inl (repRecord_effect _ _ s)
    · rw [readIn_eq_none (by omega)]; exact .inr ⟨by omega, rfl⟩
  · exact .inl (.endsOk (Grown.refl s) rfl)

theorem lz77DecompressIterate_effect (s : State) : Effect s (lz77DecompressIterate s) := by
  unfold lz77DecompressIterate
  split
  · rename_i hl
    rw [readIn_eq hl]
    simp only []
    split
    · cases readIn (s.ip + 1) s with
      | none => exact .endsErr (u := { s with tag := s.inByte s.ip }) ((Grown.refl s).to_registers rfl) rfl rfl _ _ _
      | some b => exact litToken_effect b s
    · split
      · cases readIn (s.ip + 1) s with
        | none =>
          exact .endsErr (u := { s with tag := s.inByte s.ip }) ((Grown.refl s).to_registers rfl) rfl rfl _ _ _
        | some o =>
          cases readIn (s.ip + 2) s with
          | none =>
            exact .endsErr (u := { s with tag := s.inByte s.ip }) ((Grown.refl s).to_registers rfl) rfl rfl _ _ _
          | some l => exact matchToken_effect o l s
      · exact illegalToken_effect _ s
  · exact .endsOk (Grown.refl s) rfl

theorem closeRun_grown (s : State) :
    (∃ t, closeRun s = .go t ∧ t.ip = s.ip ∧ t.cur = s.cur ∧ Grown s t) ∨
    (∃ u cap, u.ip = s.ip ∧ u.status = s.status ∧ Grown s u ∧
      closeRun s = .ended (u.raiseError .capacityExceeded s.ip cap (cap + 1))) := by
  rcases emitAll_grown [s.cur, trunc8 s.cnt] s with ⟨_, h, hg⟩ | ⟨us, cap, _, hg, h⟩
  · exact .inl ⟨{ s.appended [s.cur, trunc8 s.cnt] with status := statusAfterRecord s.cnt s.status },
      by rw [closeRun, h]; rfl, rfl, rfl, hg.to_overflow s.cnt⟩
  · exact .inr ⟨s.appended us, cap, rfl, rfl, hg, by rw [closeRun, h]; rfl⟩

theorem rleCompressIterate_effect (s : State) : Effect s (rleCompressIterate s) := by
  unfold rleCompressIterate
  split
  · rename_i hl
    rw [readIn_eq hl]
    simp only []
    split
    · exact .goesOn ((Grown.refl s).to_registers rfl) (by show s.ip < s.ip + 1; omega) (.inl hl)
    · rcases closeRun_grown s with ⟨t, h, hip, _, hg⟩ | ⟨u, cap, hip, hst, hg, h⟩
      · rw [h]
        refine .goesOn (hg.to_registers rfl) ?_ (.inl ?_)
        · show s.ip < t.ip + 1
          omega
        · show t.ip + 1 ≤ s.inLen
          omega
      · rw [h]; exact .endsErr hg hip hst _ _ _
  · rcases closeRun_grown s with ⟨t, h, hip, _, hg⟩ | ⟨u, cap, hip, hst, hg, h⟩
    · rw [h]; exact .endsOk hg hip
    · rw [h]; exact .endsErr hg hip hst _ _ _

theorem Searched.grown {s t : State} (h : Searched s t) : Grown s t := by
  rw [h.frame]
  exact (Grown.refl s).to_registers rfl

theorem lz77CompressIterate_effect (s : State) : Effect s (lz77CompressIterate s) := by
  unfold lz77CompressIterate
  split
  · rename_i hl
    obtain ⟨t, hf, hs⟩ := find_cases s
    have hip : t.ip = s.ip := by rw [hs.frame]
    have hst : t.status = s.status := by rw [hs.frame]
    have hin : t.ip < t.inLen := by rw [hip, hs.grown.inLen]; exact hl
    rw [hf, Flow.andThen_go]
    unfold emitToken
    split
    · rename_i hmin
      unfold emitMatch
      split
      · rw [hip]; exact .endsErr hs.grown hip hst _ _ _
      · rcases emitAll_grown [matchTag, fieldByte t.bestOff, fieldByte t.bestLen] t with
          ⟨_, h, hg⟩ | ⟨us, cap, _, hg, h⟩
        · rw [h]
          have hbound := hs.lenBound
          simp only [Config.minMatch] at hmin
          refine .goesOn ((hs.grown.trans hg).to_registers rfl) ?_ (.inl ?_)
          · show s.ip < t.ip + t.bestLen
            omega
          · show t.ip + t.bestLen ≤ s.inLen
            omega
        · rw [h, hip]; exact .endsErr (hs.grown.trans hg) hip hst _ _ _
    · unfold emitLiteral
      rw [readIn_eq hin]
      rcases emitAll_grown [litTag, t.inByte t.ip] t with ⟨_, h, hg⟩ | ⟨us, cap, _, hg, h⟩
      · simp only [h]
        refine .goesOn ((hs.grown.trans hg).to_registers rfl) ?_ (.inl ?_)
        · show s.ip < t.ip + 1
          omega
        · show t.ip + 1 ≤ s.inLen
          omega
      · simp only [h, Flow.andThen_ended]
        rw [hip]
        exact .endsErr (hs.grown.trans hg) hip hst _ _ _
  · exact .endsOk (Grown.refl s) rfl

/-- Everything an instruction can do while a command runs: its effect, or nothing at all. -/
theorem exec_busy_effect {i : Instr} {s t : State} (hb : s.status.busy = true) (h : exec i s = .next t) :
    ∃ x, x.outcome = .next t ∧ Effect s x := by
  have hcommand : ∀ {code enter iterate}, commandStep code enter iterate s = .next t →
      (iterate s).outcome = .next t := fun h => by
    rcases commandStep_next h with ⟨_, h⟩ | ⟨hn, _⟩
    · exact h
    · rw [hb] at hn; cases hn
  cases i with
  | rleCompress => exact ⟨_, hcommand h, rleCompressIterate_effect s⟩
  | lz77Compress => exact ⟨_, hcommand h, lz77CompressIterate_effect s⟩
  | rleDecompress =>
    have hi := hcommand h
    rcases rleDecompressIterate_effect s with he | ⟨_, he⟩
    · exact ⟨_, hi, he⟩
    · rw [he] at hi; cases hi
  | lz77Decompress => exact ⟨_, hcommand h, lz77DecompressIterate_effect s⟩
  | rep value count => exact ⟨_, (recordStep_next h).2, repRecord_effect value count s⟩
  | lit byte => exact ⟨_, (recordStep_next h).2, litToken_effect byte s⟩
  | matchTok offset length => exact ⟨_, (recordStep_next h).2, matchToken_effect offset length s⟩
  | illegalTag tag => exact ⟨_, (recordStep_next h).2, illegalToken_effect tag s⟩

end Sys2Proof.Machine
end

