-- ==== Sys2Proof/Laws/PerInstr.lean ====
section
/-! SUPPORT. The family EncodeWidth: every instruction's bytes are as many as its format takes, and begin the way its
layer tells it apart (30_encoding.md R72 to R80). -/

namespace Sys2Proof.Laws.EncodeWidth

/-- The encoding has the size of the format; a command's byte leaves bits 7:2 clear (R72), a token's first byte is its tag
(R77, R78, R79), a REP record starts with any byte (R74). -/
def Statement (i : Instr) : Prop :=
  (encode i).length = i.size ∧
  match i.layer with
  | .command => ∃ b : Byte, encode i = [b] ∧ b.extractLsb' 2 6 = 0#6
  | .rleStream => i.size = 2
  | .lz77Stream => i.wellFormed = true → ∃ tag rest, encode i = tag :: rest ∧
      (tag = 0x00#8 ↔ i.size = 2) ∧ (tag = 0x01#8 ↔ i.size = 3)

theorem rleCompress : Statement .rleCompress := ⟨rfl, _, rfl, rfl⟩

theorem lz77Compress : Statement .lz77Compress := ⟨rfl, _, rfl, rfl⟩

theorem rleDecompress : Statement .rleDecompress := ⟨rfl, _, rfl, rfl⟩

theorem lz77Decompress : Statement .lz77Decompress := ⟨rfl, _, rfl, rfl⟩

theorem rep (value count : Byte) : Statement (.rep value count) := ⟨rfl, rfl⟩

theorem lit (byte : Byte) : Statement (.lit byte) :=
  ⟨rfl, fun _ => ⟨_, _, rfl, by simp [Instr.size], by simp [Instr.size]⟩⟩

theorem matchTok (offset length : Byte) : Statement (.matchTok offset length) :=
  ⟨rfl, fun _ => ⟨_, _, rfl, by simp [Instr.size], by simp [Instr.size]⟩⟩

theorem illegalTag (tag : Byte) : Statement (.illegalTag tag) :=
  ⟨rfl, fun h => by
    have h' : 2 ≤ tag.toNat := by simpa [Instr.wellFormed] using h
    refine ⟨tag, [], rfl, ?_, ?_⟩ <;> simp only [Instr.size] <;> constructor <;> intro e <;> simp_all⟩

end Sys2Proof.Laws.EncodeWidth
end

