-- ==== Sys2Proof/Tests/Slice0.lean ====
section
/-! SUPPORT. The model's own tests: well-formedness, words written from the spec's encodings, one step for each
instruction with the result a vector of 95_test_vectors.md gives, and for every statement with hypotheses a state and
operands that meet them. -/

open Sys2Proof Sys2Proof.Machine Sys2Proof.Safety

namespace Sys2Proof.Tests

/-! ## Small states -/

/-- An idle instance with every register 0. -/
def quiet : State where
  cfg := Config.standard
  cmd := 0
  status := { busy := false, done := false, err := false, rleOvf := false }
  inLen := 0
  outLenReg := 0
  errKind := 0
  errPos := 0
  errExp := 0
  errObs := 0
  ip := 0
  outLen := 0
  cur := 0
  cnt := 0
  val := 0
  rem := 0
  cand := 0
  k := 0
  maxlen := 0
  bestOff := 0
  bestLen := 0
  tag := 0
  off := 0
  len := 0
  inBuf := []
  outBuf := []
  hostQ := []
  runs := 0
  outEra := 0

/-- The idle instance with an input in IN. -/
def loaded (data : List Byte) : State :=
  { quiet with inLen := data.length, inBuf := Memory.writeAll [] 0 data }

/-- A command running at position `ip` of an input, with its output so far. -/
def running (code : Byte) (data : List Byte) (ip : Nat) (out : List Byte) : State :=
  { loaded data with
    cmd := code
    status := statusStarted
    ip := ip
    outLen := out.length
    outBuf := Memory.writeAll [] 0 out }

/-- RLE.COMPRESS with an open run. -/
def openRun (data : List Byte) (ip : Nat) (cur : Byte) (cnt : RunCount) : State :=
  { running 0x00#8 data ip [] with cur := cur, cnt := cnt }

/-- The instance with this `W` and `L`. -/
def sized (W L : Nat) (s : State) : State := { s with cfg := { s.cfg with W := W, L := L } }

/-- The instance with this OUT_CAP. -/
def outCapped (cap : Nat) (s : State) : State := { s with cfg := { s.cfg with outCap := some cap } }

/-- The instance with this IN_CAP. -/
def inCapped (cap : Nat) (s : State) : State := { s with cfg := { s.cfg with inCap := some cap } }

/-- The instance whose host has moves to make. -/
def hosting (q : List HostOp) (s : State) : State := { s with hostQ := q }

/-- A view of the next state, where there is one. -/
def seen {α : Type} (f : State → α) (x : Host.Outcome State Fault Refusal) : Option α :=
  match x with
  | .next t => some (f t)
  | .fault _ => none
  | .refused _ => none

/-- The error a state reports, as (ERR_KIND, ERR_POS, ERR_EXP, ERR_OBS). -/
def errorOf (s : State) : Nat × Nat × Nat × Nat := (s.errKind.toNat, s.errPos, s.errExp, s.errObs)

/-- The stream a loaded input holds is that input. -/
theorem input_running (code : Byte) (data : List Byte) (ip : Nat) (out : List Byte) :
    input (running code data ip out) = data := by
  apply List.ext_getElem (by simp [input, running, loaded])
  intro p h1 h2
  simp [input, running, loaded, State.inByte, Memory.read_writeAll, h2]

/-! ## Well-formedness -/

/-- R79: the two legal tags are no illegal ones; the check refuses both and takes the values around the boundary. -/
theorem test_wellFormed_refuses_legal_tags :
    (Instr.illegalTag 0x00#8).wellFormed = false ∧ (Instr.illegalTag 0x01#8).wellFormed = false ∧
    (Instr.illegalTag 0x02#8).wellFormed = true ∧ (Instr.illegalTag 0xFF#8).wellFormed = true := by decide

/-! ## Decoding, by words written from the pattern strings -/

/-- R72, R73: one of bits 7:2 set makes a reserved command. -/
theorem test_decode_reserved_command :
    decode .command [0b00000100#8] = .error (.reservedCommand 4#8) ∧
    decode .command [0b10000001#8] = .error (.reservedCommand 0x81#8) := by decide

/-- R74: value first, then count; S10's stream read record by record. -/
theorem test_decode_rep :
    decode .rleStream [0b01000001#8, 0b00000011#8, 0b01000010#8, 0b00000010#8] = .ok (.rep 0x41#8 3#8, [0x42#8, 2#8]) :=
  by decide

/-- R77 with payload 00000011: the payload is data, not a tag (V110). -/
theorem test_decode_lit : decode .lz77Stream [0b00000000#8, 0b00000011#8] = .ok (.lit 3#8, []) := by decide

/-- R78: the offset comes before the length (V111's last token, offset 8, length 3). -/
theorem test_decode_match :
    decode .lz77Stream [0b00000001#8, 0b00001000#8, 0b00000011#8] = .ok (.matchTok 8#8 3#8, []) := by decide

/-- R79, R166: an illegal tag is one byte, what follows is not read (V133). -/
theorem test_decode_illegal_tag :
    decode .lz77Stream [0b11111111#8, 0#8, 0#8] = .ok (.illegalTag 0xFF#8, [0#8, 0#8]) := by decide

/-- The table words of the rows (spec/opcode_table.json: match 0x00 to 0x03 of 8 bits; REP 41 03; LIT 00 2A; MATCH 01 03
06; the illegal tag FF). -/
theorem test_decodeTableWord :
    decodeTableWord 8 0x00 = some .rleCompress ∧ decodeTableWord 8 0x01 = some .lz77Compress ∧
    decodeTableWord 8 0x02 = some .rleDecompress ∧ decodeTableWord 8 0x03 = some .lz77Decompress ∧
    decodeTableWord 16 0x0341 = some (.rep 0x41#8 3#8) ∧ decodeTableWord 16 0x2A00 = some (.lit 0x2A#8) ∧
    decodeTableWord 24 0x060301 = some (.matchTok 3#8 6#8) ∧ decodeTableWord 8 0xFF = some (.illegalTag 0xFF#8) := by
  decide

/-! ## Reset and placing a first instruction -/

/-- R39: the host reads 0 everywhere it may read after reset. -/
theorem test_reset_reads_zero :
    [HostReg.cmd, .status, .inLen, .outLen, .errKind, .errPos, .errExp, .errObs].map (hostRead · State.reset) =
      List.replicate 8 (some 0) := by decide

/-- A command placed in the reset state runs in the next step (log 8). -/
theorem test_withFetchWord_command : step (State.reset.withFetchWord 8 0x03) = exec .lz77Decompress State.reset := rfl

/-- A record placed in the reset state runs in the next step: REP 41 03 appends three bytes. -/
theorem test_withFetchWord_record :
    seen (fun t => (produced t, t.ip)) (step (State.reset.withFetchWord 16 0x0341)) =
      some ([0x41#8, 0x41#8, 0x41#8], 2) := by decide

/-! ## One step of each instruction -/

/-- R40, R102: RLE.COMPRESS starts with the first run open. -/
theorem test_rleCompress_start :
    seen (fun t => (t.status.busy, t.cur, t.cnt.toNat, t.ip)) (exec .rleCompress (loaded [0x41#8, 0x42#8])) =
      some (true, 0x41#8, 1, 1) := by decide

/-- R108, V8: a run of 256 is written with count byte 00 and sets RLE_OVF. -/
theorem test_rleCompress_truncates :
    seen (fun t => (produced t, statusWord t.status)) (exec .rleCompress (openRun [0#8] 1 0#8 256#16)) =
      some ([0#8, 0#8], 0b00001010#8) := by decide

/-- R197, V144: the third byte of the MATCH token does not fit. -/
theorem test_lz77Compress_capacity :
    seen errorOf (exec .lz77Compress (outCapped 4 (running 0x01#8 (List.replicate 10 0x41#8) 1 [0#8, 0x41#8]))) =
      some (6, 1, 4, 5) := by decide

/-- V47: at position 4 of "abcXabcYabc" the match (4, 3). -/
theorem test_lz77Compress_match :
    seen (fun t => (produced t, t.ip)) (exec .lz77Compress (running 0x01#8
      [0x61#8, 0x62#8, 0x63#8, 0x58#8, 0x61#8, 0x62#8, 0x63#8, 0x59#8, 0x61#8, 0x62#8, 0x63#8] 4 [])) =
      some ([1#8, 4#8, 3#8], 7) := by decide

/-- V28: three bytes are no RLE stream. -/
theorem test_rleDecompress_odd :
    seen errorOf (exec .rleDecompress (loaded [1#8, 2#8, 3#8])) = some (1, 0, 4, 3) := by decide

/-- V20: the empty input ends with an empty result. -/
theorem test_rleDecompress_empty :
    seen (fun t => (t.outLenReg, statusWord t.status)) (exec .rleDecompress (running 0x02#8 [] 0 [])) =
      some (0, 0b00000010#8) := by decide

/-- V24's second record after the first. -/
theorem test_rep :
    seen (fun t => (produced t, t.ip))
      (exec (.rep 0x41#8 3#8) (running 0x02#8 [0x41#8, 2#8, 0x41#8, 3#8] 2 [0x41#8, 0x41#8])) =
      some (List.replicate 5 0x41#8, 4) := by decide

/-- V140: the fifth byte does not fit. -/
theorem test_rep_capacity :
    seen errorOf (exec (.rep 0x41#8 5#8) (outCapped 4 (running 0x02#8 [0x41#8, 5#8] 0 []))) = some (6, 0, 4, 5) := by
  decide

/-- V120: a lone literal tag, which the command itself reports. -/
theorem test_lz77Decompress_truncated :
    seen errorOf (step (running 0x03#8 [0#8] 0 [])) = some (2, 0, 2, 1) := by decide

/-- V101. -/
theorem test_lit :
    seen (fun t => (produced t, t.ip)) (exec (.lit 0x2A#8) (running 0x03#8 [0#8, 0x2A#8] 0 [])) =
      some ([0x2A#8], 2) := by decide

/-- V104: offset 2, length 5: the length is no multiple of the offset. -/
theorem test_match_overlap :
    seen (fun t => (produced t, t.ip)) (exec (.matchTok 2#8 5#8)
      (running 0x03#8 [0#8, 0x41#8, 0#8, 0x42#8, 1#8, 2#8, 5#8] 4 [0x41#8, 0x42#8])) =
      some ([0x41#8, 0x42#8, 0x41#8, 0x42#8, 0x41#8, 0x42#8, 0x41#8], 7) := by decide

/-- V131: an offset one more than `out_len`. -/
theorem test_match_bad_offset :
    seen errorOf (exec (.matchTok 2#8 3#8) (running 0x03#8 [0#8, 0x41#8, 1#8, 2#8, 3#8] 2 [0x41#8])) =
      some (3, 2, 1, 2) := by decide

/-- V134. -/
theorem test_illegal_tag :
    seen errorOf (exec (.illegalTag 2#8) (running 0x03#8 [0#8, 0x41#8, 2#8] 2 [0x41#8])) = some (4, 2, 1, 2) := by decide

/-- R205: after an error the bytes already produced are no result. -/
theorem test_error_keeps_no_result :
    seen (fun t => (t.outLenReg, result t)) (exec (.illegalTag 2#8) (running 0x03#8 [0#8, 0x41#8, 2#8] 2 [0x41#8])) =
      some (0, []) := by decide

/-! ## Witnesses: for each statement with hypotheses, states and operands that meet them, at the ends of their ranges -/

/-! The invariant of a running decoder with nothing to do, of one at an illegal tag, and of an idle instance. -/

theorem inv_running_empty : Inv (running 0x03#8 [] 0 []) := by
  constructor <;> simp [running, loaded, quiet, statusStarted, Memory.wf, Config.standard]

theorem inv_running_tag : Inv (running 0x03#8 [2#8] 0 []) := by
  constructor <;> simp [running, loaded, quiet, statusStarted, Memory.wf, Memory.write, Config.standard]

theorem inv_running_lit : Inv (running 0x03#8 [0#8, 9#8] 0 []) := by
  constructor <;> simp [running, loaded, quiet, statusStarted, Memory.wf, Memory.write, Config.standard]

theorem inv_quiet : Inv quiet := by
  constructor <;> simp [quiet, Memory.wf, Config.standard]

theorem ready_quiet (data : List Byte) : Ready data quiet := ⟨rfl, by simp [quiet, Config.standard]⟩

theorem ready_full : Ready [0x41#8] (inCapped 1 quiet) := ⟨rfl, by decide⟩

/-- Encoding: illegal tags at both ends, a reserved command, bytes cut short in both formats and no bytes. -/
theorem test_witness_encoding :
    2 ≤ (2#8 : Byte).toNat ∧ 2 ≤ (0xFF#8 : Byte).toNat ∧ 4 ≤ (4#8 : Byte).toNat ∧ 4 ≤ (0xFF#8 : Byte).toNat ∧
    (Instr.illegalTag 2#8).wellFormed = true ∧
    decode .lz77Stream [1#8, 3#8, 6#8, 0#8] = .ok (.matchTok 3#8 6#8, [0#8]) ∧
    decode .rleStream [] = .error .noBytes ∧ decode .rleStream [7#8] = .error (.truncated 2 1) ∧
    decode .lz77Stream [] = .error .noBytes ∧ decode .lz77Stream [0#8] = .error (.truncated 2 1) ∧
    decode .lz77Stream [1#8] = .error (.truncated 3 1) ∧ decode .lz77Stream [1#8, 3#8] = .error (.truncated 3 2) := by
  decide

/-- StepRunsTheFetchedInstruction and ReservedCommandIsIgnored. -/
theorem test_witness_step :
    (running 0x02#8 [0x41#8, 3#8] 0 []).status.busy = true ∧
    fetch (running 0x02#8 [0x41#8, 3#8] 0 []) = .ok (.rep 0x41#8 3#8) ∧
    (hosting [.writeCmd 3#8] quiet).status.busy = false ∧
    (hosting [.writeCmd 3#8] quiet).hostQ = .writeCmd 3#8 :: [] ∧ decodeCommand 3#8 = .ok .lz77Decompress ∧
    (hosting [.writeCmd 4#8] quiet).hostQ = .writeCmd 4#8 :: [] := ⟨rfl, rfl, rfl, rfl, rfl, rfl⟩

/-- FetchReadsTheRecordAtTheCursor: each clause at the last and at the first position of its range. -/
theorem test_witness_fetch :
    fetch (running 0x00#8 [] 0 []) = .ok .rleCompress ∧ fetch (running 0x01#8 [] 0 []) = .ok .lz77Compress ∧
    fetch (running 0x02#8 [7#8, 1#8] 0 []) = .ok (.rep 7#8 1#8) ∧
    fetch (running 0x02#8 [7#8, 1#8] 1 []) = .ok .rleDecompress ∧
    fetch (running 0x02#8 [7#8, 1#8] 2 []) = .ok .rleDecompress ∧
    fetch (running 0x03#8 [0#8, 9#8] 2 []) = .ok .lz77Decompress ∧
    fetch (running 0x03#8 [0#8, 9#8] 0 []) = .ok (.lit 9#8) ∧ fetch (running 0x03#8 [0#8] 0 []) = .ok .lz77Decompress ∧
    fetch (running 0x03#8 [1#8, 9#8, 8#8] 0 []) = .ok (.matchTok 9#8 8#8) ∧
    fetch (running 0x03#8 [1#8, 9#8] 0 []) = .ok .lz77Decompress ∧
    fetch (running 0x03#8 [2#8] 0 []) = .ok (.illegalTag 2#8) := ⟨rfl, rfl, rfl, rfl, rfl, rfl, rfl, rfl, rfl, rfl, rfl⟩

/-- RecordStepIsCommandIteration. -/
theorem test_witness_running :
    (running 0x02#8 [7#8, 1#8] 0 []).running 0x02#8 ∧ (running 0x03#8 [0#8, 9#8] 0 []).running 0x03#8 := by decide

/-- HostWritesReachTheirTarget: the last position of IN and the first outside, the largest IN_LEN and the next. -/
theorem test_witness_host_writes :
    (∀ cap ∈ (inCapped 2 quiet).cfg.inCap, 1 < cap) ∧ (∀ cap ∈ (inCapped 2 quiet).cfg.inCap, 2 ≤ cap) ∧
    seen (·.inByte 1) (step (inCapped 2 (hosting [.writeIn 1 5#8] quiet))) = some 5#8 ∧
    step (inCapped 2 (hosting [.writeIn 2 5#8] quiet)) = .fault (.hostWriteOutsideIn 2) ∧
    seen (·.inLen) (step (inCapped 2 (hosting [.writeInLen 2] quiet))) = some 2 ∧
    step (inCapped 2 (hosting [.writeInLen 3] quiet)) = .refused (.inLenOverCapacity 3) :=
  ⟨by decide, by decide, rfl, rfl, rfl, rfl⟩

/-- CommandStartInitialises, RleCompressOpensTheFirstRun, RleCompressOfNothingEndsAtOnce, OddLengthIsMalformed and
OversizedLaunchIsRefused: a full IN and one byte more, the shortest inputs. -/
theorem test_witness_start :
    (∀ cap ∈ (inCapped 2 (loaded [7#8, 1#8])).cfg.inCap, (inCapped 2 (loaded [7#8, 1#8])).inLen ≤ cap) ∧
    (inCapped 2 (loaded [7#8, 1#8])).status.busy = false ∧ (loaded [7#8, 1#8]).inLen % 2 = 0 ∧
    0 < (loaded [7#8]).inLen ∧ (loaded [7#8]).inLen % 2 = 1 ∧ quiet.inLen = 0 ∧
    (inCapped 0 (loaded [7#8])).cfg.inCap = some 0 ∧ 0 < (inCapped 0 (loaded [7#8])).inLen ∧
    Instr.layer .lz77Compress = .command := by decide

/-- RunIsExtended at the largest counter it extends, RunIsClosedAtTheCap at the next, RunIsClosedByADifferingByte and
LastRunIsFlushed with exactly the room for a record. -/
theorem test_witness_rleCompress :
    (let s := openRun [7#8, 7#8] 1 7#8 65534#16;
      s.running 0x00#8 ∧ s.ip < s.inLen ∧ s.inByte s.ip = s.cur ∧ s.cnt.toNat = 65534) ∧
    (let s := outCapped 2 (openRun [7#8, 7#8] 1 7#8 65535#16);
      s.running 0x00#8 ∧ s.ip < s.inLen ∧ s.inByte s.ip = s.cur ∧ s.cnt.toNat = 65535 ∧ s.hasRoom 2) ∧
    (let s := outCapped 2 (openRun [7#8, 8#8] 1 7#8 1#16);
      s.running 0x00#8 ∧ s.ip < s.inLen ∧ s.inByte s.ip ≠ s.cur ∧ s.hasRoom 2) ∧
    (let s := outCapped 2 (openRun [7#8] 1 7#8 1#16);
      s.running 0x00#8 ∧ s.inLen ≤ s.ip ∧ s.hasRoom 2) := by decide

/-- RepAppendsCopies with exactly the room and with one byte too few (V141, V140); CountZeroIsANoOp in a full OUT. -/
theorem test_witness_rep :
    (let s := outCapped 4 (running 0x02#8 [0x41#8, 4#8] 0 []);
      s.running 0x02#8 ∧ s.hasRoom (4#8 : Byte).toNat ∧
      ∀ cap ∈ s.cfg.outCap, s.outLen ≤ cap ∧ cap < s.outLen + (5#8 : Byte).toNat) ∧
    (let s := outCapped 0 (running 0x02#8 [0x41#8, 0#8] 0 []);
      s.running 0x02#8 ∧ s.hasRoom (0#8 : Byte).toNat) := by decide

/-- CommandEndsAtTheEndOfInput. -/
theorem test_witness_end :
    ((running 0x01#8 [7#8] 1 []).running 0x01#8 ∧ (running 0x01#8 [7#8] 1 []).inLen ≤ 1) ∧
    ((running 0x02#8 [7#8, 0#8] 2 []).running 0x02#8 ∧ (running 0x02#8 [7#8, 0#8] 2 []).inLen ≤ 2) ∧
    ((running 0x03#8 [] 0 []).running 0x03#8 ∧ (running 0x03#8 [] 0 []).inLen ≤ 0) := by decide

/-- FindOverlapsItsOwnLookahead: V41's shape, four equal bytes. -/
theorem test_witness_find_overlap :
    let s := running 0x01#8 (List.replicate 4 0x41#8) 1 []
    1 ≤ s.ip ∧ s.ip < s.inLen ∧ 1 ≤ s.cfg.W ∧ 1 ≤ s.cfg.L ∧ ∀ p < s.inLen, s.inByte p = 0x41#8 := by decide

/-- ShortMatchBecomesALiteral: the longest match it covers, (2, 2) in "ABAB", with exactly the room, and no match at
all, at position 0. -/
theorem test_witness_short_match :
    (let s := outCapped 2 (running 0x01#8 [0x41#8, 0x42#8, 0x41#8, 0x42#8] 2 []);
      s.running 0x01#8 ∧ s.ip < s.inLen ∧ s.hasRoom 2 ∧ IsFind s.cfg.W s.cfg.L (input s) s.ip 2 2) ∧
    (let s := running 0x01#8 [0x41#8] 0 [];
      s.running 0x01#8 ∧ s.ip < s.inLen ∧ s.hasRoom 2 ∧ IsFind s.cfg.W s.cfg.L (input s) s.ip 0 0) := by
  unfold IsFind matchLength; decide

/-- LongMatchBecomesAMatchToken: the shortest match it covers, V47's (4, 3), with exactly the room. -/
theorem test_witness_long_match :
    (let s := outCapped 3 (running 0x01#8 [0x61#8, 0x62#8, 0x63#8, 0x58#8, 0x61#8, 0x62#8, 0x63#8] 4 []);
      s.running 0x01#8 ∧ s.ip < s.inLen ∧ s.hasRoom 3 ∧ IsFind s.cfg.W s.cfg.L (input s) s.ip 4 3) := by
  unfold IsFind matchLength; decide

/-- A repetition of one byte, seen from position 1 with a window of one byte: the match is everything that is left. -/
theorem isFind_repetition (v : Byte) (n L : Nat) (hn : 1 ≤ n) (hL : n ≤ L) :
    IsFind 1 L (List.replicate (n + 1) v) 1 1 n := by
  have hm : matchLength L (List.replicate (n + 1) v) 1 1 = n := by
    have hcap : min L ((List.replicate (n + 1) v).length - 1) = n := by simp; omega
    unfold matchLength
    rw [hcap]
    refine Nat.findGreatest_eq fun j hj => ?_
    rw [List.getElem?_replicate_of_lt (by omega), List.getElem?_replicate_of_lt (by omega)]
  refine .inr ⟨le_rfl, by simp, hn, hm.symm, fun o h1 h2 => ?_, fun o h1 h2 => by omega⟩
  have : o = 1 := by simp at h2; omega
  rw [this, hm]

/-- LongMatchBecomesAMatchToken at the largest length, 255, and OversizedMatchIsAnError at the next, 256. -/
theorem test_witness_match_at_the_range :
    (let s := sized 1 256 (running 0x01#8 (List.replicate 256 7#8) 1 []);
      s.running 0x01#8 ∧ s.ip < s.inLen ∧ IsFind s.cfg.W s.cfg.L (input s) s.ip 1 255 ∧ s.hasRoom 3) ∧
    (let s := sized 1 256 (running 0x01#8 (List.replicate 257 7#8) 1 []);
      s.running 0x01#8 ∧ s.ip < s.inLen ∧ IsFind s.cfg.W s.cfg.L (input s) s.ip 1 256) := by
  have h : ∀ d, input (sized 1 256 (running 0x01#8 d 1 [])) = d := fun d => input_running 0x01#8 d 1 []
  refine ⟨⟨⟨rfl, rfl⟩, ?_, ?_, nofun⟩, ⟨⟨rfl, rfl⟩, ?_, ?_⟩⟩
  · show 1 < (List.replicate 256 (7#8 : Byte)).length
    rw [List.length_replicate]; omega
  · rw [h]; exact isFind_repetition 7#8 255 256 (by omega) (by omega)
  · show 1 < (List.replicate 257 (7#8 : Byte)).length
    rw [List.length_replicate]; omega
  · rw [h]; exact isFind_repetition 7#8 256 256 (by omega) (by omega)

/-- WellConfiguredNeverExceedsTheRange: the largest parameters and the smallest, and a step. -/
theorem test_witness_well_configured :
    (sized 255 255 quiet).cfg.WellConfigured ∧ (sized 1 1 quiet).cfg.WellConfigured ∧
    (sized 1 1 quiet).errKind ≠ 5#3 ∧ step (sized 1 1 quiet) = .next (sized 1 1 quiet) :=
  ⟨by decide, by decide, by decide, rfl⟩

/-- LitAppendsItsByte with exactly the room and the token at the end of the input. -/
theorem test_witness_lit :
    let s := outCapped 1 (running 0x03#8 [0#8, 9#8] 0 [])
    s.running 0x03#8 ∧ s.ip + 1 < s.inLen ∧ s.hasRoom 1 := by decide

/-- ShortTokenIsTruncated: V120, V121, V122. -/
theorem test_witness_short_token :
    (let s := running 0x03#8 [0#8] 0 [];
      s.running 0x03#8 ∧ s.inLen ≤ s.ip + 1 ∧ s.ip + 1 = s.inLen ∧ s.inByte s.ip = 0x00#8) ∧
    (let s := running 0x03#8 [1#8] 0 [];
      s.running 0x03#8 ∧ s.ip < s.inLen ∧ s.inLen ≤ s.ip + 2 ∧ s.inByte s.ip = 0x01#8) ∧
    (let s := running 0x03#8 [1#8, 5#8] 0 [];
      s.running 0x03#8 ∧ s.ip < s.inLen ∧ s.inLen ≤ s.ip + 2 ∧ s.inByte s.ip = 0x01#8) := by decide

/-- BadOffsetIsAnError at offset 0 and one past `out_len` (V130, V131); SpanCopyExtendsPeriodically at offset `out_len`
with exactly the room. -/
theorem test_witness_offset :
    (let s := running 0x03#8 [0#8, 0x41#8, 1#8, 0#8, 3#8] 2 [0x41#8];
      s.running 0x03#8 ∧ s.ip + 2 < s.inLen ∧ s.outLen < (2#8 : Byte).toNat) ∧
    (let s := outCapped 4 (running 0x03#8 [0#8, 0x41#8, 1#8, 1#8, 3#8] 2 [0x41#8]);
      s.running 0x03#8 ∧ s.ip + 2 < s.inLen ∧ 1 ≤ (1#8 : Byte).toNat ∧ (1#8 : Byte).toNat ≤ s.outLen ∧
      s.hasRoom (3#8 : Byte).toNat) := by decide

/-- IllegalTagIsUnrecognized: V132. -/
theorem test_witness_illegal_tag : (running 0x03#8 [2#8] 0 []).running 0x03#8 ∧ 2 ≤ (2#8 : Byte).toNat := by decide

/-- FullBufferEndsTheCommand at the boundary, from both sides. -/
theorem test_witness_full :
    (outCapped 1 (running 0x03#8 [0#8, 9#8] 0 [5#8])).cfg.outCap =
      some (outCapped 1 (running 0x03#8 [0#8, 9#8] 0 [5#8])).outLen ∧
    (outCapped 2 (running 0x03#8 [0#8, 9#8] 0 [5#8])).hasRoom 1 := by decide

/-- CapacityIsCheckedByEveryAppender: each appender one byte short. -/
theorem test_witness_capacity :
    (let s := outCapped 0 (running 0x03#8 [0#8, 9#8] 0 []);
      s.cfg.outCap = some 0 ∧ s.outLen ≤ 0 ∧ s.running 0x03#8 ∧ s.ip + 1 < s.inLen ∧ 0 < s.outLen + 1) ∧
    (let s := outCapped 9 (running 0x03#8 [0#8, 0x41#8, 1#8, 1#8, 9#8] 2 [0x41#8]);
      s.cfg.outCap = some 9 ∧ s.outLen ≤ 9 ∧ s.running 0x03#8 ∧ s.ip + 2 < s.inLen ∧
      (1#8 : Byte).toNat ≤ s.outLen ∧ 9 < s.outLen + (9#8 : Byte).toNat) ∧
    (let s := outCapped 1 (openRun [7#8] 1 7#8 1#16);
      s.cfg.outCap = some 1 ∧ s.outLen ≤ 1 ∧ s.running 0x00#8 ∧ s.inLen ≤ s.ip ∧ 1 < s.outLen + 2) ∧
    (let s := outCapped 1 (openRun [7#8, 8#8] 1 7#8 1#16);
      s.outLen ≤ 1 ∧ s.running 0x00#8 ∧ s.inByte s.ip ≠ s.cur ∧ 1 < s.outLen + 2) ∧
    (let s := outCapped 1 (openRun [7#8, 7#8] 1 7#8 65535#16);
      s.outLen ≤ 1 ∧ s.running 0x00#8 ∧ s.cnt.toNat = 65535 ∧ 1 < s.outLen + 2) := by decide

/-- CapacityIsCheckedByEveryAppender, the LZ77 encoder: a literal and a match one byte short. -/
theorem test_witness_capacity_lz77 :
    (let s := outCapped 1 (running 0x01#8 [0x41#8] 0 []);
      s.cfg.outCap = some 1 ∧ s.outLen ≤ 1 ∧ s.running 0x01#8 ∧ s.ip < s.inLen ∧ 1 < s.outLen + 2 ∧
      IsFind s.cfg.W s.cfg.L (input s) s.ip 0 0) ∧
    (let s := outCapped 4 (running 0x01#8 (List.replicate 4 0x41#8) 1 [0#8, 0x41#8]);
      s.cfg.outCap = some 4 ∧ s.outLen ≤ 4 ∧ s.running 0x01#8 ∧ s.ip < s.inLen ∧ 4 < s.outLen + 3 ∧
      IsFind s.cfg.W s.cfg.L (input s) s.ip 1 3) := by
  unfold IsFind matchLength; decide

/-- EachCommandRaisesItsOwnKinds: a step of each command that ends with an error. -/
theorem test_witness_kinds :
    seen (fun t => (t.status.err, t.errKind)) (step (outCapped 0 (openRun [7#8] 1 7#8 1#16))) = some (true, 6#3) ∧
    seen (fun t => (t.status.err, t.errKind)) (step (outCapped 0 (running 0x01#8 [7#8] 0 []))) = some (true, 6#3) ∧
    seen (fun t => (t.status.err, t.errKind)) (step (outCapped 0 (running 0x02#8 [7#8, 1#8] 0 []))) = some (true, 6#3) ∧
    seen (fun t => (t.status.err, t.errKind)) (step (running 0x03#8 [1#8, 5#8, 3#8] 0 [])) = some (true, 3#3) :=
  ⟨rfl, rfl, rfl, rfl⟩

/-- The frames (WorkingRegistersHaveOneWriter, EngineNeverWritesIn, OutIsAppendOnly, HostRegistersOfARunningCommand): an
instruction of each layer that answers a next state, from an engine that is busy and not done, and a command start. -/
theorem test_witness_frames :
    (running 0x03#8 [0#8, 9#8] 0 []).status.busy = true ∧ (running 0x03#8 [0#8, 9#8] 0 []).status.done = false ∧
    seen (·.status.err) (exec (.lit 9#8) (running 0x03#8 [0#8, 9#8] 0 [])) = some false ∧
    seen (·.status.err) (exec (.rep 7#8 1#8) (running 0x02#8 [7#8, 1#8] 0 [])) = some false ∧
    seen (·.status.err) (exec .rleCompress (openRun [7#8] 1 7#8 1#16)) = some false ∧
    seen (·.status.err) (exec .lz77Compress (loaded [7#8])) = some false ∧ (loaded [7#8]).status.busy = false :=
  ⟨rfl, rfl, rfl, rfl, rfl, rfl, rfl⟩

/-- HostReadsTheResult: a finished instance with one result byte in a full OUT. -/
theorem test_witness_host_reads :
    let s := { inCapped 1 (outCapped 1 (running 0x03#8 [0#8] 0 [9#8])) with
      status := { busy := false, done := true, err := false, rleOvf := false }, outLenReg := 1 }
    s.status.busy = false ∧ s.status.done = true ∧ s.status.err = false ∧ 0 < s.outLenReg ∧
    (∀ cap ∈ s.cfg.inCap, 0 < cap) ∧ ∀ cap ∈ s.cfg.outCap, 0 < cap := by decide

/-- StepKeepsTheInvariant, BusyEngineNeverStops, CursorMovesForward and EveryCommandTerminates: a busy state with the
invariant and its step, at the end of the input and before it, and an idle state. -/
theorem test_witness_invariant :
    (Inv quiet ∧ step quiet = .next quiet) ∧
    (Inv (running 0x03#8 [] 0 []) ∧ (running 0x03#8 [] 0 []).status.busy = true ∧
      seen (·.status.busy) (step (running 0x03#8 [] 0 [])) = some false) ∧
    (Inv (running 0x03#8 [0#8, 9#8] 0 []) ∧ (running 0x03#8 [0#8, 9#8] 0 []).status.busy = true ∧
      seen (·.status.busy) (step (running 0x03#8 [0#8, 9#8] 0 [])) = some true) ∧
    (Inv (running 0x03#8 [2#8] 0 []) ∧ (running 0x03#8 [2#8] 0 []).status.busy = true ∧
      seen (·.status.err) (step (running 0x03#8 [2#8] 0 [])) = some true) :=
  ⟨⟨inv_quiet, rfl⟩, ⟨inv_running_empty, rfl, rfl⟩, ⟨inv_running_lit, rfl, rfl⟩, ⟨inv_running_tag, rfl, rfl⟩⟩

/-- The call boundary: an instance ready for any data, one that the data fills, and RLE's and LZ77's shortest round
trips. -/
theorem test_witness_calls :
    Ready [] quiet ∧ Ready [0x41#8] (inCapped 1 quiet) ∧ quiet.cfg.outCap = none ∧ quiet.status.busy = false ∧
    (3#8 : Byte).toNat < 4 ∧ (0#8 : Byte).toNat < 4 ∧
    call 0x00#8 [0x41#8] quiet = some (.ok [0x41#8, 1#8]) ∧ Ready [0x41#8, 1#8] quiet ∧
    call 0x01#8 [0x41#8] quiet = some (.ok [0#8, 0x41#8]) ∧ Ready [0#8, 0x41#8] quiet :=
  ⟨ready_quiet _, ready_full, rfl, rfl, by decide, by decide, rfl, ready_quiet _, rfl, ready_quiet _⟩

end Sys2Proof.Tests
end

/-! The stream decoders, one equation per record format, and the obligation on the record formats. -/

namespace Sys2Proof

@[simp] theorem decode_rleStream (bytes : List Byte) : decode .rleStream bytes = decodeRle bytes := rfl
@[simp] theorem decode_lz77Stream (bytes : List Byte) : decode .lz77Stream bytes = decodeLz77 bytes := rfl

@[simp] theorem decodeRle_cons_cons (value count : Byte) (rest : List Byte) :
    decodeRle (value :: count :: rest) = .ok (.rep value count, rest) := rfl

@[simp] theorem decodeLz77_lit (byte : Byte) (rest : List Byte) :
    decodeLz77 (0x00#8 :: byte :: rest) = .ok (.lit byte, rest) := rfl

@[simp] theorem decodeLz77_matchTok (offset length : Byte) (rest : List Byte) :
    decodeLz77 (0x01#8 :: offset :: length :: rest) = .ok (.matchTok offset length, rest) := rfl

/-- The tags the decoder's two tests single out are exactly the values below 2. -/
theorem two_le_tag_iff (tag : Byte) : 2 ≤ tag.toNat ↔ tag ≠ 0x00#8 ∧ tag ≠ 0x01#8 := by
  bv_omega

/-- R79: neither test on the tag succeeds, so the token is the tag byte alone and no payload is read. -/
theorem decodeLz77_illegalTag {tag : Byte} (htag : 2 ≤ tag.toNat) (rest : List Byte) :
    decodeLz77 (tag :: rest) = .ok (.illegalTag tag, rest) := by
  obtain ⟨hlit, hmatch⟩ := (two_le_tag_iff tag).mp htag
  simp only [decodeLz77, if_neg hlit, if_neg hmatch]

/-- Settles O1: each layer hands its bytes to its own decoder, whose equation for the format gives the record. -/
theorem recordFormatsDecode : Obligations.RecordFormatsDecode := by
  unfold Obligations.RecordFormatsDecode
  refine ⟨fun value count rest => ?rep, fun byte rest => ?lit, fun offset length rest => ?matchTok,
    fun tag rest htag => ?illegalTag⟩
  case rep => rw [decode_rleStream, decodeRle_cons_cons]
  case lit => rw [decode_lz77Stream, decodeLz77_lit]
  case matchTok => rw [decode_lz77Stream, decodeLz77_matchTok]
  case illegalTag => rw [decode_lz77Stream, decodeLz77_illegalTag htag]

end Sys2Proof

/-! RLE.COMPRESS, one step inside the input, and the obligation on a run that goes on. -/

namespace Sys2Proof

open Sys2Proof.Machine

/-- A step of running RLE.COMPRESS is one iteration of its loop. -/
theorem exec_rleCompress_running {s : State} (hrun : s.running 0x00#8) :
    exec .rleCompress s = (rleCompressIterate s).outcome :=
  commandStep_running hrun

/-- R103: the first branch of the loop's body. -/
theorem rleCompressIterate_absorbs {s : State} (hip : s.ip < s.inLen) (heq : s.inByte s.ip = s.cur)
    (hcnt : s.cnt.toNat < Config.runCap) :
    rleCompressIterate s = .go { s with cnt := s.cnt + 1#16, ip := s.ip + 1 } := by
  simp only [rleCompressIterate, if_pos hip, readIn_eq hip, if_pos (And.intro heq hcnt)]

/-- Below RUN_CAP (R6) the 16-bit counter does not wrap. -/
theorem toNat_add_one_of_lt_runCap {c : RunCount} (h : c.toNat < Config.runCap) :
    (c + 1#16).toNat = c.toNat + 1 := by
  have hlt : c.toNat < 65535 := h
  bv_omega

/-- Settles O16: the step is one iteration, which absorbs the byte, and the counter does not wrap. -/
theorem runIsExtended : Obligations.RunIsExtended := by
  unfold Obligations.RunIsExtended
  intro s hrun hip heq hcnt
  refine ⟨{ s with cnt := s.cnt + 1#16, ip := s.ip + 1 }, ?absorbed, ?counter, rfl, rfl⟩
  case absorbed => rw [exec_rleCompress_running hrun, rleCompressIterate_absorbs hip heq hcnt, Flow.outcome_go]
  case counter => exact toNat_add_one_of_lt_runCap hcnt

end Sys2Proof

/-! The match-finder's scan (R132): one candidate, one more candidate, all candidates, and the obligation on `FIND`. -/

namespace Sys2Proof.Safety

open Sys2Proof.Machine

/-- A position of the input stream is what a read of IN gives there, and nothing past IN_LEN. -/
theorem input_getElem? (s : State) (p : Nat) : (input s)[p]? = readIn p s := by
  rcases Nat.lt_or_ge p s.inLen with hp | hp
  · rw [input, readIn_eq hp, List.getElem?_map, List.getElem?_range hp, Option.map_some]
  · rw [readIn_eq_none hp, List.getElem?_eq_none]
    simpa [input] using hp

@[simp] theorem input_length (s : State) : (input s).length = s.inLen := by simp [input]

/-- R132: the inner loop stops at the first position from `k` on where the streams differ, or at its cap. -/
theorem matchFrom_spec (s : State) (cand i fuel k : Nat) (h : fuel = 0 ∨ i + k + fuel ≤ s.inLen) :
    ∃ n, matchFrom s cand i fuel k = some n ∧ k ≤ n ∧ n ≤ k + fuel ∧
      (∀ j, k ≤ j → j < n → readIn (i - cand + j) s = readIn (i + j) s) ∧
      (n < k + fuel → readIn (i - cand + n) s ≠ readIn (i + n) s) := by
  induction fuel generalizing k with
  | zero => exact ⟨k, rfl, le_rfl, le_rfl, fun j _ _ => by omega, fun _ => by omega⟩
  | succ f ih =>
    have hold : readIn (i - cand + k) s = some (s.inByte (i - cand + k)) := readIn_eq (by omega)
    have hnew : readIn (i + k) s = some (s.inByte (i + k)) := readIn_eq (by omega)
    simp only [matchFrom, hold, hnew]
    by_cases heq : s.inByte (i - cand + k) = s.inByte (i + k)
    · obtain ⟨n, hn, hkn, hcap, hagree, hdiffer⟩ := ih (k + 1) (by omega)
      refine ⟨n, by rw [if_pos heq, hn], by omega, by omega, fun j hkj hjn => ?_, fun hlt => hdiffer (by omega)⟩
      rcases Nat.eq_or_lt_of_le hkj with rfl | hlt
      · rw [hold, hnew, heq]
      · exact hagree j hlt hjn
    · refine ⟨k, if_neg heq, le_rfl, by omega, fun j _ _ => by omega, fun _ => ?_⟩
      rw [hold, hnew]
      simpa using heq

/-- R127: the inner loop computes the match length of its candidate. -/
theorem matchFrom_eq_matchLength (s : State) (cand : Nat) :
    matchFrom s cand s.ip (min s.cfg.L (s.inLen - s.ip)) 0 = some (matchLength s.cfg.L (input s) s.ip cand) := by
  obtain ⟨n, hn, -, hcap, hagree, hdiffer⟩ :=
    matchFrom_spec s cand s.ip (min s.cfg.L (s.inLen - s.ip)) 0 (by omega)
  rw [hn, matchLength, input_length]
  simp only [input_getElem?]
  refine congrArg some (Eq.symm (Nat.findGreatest_eq_iff.mpr ⟨by omega, fun _ j hj => hagree j (by omega) hj, ?_⟩))
  intro m hnm hm hall
  exact hdiffer (by omega) (hall n hnm)

/-- R129, R130: a longer match is kept with its candidate, any other is dropped. -/
theorem keepBest_eq (s : State) :
    keepBest s = { s with
      bestOff := if s.bestLen < s.k then s.cand else s.bestOff, bestLen := max s.bestLen s.k } := by
  unfold keepBest
  split
  case isTrue h => rw [Nat.max_eq_right (Nat.le_of_lt h)]
  case isFalse h => rw [Nat.max_eq_left (Nat.le_of_not_lt h)]

/-- R126: the window never reaches past the start of the input. -/
theorem isFind_min_window {W L i off len : Nat} {d : List Byte} :
    IsFind (min W i) L d i off len ↔ IsFind W L d i off len := by
  simp only [IsFind, Nat.min_assoc, Nat.min_self]

/-- Before the first candidate the answer is (0, 0) (R131). -/
theorem isFind_empty_window (L i : Nat) (d : List Byte) : IsFind 0 L d i 0 0 :=
  .inl ⟨rfl, rfl, fun o h1 h2 => by omega⟩

/-- No candidate of the window is longer than the answer. -/
theorem IsFind.matchLength_le {W L i off len : Nat} {d : List Byte} (h : IsFind W L d i off len) {o : Nat}
    (h1 : 1 ≤ o) (h2 : o ≤ min W i) : matchLength L d i o ≤ len := by
  rcases h with ⟨-, -, hzero⟩ | ⟨-, -, -, -, hmax, -⟩
  · rw [hzero o h1 h2]
    exact Nat.zero_le len
  · exact hmax o h1 h2

/-- One more offset in the window: it becomes the answer exactly where it is strictly longer (R129, R130). -/
theorem IsFind.extend {w L i off len : Nat} {d : List Byte} (h : IsFind w L d i off len) (hw : w < i) :
    IsFind (w + 1) L d i (if len < matchLength L d i (w + 1) then w + 1 else off)
      (max len (matchLength L d i (w + 1))) := by
  have hle : ∀ o, 1 ≤ o → o ≤ w → matchLength L d i o ≤ len := fun o h1 h2 => h.matchLength_le h1 (by omega)
  have hwindow : ∀ o, 1 ≤ o → o ≤ min (w + 1) i → o ≤ w ∨ o = w + 1 := fun o _ h2 => by omega
  by_cases hlt : len < matchLength L d i (w + 1)
  case pos =>
    rw [if_pos hlt, Nat.max_eq_right (Nat.le_of_lt hlt)]
    refine .inr ⟨by omega, by omega, by omega, rfl, fun o h1 h2 => ?_, fun o h1 h2 => ?_⟩
    · rcases hwindow o h1 h2 with ho | rfl
      · exact (hle o h1 ho).trans (Nat.le_of_lt hlt)
      · exact le_rfl
    · exact (hle o h1 (by omega)).trans_lt hlt
  case neg =>
    rw [if_neg hlt, Nat.max_eq_left (Nat.le_of_not_lt hlt)]
    have hmax : ∀ o, 1 ≤ o → o ≤ min (w + 1) i → matchLength L d i o ≤ len := fun o h1 h2 => by
      rcases hwindow o h1 h2 with ho | rfl
      · exact hle o h1 ho
      · exact Nat.le_of_not_lt hlt
    rcases h with ⟨hoff, hlen, -⟩ | ⟨hpos, hin, hlen, hattained, -, hfirst⟩
    · exact .inl ⟨hoff, hlen, fun o h1 h2 => Nat.eq_zero_of_le_zero (hlen ▸ hmax o h1 h2)⟩
    · exact .inr ⟨hpos, by omega, hlen, hattained, hmax, hfirst⟩

/-- The state after one candidate of match length `n` (R132). -/
def afterCandidate (n : Nat) (s : State) : State :=
  { s with
    k := n, bestOff := if s.bestLen < n then s.cand else s.bestOff, bestLen := max s.bestLen n, cand := s.cand + 1 }

/-- One iteration of the outer loop (R132) tries its candidate at the candidate's match length. -/
theorem scanCandidates_succ (fuel : Nat) {s : State} (hcap : s.maxlen = min s.cfg.L (s.inLen - s.ip)) :
    scanCandidates (fuel + 1) s =
      scanCandidates fuel (afterCandidate (matchLength s.cfg.L (input s) s.ip s.cand) s) := by
  simp only [scanCandidates, hcap, matchFrom_eq_matchLength, keepBest_eq, afterCandidate]

/-- The outer loop's invariant (R132): with the answer for the offsets up to `w`, scanning `fuel` more from `w + 1` on
gives the answer for the offsets up to `w + fuel`. -/
theorem scanCandidates_isFind (fuel w : Nat) (s : State) (hcand : s.cand = w + 1) (hw : w + fuel ≤ s.ip)
    (hcap : s.maxlen = min s.cfg.L (s.inLen - s.ip))
    (hbest : IsFind w s.cfg.L (input s) s.ip s.bestOff s.bestLen) :
    ∃ t, scanCandidates fuel s = .go t ∧ IsFind (w + fuel) s.cfg.L (input s) s.ip t.bestOff t.bestLen := by
  induction fuel generalizing w s with
  | zero => exact ⟨s, rfl, hbest⟩
  | succ f ih =>
    have hext := hbest.extend (show w < s.ip by omega)
    rw [← hcand] at hext
    obtain ⟨t, hscan, hfind⟩ := ih (w + 1) (afterCandidate (matchLength s.cfg.L (input s) s.ip s.cand) s)
      (congrArg (· + 1) hcand) (show w + 1 + f ≤ s.ip by omega) hcap (hcand ▸ hext)
    rw [Nat.add_right_comm] at hfind
    exact ⟨t, (scanCandidates_succ f hcap).trans hscan, hfind⟩

/-- `FIND` answers with the longest match of the window and the smallest offset of that length (R125). -/
theorem find_isFind (s : State) :
    ∃ t, find s = .go t ∧ IsFind s.cfg.W s.cfg.L (input s) s.ip t.bestOff t.bestLen := by
  obtain ⟨t, hscan, hfind⟩ := scanCandidates_isFind (min s.cfg.W s.ip) 0
    { s with bestOff := 0, bestLen := 0, maxlen := min s.cfg.L (s.inLen - s.ip), cand := 1 }
    rfl (by simp) rfl (isFind_empty_window _ _ _)
  rw [Nat.zero_add] at hfind
  exact ⟨t, hscan, isFind_min_window.mp hfind⟩

/-- Settles O25: the answer is the scan's invariant at the whole window, the frame is what `FIND` can write at all. -/
theorem findMeetsItsContract : Obligations.FindMeetsItsContract := by
  unfold Obligations.FindMeetsItsContract
  intro s
  obtain ⟨t, hfind, hbest⟩ := find_isFind s
  obtain ⟨u, hgo, hsearched⟩ := find_cases s
  obtain rfl : t = u := Flow.go.inj (hfind.symm.trans hgo)
  exact ⟨t, hfind, hbest, hsearched.frame⟩

end Sys2Proof.Safety

/-! LZ77.COMPRESS, one step inside the input, and the obligation on a match too short to be used. -/

namespace Sys2Proof.Safety

open Sys2Proof.Machine

/-- R129: an answer of `FIND` is no longer than any other, for its length is the match length of some candidate. -/
theorem IsFind.len_le {W L i off len off' len' : Nat} {d : List Byte} (h : IsFind W L d i off len)
    (h' : IsFind W L d i off' len') : len ≤ len' := by
  rcases h with ⟨-, rfl, -⟩ | ⟨hpos, hin, -, rfl, -, -⟩
  · exact Nat.zero_le len'
  · exact h'.matchLength_le hpos hin

/-- The contract of `FIND` fixes the length (R129). -/
theorem IsFind.len_unique {W L i off len off' len' : Nat} {d : List Byte} (h : IsFind W L d i off len)
    (h' : IsFind W L d i off' len') : len = len' :=
  Nat.le_antisymm (h.len_le h') (h'.len_le h)

/-- A step of running LZ77.COMPRESS is one iteration of its loop. -/
theorem exec_lz77Compress_running {s : State} (hrun : s.running 0x01#8) :
    exec .lz77Compress s = (lz77CompressIterate s).outcome :=
  commandStep_running hrun

/-- R140: inside the input the loop's body emits the token for what `FIND` has found. -/
theorem lz77CompressIterate_find {s u : State} (hip : s.ip < s.inLen) (hfind : find s = .go u) :
    lz77CompressIterate s = emitToken u := by
  rw [lz77CompressIterate, if_pos hip, hfind, Flow.andThen_go]

/-- R142: below MIN_MATCH the match is not used. -/
theorem emitToken_short {s : State} (hshort : s.bestLen < Config.minMatch) : emitToken s = emitLiteral s :=
  if_neg (Nat.not_le_of_lt hshort)

/-- The state after the token LIT for the byte at `ip` (R143). -/
def literalEmitted (s : State) : State :=
  { s.appended [litTag, s.inByte s.ip] with ip := s.ip + 1 }

/-- R143: where two bytes fit, the literal is emitted whole. -/
theorem emitLiteral_room {s : State} (hip : s.ip < s.inLen) (hroom : s.hasRoom 2) :
    emitLiteral s = .go (literalEmitted s) := by
  rw [emitLiteral, readIn_eq hip]
  exact congrArg (Flow.andThen · _) (emitAll_room [litTag, s.inByte s.ip] hroom)

/-- OUT after the token: the tag, then the byte, and every other position as it was. -/
theorem outByte_literalEmitted (s : State) (q : Nat) :
    (literalEmitted s).outByte q =
      if q = s.outLen + 1 then s.inByte s.ip else if q = s.outLen then litTag else s.outByte q := by
  change (s.appended [litTag, s.inByte s.ip]).outByte q = _
  rw [State.appended_cons, State.appended_cons, State.appended_nil, State.outByte_pushOut, State.outByte_pushOut,
    State.pushOut_outLen]

/-- R142, R143: a step of running LZ77.COMPRESS whose match is too short emits the literal. -/
theorem exec_lz77Compress_short {s u : State} (hrun : s.running 0x01#8) (hip : s.ip < s.inLen)
    (hfind : find s = .go u) (hshort : u.bestLen < Config.minMatch) (hinside : u.ip < u.inLen) (hroom : u.hasRoom 2) :
    exec .lz77Compress s = .next (literalEmitted u) := by
  rw [exec_lz77Compress_running hrun, lz77CompressIterate_find hip hfind, emitToken_short hshort,
    emitLiteral_room hinside hroom, Flow.outcome_go]

/-- Settles O27: `FIND` finds a match of the given length, so the step's token is the literal, and the search writes
nothing that the token reads. -/
theorem shortMatchBecomesALiteral : Obligations.ShortMatchBecomesALiteral := by
  unfold Obligations.ShortMatchBecomesALiteral
  intro s o l hrun hip hanswer hshort hroom
  obtain ⟨u, hfind, hfound, hframe⟩ := findMeetsItsContract s
  have hlen : u.bestLen < Config.minMatch := (hfound.len_unique hanswer).trans_lt hshort
  obtain ⟨cand, k, maxlen, bestOff, bestLen, rfl⟩ : ∃ c k m bo bl, u = { s with
      cand := c, k := k, maxlen := m, bestOff := bo, bestLen := bl } := ⟨_, _, _, _, _, hframe⟩
  refine ⟨_, exec_lz77Compress_short hrun hip hfind hlen hip hroom, rfl, rfl, ?tag, ?byte, ?others, rfl⟩
  case tag => rw [outByte_literalEmitted, if_neg (by simp), if_pos rfl, litTag]
  case byte => rw [outByte_literalEmitted, if_pos rfl]; rfl
  case others =>
    intro q htag hbyte
    rw [outByte_literalEmitted, if_neg hbyte, if_neg htag]; rfl

end Sys2Proof.Safety

/-! LZ77.DECOMPRESS, the token LIT where its payload is there and its byte fits, and the obligation on it. -/

namespace Sys2Proof.Safety

open Sys2Proof.Machine

/-- A step of a LIT token, while LZ77.DECOMPRESS runs, is the token's own flow. -/
theorem exec_lit_running {s : State} (byte : Byte) (hrun : s.running 0x03#8) :
    exec (.lit byte) s = (litToken byte s).outcome :=
  recordStep_running hrun

/-- The state after the token LIT with the payload `byte` (R157). -/
def litApplied (byte : Byte) (s : State) : State :=
  { s.pushOut byte with tag := litTag, ip := s.ip + 2 }

/-- R157: a whole token whose byte fits appends it and passes the token's two bytes. -/
theorem litToken_room {s : State} (byte : Byte) (hwhole : s.ip + 1 < s.inLen) (hroom : s.hasRoom 1) :
    litToken byte s = .go (litApplied byte s) := by
  have hemit : emit byte { s with tag := litTag } = .go (State.pushOut byte { s with tag := litTag }) :=
    emit_room byte hroom
  rw [litToken, if_neg (Nat.not_le_of_lt hwhole), hemit, Flow.andThen_go]
  rfl

/-- OUT after the token: its byte at the end, and every other position as it was. -/
theorem outByte_litApplied (byte : Byte) (s : State) (q : Nat) :
    (litApplied byte s).outByte q = if q = s.outLen then byte else s.outByte q :=
  State.outByte_pushOut byte s q

/-- Settles O31: the token is whole and its byte fits, so the step appends the byte and passes the token. -/
theorem litAppendsItsByte : Obligations.LitAppendsItsByte := by
  unfold Obligations.LitAppendsItsByte
  intro s byte hrun hwhole hroom
  refine ⟨litApplied byte s, ?step, rfl, rfl, ?appended, ?others, rfl⟩
  case step => rw [exec_lit_running byte hrun, litToken_room byte hwhole hroom, Flow.outcome_go]
  case appended => rw [outByte_litApplied, if_pos rfl]
  case others =>
    intro q hq
    rw [outByte_litApplied, if_neg hq]

end Sys2Proof.Safety

/-! A call as a run (R176): the host's moves one by one, the command's start, and the state after it has returned. -/

namespace Sys2Proof.Safety

open Sys2Proof.Machine

/-! Runs, by their first step. -/

theorem run_next {s t : State} (h : step s = .next t) (k : Nat) : core.run (k + 1) s = core.run k t := by
  have hstep : core.step s = .next t := h
  simp only [Host.Core.run, hstep]

theorem run_fault {s : State} {e : Fault} (h : step s = .fault e) (k : Nat) : core.run (k + 1) s = .fault e := by
  have hstep : core.step s = .fault e := h
  simp only [Host.Core.run, hstep]

theorem run_refused {s : State} {e : Refusal} (h : step s = .refused e) (k : Nat) :
    core.run (k + 1) s = .refused e := by
  have hstep : core.step s = .refused e := h
  simp only [Host.Core.run, hstep]

/-! The host fills IN. -/

theorem step_writeIn {s : State} (hidle : s.status.busy = false) (p : Nat) (v : Byte) (q : List HostOp) :
    step { s with hostQ := .writeIn p v :: q } = hostWriteIn p v { s with hostQ := q } := by
  simp [step, hidle]

theorem hostWriteIn_fits {s : State} {p : Nat} (v : Byte) (h : ∀ cap ∈ s.cfg.inCap, p < cap) :
    hostWriteIn p v s = .next { s with inBuf := Memory.write s.inBuf p v } :=
  if_pos ((insideCapacity_eq_true p s.cfg.inCap).mpr h)

theorem hostWriteIn_outside {s : State} {p cap : Nat} (v : Byte) (hcap : s.cfg.inCap = some cap) (h : cap ≤ p) :
    hostWriteIn p v s = .fault (.hostWriteOutsideIn p) := by
  simp [hostWriteIn, insideCapacity, hcap, h]

/-- Data that fits is written whole. -/
theorem run_loadOps {s : State} (hidle : s.status.busy = false) (p : Nat) (vs : List Byte)
    (hfits : ∀ cap ∈ s.cfg.inCap, p + vs.length ≤ cap) (q : List HostOp) (k : Nat) :
    core.run (vs.length + k) { s with hostQ := loadOps p vs ++ q } =
      core.run k { s with inBuf := Memory.writeAll s.inBuf p vs, hostQ := q } := by
  induction vs generalizing s p with
  | nil => rw [List.length_nil, Nat.zero_add]; rfl
  | cons v vs ih =>
    simp only [List.length_cons] at hfits ⊢
    have hinside : ∀ cap ∈ s.cfg.inCap, p < cap := fun cap hcap => by have := hfits cap hcap; omega
    have hstep : step { s with hostQ := loadOps p (v :: vs) ++ q } =
        .next { s with inBuf := Memory.write s.inBuf p v, hostQ := loadOps (p + 1) vs ++ q } :=
      (step_writeIn hidle p v _).trans (hostWriteIn_fits v hinside)
    rw [Nat.add_right_comm, run_next hstep]
    exact ih (s := { s with inBuf := Memory.write s.inBuf p v }) hidle (p + 1)
      fun cap hcap => by have := hfits cap hcap; omega

/-- Data that does not fit stops the model at the first position outside IN (log 9). -/
theorem run_loadOps_outside {s : State} {cap : Nat} (hidle : s.status.busy = false) (hcap : s.cfg.inCap = some cap)
    (p : Nat) (vs : List Byte) (hp : p ≤ cap) (hover : cap < p + vs.length) (q : List HostOp) (k : Nat) :
    core.run (vs.length + k) { s with hostQ := loadOps p vs ++ q } = .fault (.hostWriteOutsideIn cap) := by
  induction vs generalizing s p with
  | nil => rw [List.length_nil] at hover; omega
  | cons v vs ih =>
    simp only [List.length_cons] at hover ⊢
    have hstep := step_writeIn hidle p v (loadOps (p + 1) vs ++ q)
    rw [Nat.add_right_comm]
    rcases Nat.eq_or_lt_of_le hp with rfl | hlt
    · exact run_fault (hstep.trans (hostWriteIn_outside v hcap le_rfl)) _
    · have hinside : ∀ c ∈ s.cfg.inCap, p < c := fun c hc => by simp_all
      rw [loadOps, List.cons_append, run_next (hstep.trans (hostWriteIn_fits v hinside))]
      exact ih (s := { s with inBuf := Memory.write s.inBuf p v }) hidle hcap (p + 1) hlt (by omega)

/-! The whole transaction. -/

/-- What the host collects from the outcome of a run. -/
def collectOutcome : Host.Outcome State Fault Refusal → Option CallResult
  | .next t => collect t
  | .fault _ => none
  | .refused _ => none

theorem call_eq (code : Byte) (d : List Byte) (s : State) :
    call code d s = collectOutcome (core.run (callSteps d) (withTransaction code d s)) := rfl

/-- The state with the data in IN and only the write of CMD still to come. -/
def launched (code : Byte) (d : List Byte) (s : State) : State :=
  { s with inBuf := Memory.writeAll s.inBuf 0 d, inLen := d.length, hostQ := [.writeCmd code] }

theorem step_writeInLen {s : State} (hidle : s.status.busy = false) {n : Nat} (hfits : ∀ cap ∈ s.cfg.inCap, n ≤ cap)
    (q : List HostOp) : step { s with hostQ := .writeInLen n :: q } = .next { s with hostQ := q, inLen := n } := by
  simp [step, hidle, hostWriteInLen, (inOverCapacity_eq_false n s.cfg).mpr hfits]

/-- A call with data that fits is what the command does with the data in IN. -/
theorem call_of_ready {d : List Byte} {s : State} (h : Ready d s) (code : Byte) :
    call code d s = collectOutcome (core.run (d.length + 2) (launched code d s)) := by
  have hload := run_loadOps h.notBusy 0 d (by simpa using h.fits) [.writeInLen d.length, .writeCmd code] (d.length + 3)
  have hlen := step_writeInLen (s := { s with inBuf := Memory.writeAll s.inBuf 0 d }) h.notBusy h.fits
    [.writeCmd code]
  rw [call_eq, callSteps, show 2 * d.length + 3 = d.length + (d.length + 3) by omega]
  exact congrArg collectOutcome (hload.trans (run_next hlen _))

/-- A call with data that does not fit has no result. -/
theorem call_of_not_fits {d : List Byte} {s : State} {cap : Nat} (hidle : s.status.busy = false)
    (hcap : s.cfg.inCap = some cap) (hover : cap < d.length) (code : Byte) : call code d s = none := by
  have hload := run_loadOps_outside hidle hcap 0 d (Nat.zero_le cap) (by omega)
    [.writeInLen d.length, .writeCmd code] (d.length + 3)
  rw [call_eq, callSteps, show 2 * d.length + 3 = d.length + (d.length + 3) by omega]
  exact congrArg collectOutcome hload

/-! The command's start. -/

/-- The command with its registers initialised (R40), before what stands in front of its loop. -/
def started (code : Byte) (d : List Byte) (s : State) : State :=
  State.startCommand code { s with inBuf := Memory.writeAll s.inBuf 0 d, inLen := d.length, hostQ := [] }

/-- The write of CMD starts the command. -/
theorem step_launched {d : List Byte} {s : State} (h : Ready d s) {code : Byte} {i : Instr}
    {enter iterate : State → Flow} (hdecode : decodeCommand code = .ok i)
    (hexec : exec i = commandStep code enter iterate) :
    step (launched code d s) = (enter (started code d s)).outcome := by
  have hstep : step (launched code d s) = exec i { launched code d s with hostQ := [] } := by
    simp [step, launched, h.notBusy, hdecode]
  rw [hstep, hexec]
  exact commandStep_idle h.notBusy ((inOverCapacity_eq_false _ _).mpr h.fits)

/-- The stream the host has written is the command's input. -/
theorem input_started (code : Byte) (d : List Byte) (s : State) : input (started code d s) = d := by
  refine List.ext_getElem? fun p => ?_
  rw [input_getElem?]
  rcases Nat.lt_or_ge p d.length with hp | hp
  · have hread : Memory.read (Memory.writeAll s.inBuf 0 d) p = some d[p] := by
      rw [Memory.read_writeAll, if_pos (by omega), Nat.sub_zero, List.getElem?_eq_getElem hp]
    rw [readIn_eq hp, List.getElem?_eq_getElem hp]
    simp [started, State.inByte, hread]
  · rw [readIn_eq_none hp, List.getElem?_eq_none hp]

/-! While a command runs, and after it has returned. -/

/-- A command runs, and the host has no move left. -/
structure InRun (s : State) : Prop where
  quiet : s.hostQ = []
  busy : s.status.busy = true
  notDone : s.status.done = false
  noErr : s.status.err = false

theorem inRun_started (code : Byte) (d : List Byte) (s : State) : InRun (started code d s) := ⟨rfl, rfl, rfl, rfl⟩

/-- The command has returned `r`, and the host has no move left. -/
structure Returned (r : CallResult) (s : State) : Prop where
  quiet : s.hostQ = []
  idle : s.status.busy = false
  collected : collect s = some r

/-- A state in which the command has returned stays as it is (R214). -/
theorem Returned.step {r : CallResult} {s : State} (h : Returned r s) : step s = .next s := by
  simp [Machine.step, h.idle, h.quiet]

theorem Returned.run {r : CallResult} {s : State} (h : Returned r s) (k : Nat) : core.run k s = .next s := by
  induction k with
  | zero => rfl
  | succ k ih => rw [run_next h.step, ih]

theorem InRun.returned_closeOk {s : State} (h : InRun s) : Returned (.ok (produced s)) s.closeOk where
  quiet := h.quiet
  idle := rfl
  collected := by simp [collect, h.noErr, result, produced, State.outByte]

theorem errorKindOf_errorCode (kind : ErrorKind) : errorKindOf (errorCode kind) = some kind := by
  cases kind <;> rfl

theorem InRun.returned_raiseError {s : State} (h : InRun s) (kind : ErrorKind) (pos exp obs : Nat) :
    Returned (.err kind pos exp obs) (s.raiseError kind pos exp obs) where
  quiet := h.quiet
  idle := rfl
  collected := by simp [collect, errorKindOf_errorCode]

end Sys2Proof.Safety

/-! The four commands on the empty stream (R179). -/

namespace Sys2Proof.Safety

open Sys2Proof.Machine

/-- R73: the four legal values of CMD. -/
theorem command_cases {code : Byte} (h : code.toNat < 4) :
    code = 0x00#8 ∨ code = 0x01#8 ∨ code = 0x02#8 ∨ code = 0x03#8 := by
  bv_omega

/-- At the end of the input a busy engine runs its command (log 18). -/
theorem fetch_at_end {s : State} {i : Instr} (hend : s.inLen ≤ s.ip) (hdecode : decodeCommand s.cmd = .ok i) :
    fetch s = .ok i := by
  have hwindow : recordWindow s = [] := by
    simp [recordWindow, readIn_eq_none hend, readIn_eq_none (show s.inLen ≤ s.ip + 1 by omega),
      readIn_eq_none (show s.inLen ≤ s.ip + 2 by omega)]
  simp [fetch, hdecode, hwindow, decodeRle, decodeLz77, recordOr]

/-- No data fits any IN. -/
theorem ready_nil {s : State} (hidle : s.status.busy = false) : Ready [] s := ⟨hidle, fun cap _ => Nat.zero_le cap⟩

/-- A command started on no data with nothing to do before its loop returns no bytes: one step starts it, the next finds
the end of the input. -/
theorem call_empty_of_loop {code : Byte} {s : State} {i : Instr} {enter iterate : State → Flow}
    (hidle : s.status.busy = false) (hdecode : decodeCommand code = .ok i)
    (hexec : exec i = commandStep code enter iterate)
    (henter : enter (started code [] s) = .go (started code [] s))
    (hend : iterate (started code [] s) = returnOk (started code [] s)) :
    call code [] s = some (.ok []) := by
  have hstart : step (launched code [] s) = .next (started code [] s) := by
    rw [step_launched (ready_nil hidle) hdecode hexec, henter, Flow.outcome_go]
  have hfinish : step (started code [] s) = .next (started code [] s).closeOk := by
    have hfetch : fetch (started code [] s) = .ok i := fetch_at_end (Nat.zero_le 0) hdecode
    have hstep : step (started code [] s) = exec i (started code [] s) := by
      rw [step, if_pos (inRun_started code [] s).busy, hfetch]
    have hrun : (started code [] s).running code := ⟨rfl, rfl⟩
    rw [hstep, hexec, commandStep_running hrun, hend]
    rfl
  rw [call_of_ready (ready_nil hidle), List.length_nil, run_next hstart, run_next hfinish]
  exact (inRun_started code [] s).returned_closeOk.collected

/-- RLE.COMPRESS that ends without a run (R101) has returned no bytes. -/
theorem returned_without_run (d : List Byte) (s : State) :
    Returned (.ok []) (State.closeOk { started 0x00#8 d s with cnt := 0#16 }) :=
  InRun.returned_closeOk (s := { started 0x00#8 d s with cnt := 0#16 }) ⟨rfl, rfl, rfl, rfl⟩

/-- RLE.COMPRESS of no data returns in its first step (R101). -/
theorem call_empty_rleCompress {s : State} (hidle : s.status.busy = false) : call 0x00#8 [] s = some (.ok []) := by
  have hstart : step (launched 0x00#8 [] s) = .next (State.closeOk { started 0x00#8 [] s with cnt := 0#16 }) :=
    step_launched (ready_nil hidle) (i := .rleCompress) rfl rfl
  have hreturned := returned_without_run [] s
  rw [call_of_ready (ready_nil hidle), run_next hstart, hreturned.run]
  exact hreturned.collected

/-- Settles O58: RLE.COMPRESS returns at its start, the other three at the end of the input, where they start. -/
theorem emptyInputGivesEmptyOutput : Obligations.EmptyInputGivesEmptyOutput := by
  unfold Obligations.EmptyInputGivesEmptyOutput
  intro code s hcode hidle
  rcases command_cases hcode with rfl | rfl | rfl | rfl
  · exact call_empty_rleCompress hidle
  · exact call_empty_of_loop hidle (i := .lz77Compress) rfl rfl rfl rfl
  · exact call_empty_of_loop hidle (i := .rleDecompress) rfl rfl rfl rfl
  · exact call_empty_of_loop hidle (i := .lz77Decompress) rfl rfl rfl rfl

end Sys2Proof.Safety

/-! What a running command sees of its state, and each operation of it in two states that look alike. -/

namespace Sys2Proof.Safety

open Sys2Proof.Machine

/-- What a running command can depend on: the parameters, its command and flags, the host's moves, the cursor, the input
stream, what it has appended, and the open run of RLE.COMPRESS. Every other register it writes before it reads. -/
structure View where
  cfg : Config
  cmd : Byte
  status : Status
  hostQ : List HostOp
  ip : Nat
  input : List Byte
  produced : List Byte
  openRun : Option (Byte × RunCount)

/-- The view of a state. -/
def view (s : State) : View where
  cfg := s.cfg
  cmd := s.cmd
  status := s.status
  hostQ := s.hostQ
  ip := s.ip
  input := input s
  produced := produced s
  openRun := if s.cmd = 0x00#8 then some (s.cur, s.cnt) else none

@[simp] theorem produced_length (s : State) : (produced s).length = s.outLen := by simp [produced]

/-- A position of the output so far is what a read of OUT gives there, and nothing past `out_len`. -/
theorem produced_getElem? (s : State) (q : Nat) : (produced s)[q]? = readOut q s := by
  rcases Nat.lt_or_ge q s.outLen with hq | hq
  · rw [produced, readOut_eq hq, List.getElem?_map, List.getElem?_range hq, Option.map_some]
  · rw [readOut, if_neg (Nat.not_lt.mpr hq), List.getElem?_eq_none (by simpa using hq)]

theorem produced_pushOut (v : Byte) (s : State) : produced (s.pushOut v) = produced s ++ [v] := by
  rw [produced, State.pushOut_outLen, List.range_succ, List.map_append, List.map_singleton, State.outByte_pushOut,
    if_pos rfl, produced]
  refine congrArg (· ++ [v]) (List.map_congr_left fun q hq => ?_)
  rw [State.outByte_pushOut, if_neg (Nat.ne_of_lt (List.mem_range.mp hq))]

theorem view_pushOut (v : Byte) (s : State) :
    view (s.pushOut v) = { view s with produced := (view s).produced ++ [v] } := by
  simp only [view, produced_pushOut]
  rfl

/-- Two states in which a command runs and sees the same. -/
structure Agree (s u : State) : Prop where
  view : view s = view u
  inRun : InRun s

namespace Agree

variable {s u s' u' : State}

theorem cfg (h : Agree s u) : s.cfg = u.cfg := congrArg View.cfg h.view
theorem cmd (h : Agree s u) : s.cmd = u.cmd := congrArg View.cmd h.view
theorem status (h : Agree s u) : s.status = u.status := congrArg View.status h.view
theorem hostQ (h : Agree s u) : s.hostQ = u.hostQ := congrArg View.hostQ h.view
theorem ip (h : Agree s u) : s.ip = u.ip := congrArg View.ip h.view
theorem input (h : Agree s u) : input s = input u := congrArg View.input h.view
theorem produced (h : Agree s u) : produced s = produced u := congrArg View.produced h.view

theorem inLen (h : Agree s u) : s.inLen = u.inLen := by simpa using congrArg List.length h.input
theorem outLen (h : Agree s u) : s.outLen = u.outLen := by simpa using congrArg List.length h.produced

theorem readIn (h : Agree s u) {p q : Nat} (hpq : p = q) : readIn p s = readIn q u := by
  rw [← input_getElem?, ← input_getElem?, h.input, hpq]

theorem readOut (h : Agree s u) {p q : Nat} (hpq : p = q) : readOut p s = readOut q u := by
  rw [← produced_getElem?, ← produced_getElem?, h.produced, hpq]

/-- In RLE.COMPRESS the open runs are the same. -/
theorem openRun (h : Agree s u) (hcmd : s.cmd = 0x00#8) : s.cur = u.cur ∧ s.cnt = u.cnt := by
  have hview : (Safety.view s).openRun = (Safety.view u).openRun := congrArg View.openRun h.view
  simpa [Safety.view, hcmd, h.cmd ▸ hcmd] using hview

theorem inRun_right (h : Agree s u) : InRun u where
  quiet := h.hostQ ▸ h.inRun.quiet
  busy := h.status ▸ h.inRun.busy
  notDone := h.status ▸ h.inRun.notDone
  noErr := h.status ▸ h.inRun.noErr

/-- A register that the view leaves out may be written freely. -/
theorem congr (h : Agree s u) (hs : Safety.view s' = Safety.view s) (hu : Safety.view u' = Safety.view u) :
    Agree s' u' where
  view := hs.trans (h.view.trans hu.symm)
  inRun :=
    { quiet := (congrArg View.hostQ hs).trans h.inRun.quiet
      busy := (congrArg (·.status.busy) hs).trans h.inRun.busy
      notDone := (congrArg (·.status.done) hs).trans h.inRun.notDone
      noErr := (congrArg (·.status.err) hs).trans h.inRun.noErr }

theorem pushOut (h : Agree s u) (v : Byte) : Agree (s.pushOut v) (u.pushOut v) where
  view := by rw [view_pushOut, view_pushOut, h.view]
  inRun := ⟨h.inRun.quiet, h.inRun.busy, h.inRun.notDone, h.inRun.noErr⟩

theorem appended (h : Agree s u) (vs : List Byte) : Agree (s.appended vs) (u.appended vs) := by
  induction vs generalizing s u with
  | nil => exact h
  | cons v vs ih =>
    rw [State.appended_cons, State.appended_cons]
    exact ih (h.pushOut v)

/-- Both cursors move alike. -/
theorem advance (h : Agree s u) {m n : Nat} (hmn : m = n) :
    Agree { s with ip := s.ip + m } { u with ip := u.ip + n } where
  view := hmn ▸ congrArg (fun v => { v with ip := v.ip + m }) h.view
  inRun := ⟨h.inRun.quiet, h.inRun.busy, h.inRun.notDone, h.inRun.noErr⟩

end Agree

/-- Two flows that go on in the relation `R`, have returned the same result, or stop for the same reason. -/
inductive Matched (R : State → State → Prop) : Flow → Flow → Prop where
  | go {s u : State} (h : R s u) : Matched R (.go s) (.go u)
  | ended {r : CallResult} {s u : State} (hs : Returned r s) (hu : Returned r u) : Matched R (.ended s) (.ended u)
  | stop (e : Fault) : Matched R (.stop e) (.stop e)

section

variable {R : State → State → Prop} {s u : State}

theorem Matched.andThen {Q : State → State → Prop} {x y : Flow} {f g : State → Flow} (h : Matched R x y)
    (hfg : ∀ t w, R t w → Matched Q (f t) (g w)) : Matched Q (x.andThen f) (y.andThen g) := by
  cases h with
  | go h => exact hfg _ _ h
  | ended hs hu => exact .ended hs hu
  | stop e => exact .stop e

theorem Matched.ite {p q : Prop} [Decidable p] [Decidable q] {x x' y y' : Flow} (hpq : p ↔ q)
    (hthen : Matched R x y) (helse : Matched R x' y') :
    Matched R (if p then x else x') (if q then y else y') := by
  by_cases hp : p
  · rwa [if_pos hp, if_pos (hpq.mp hp)]
  · rwa [if_neg hp, if_neg (mt hpq.mpr hp)]

theorem raise_matched (h : Agree s u) (kind : ErrorKind) {p p' e e' o o' : Nat} (hp : p = p') (he : e = e')
    (ho : o = o') : Matched R (raise kind p e o s) (raise kind p' e' o' u) := by
  subst hp he ho
  exact .ended (h.inRun.returned_raiseError kind p e o) (h.inRun_right.returned_raiseError kind p e o)

theorem returnOk_matched (h : Agree s u) : Matched R (returnOk s) (returnOk u) :=
  .ended h.inRun.returned_closeOk (h.produced ▸ h.inRun_right.returned_closeOk)

/-! Appending. -/

theorem emit_matched (h : Agree s u) (v : Byte) (hgo : R (s.pushOut v) (u.pushOut v)) :
    Matched R (emit v s) (emit v u) := by
  simp only [emit, ← h.cfg, ← h.outLen]
  cases s.cfg.outCap with
  | none => exact .go hgo
  | some cap =>
    simp only []
    split
    · exact raise_matched h _ h.ip rfl rfl
    · exact .go hgo

theorem emitAll_matched (vs : List Byte) (h : Agree s u) (hgo : R (s.appended vs) (u.appended vs)) :
    Matched R (emitAll vs s) (emitAll vs u) := by
  induction vs generalizing s u with
  | nil => exact .go hgo
  | cons v vs ih =>
    rw [State.appended_cons, State.appended_cons] at hgo
    refine (emit_matched (R := fun t w => t = s.pushOut v ∧ w = u.pushOut v) h v ⟨rfl, rfl⟩).andThen ?_
    rintro _ _ ⟨rfl, rfl⟩
    exact ih (h.pushOut v) hgo

end

/-! RLE.DECOMPRESS. -/

section

variable {s u : State}

theorem repLoop_matched (n : Nat) (h : Agree s u) (hval : s.val = u.val) :
    Matched Agree (repLoop n s) (repLoop n u) := by
  induction n generalizing s u with
  | zero => exact .go h
  | succ n ih =>
    rw [repLoop, repLoop, ← hval]
    refine (emit_matched (R := fun t w => Agree t w ∧ t.val = w.val) h s.val ⟨h.pushOut s.val, hval⟩).andThen ?_
    rintro t w ⟨hagree, hval⟩
    exact ih (hagree.congr rfl rfl) hval

theorem repRecord_matched (value count : Byte) (h : Agree s u) :
    Matched Agree (repRecord value count s) (repRecord value count u) := by
  have hfields : Agree { s with val := value, rem := count } { u with val := value, rem := count } := h.congr rfl rfl
  exact (repLoop_matched _ hfields rfl).andThen fun _ _ h => .go (h.advance rfl)

/-- Both cursors are inside the input or both are at its end. -/
theorem Agree.inside_iff (h : Agree s u) : s.ip < s.inLen ↔ u.ip < u.inLen := by rw [h.ip, h.inLen]

theorem rleDecompressIterate_matched (h : Agree s u) :
    Matched Agree (rleDecompressIterate s) (rleDecompressIterate u) := by
  have hvalue := h.readIn h.ip
  have hcount := h.readIn (congrArg (· + 1) h.ip)
  refine Matched.ite h.inside_iff ?_ (returnOk_matched h)
  simp only [← hvalue, ← hcount]
  split
  · exact .stop _
  · split
    · exact .stop _
    · exact repRecord_matched _ _ h

/-! LZ77.DECOMPRESS. -/

theorem truncatedToken_matched {R : State → State → Prop} (need : Nat) (h : Agree s u) :
    Matched R (truncatedToken need s) (truncatedToken need u) :=
  raise_matched h _ h.ip rfl (by rw [h.inLen, h.ip])

theorem litToken_matched (byte : Byte) (h : Agree s u) : Matched Agree (litToken byte s) (litToken byte u) := by
  have htag : Agree { s with tag := litTag } { u with tag := litTag } := h.congr rfl rfl
  refine Matched.ite (by rw [htag.inLen, htag.ip]) (truncatedToken_matched 2 htag) ?_
  exact (emit_matched htag byte (htag.pushOut byte)).andThen fun _ _ h => .go (h.advance rfl)

theorem copySpan_matched (n : Nat) (h : Agree s u) (hoff : s.off = u.off) :
    Matched Agree (copySpan n s) (copySpan n u) := by
  induction n generalizing s u with
  | zero => exact .go h
  | succ n ih =>
    have hread : readOut (s.outLen - fieldValue s.off) s = readOut (u.outLen - fieldValue u.off) u :=
      h.readOut (by rw [h.outLen, hoff])
    simp only [copySpan, ← hread]
    cases readOut (s.outLen - fieldValue s.off) s with
    | none => exact .stop _
    | some b =>
      refine (emit_matched (R := fun t w => Agree t w ∧ t.off = w.off) h b ⟨h.pushOut b, hoff⟩).andThen ?_
      rintro t w ⟨hagree, hoff⟩
      exact ih (hagree.congr rfl rfl) hoff

theorem matchToken_matched (offset length : Byte) (h : Agree s u) :
    Matched Agree (matchToken offset length s) (matchToken offset length u) := by
  have htag : Agree { s with tag := matchTag } { u with tag := matchTag } := h.congr rfl rfl
  have hfields : Agree { s with tag := matchTag, off := offset, len := length }
      { u with tag := matchTag, off := offset, len := length } := h.congr rfl rfl
  refine Matched.ite (by rw [htag.inLen, htag.ip]) (truncatedToken_matched 3 htag) ?_
  refine Matched.ite (by rw [hfields.outLen]) (raise_matched hfields _ h.ip h.outLen rfl) ?_
  exact (copySpan_matched _ hfields rfl).andThen fun _ _ h => .go (h.advance rfl)

theorem illegalToken_matched (tag : Byte) (h : Agree s u) :
    Matched Agree (illegalToken tag s) (illegalToken tag u) := by
  have htag : Agree { s with tag := tag } { u with tag := tag } := h.congr rfl rfl
  exact raise_matched htag _ h.ip rfl rfl

theorem lz77DecompressIterate_matched (h : Agree s u) :
    Matched Agree (lz77DecompressIterate s) (lz77DecompressIterate u) := by
  have hread := h.readIn h.ip
  have hread1 := h.readIn (congrArg (· + 1) h.ip)
  have hread2 := h.readIn (congrArg (· + 2) h.ip)
  have htag : ∀ tag, Agree { s with tag := tag } { u with tag := tag } := fun tag => h.congr rfl rfl
  refine Matched.ite h.inside_iff ?_ (returnOk_matched h)
  simp only [← hread, ← hread1, ← hread2]
  split
  case h_1 => exact .stop _
  case h_2 tag _ =>
    refine Matched.ite Iff.rfl ?lit (Matched.ite Iff.rfl ?matchTok (illegalToken_matched tag h))
    case lit =>
      split
      · exact truncatedToken_matched 2 (htag tag)
      · exact litToken_matched _ h
    case matchTok =>
      split
      · exact matchToken_matched _ _ h
      · exact truncatedToken_matched 3 (htag tag)

/-! RLE.COMPRESS. -/

/-- The overflow flags follow equal counters. -/
theorem Agree.afterRecord (h : Agree s u) {c c' : RunCount} (hc : c = c') :
    Agree { s with status := statusAfterRecord c s.status } { u with status := statusAfterRecord c' u.status } where
  view := hc ▸ congrArg (fun v => { v with status := statusAfterRecord c v.status }) h.view
  inRun := ⟨h.inRun.quiet, h.inRun.busy, h.inRun.notDone, h.inRun.noErr⟩

/-- The open runs become equal ones, and both cursors pass a byte. -/
theorem Agree.setRun (h : Agree s u) {cur cur' : Byte} {cnt cnt' : RunCount} (hcur : cur = cur') (hcnt : cnt = cnt') :
    Agree { s with cur := cur, cnt := cnt, ip := s.ip + 1 } { u with cur := cur', cnt := cnt', ip := u.ip + 1 } where
  view := hcur ▸ hcnt ▸ congrArg (fun v => { v with
    ip := v.ip + 1, openRun := if v.cmd = 0x00#8 then some (cur, cnt) else none }) h.view
  inRun := ⟨h.inRun.quiet, h.inRun.busy, h.inRun.notDone, h.inRun.noErr⟩

theorem closeRun_matched (h : Agree s u) (hcmd : s.cmd = 0x00#8) : Matched Agree (closeRun s) (closeRun u) := by
  obtain ⟨hcur, hcnt⟩ := h.openRun hcmd
  rw [closeRun, closeRun, ← hcur, ← hcnt]
  refine (emitAll_matched (R := fun t w => Agree t w ∧ t.cmd = 0x00#8) _ h ⟨h.appended _, hcmd⟩).andThen ?_
  rintro t w ⟨hagree, hcmd⟩
  exact .go (hagree.afterRecord (hagree.openRun hcmd).2)

theorem rleCompressIterate_matched (h : Agree s u) (hcmd : s.cmd = 0x00#8) :
    Matched Agree (rleCompressIterate s) (rleCompressIterate u) := by
  obtain ⟨hcur, hcnt⟩ := h.openRun hcmd
  have hread := h.readIn h.ip
  refine Matched.ite h.inside_iff ?inside ?atEnd
  case inside =>
    simp only [← hread]
    split
    case h_1 => exact .stop _
    case h_2 b _ =>
      refine Matched.ite (by rw [hcur, hcnt]) ?absorb ?close
      case absorb => exact .go (h.setRun hcur (congrArg (· + 1#16) hcnt))
      case close => exact (closeRun_matched h hcmd).andThen fun _ _ h => .go (h.setRun rfl rfl)
  case atEnd => exact (closeRun_matched h hcmd).andThen fun _ _ h => returnOk_matched h

/-! LZ77.COMPRESS. -/

/-- The contract of `FIND` fixes the offset too: the smallest of the longest length (R130). -/
theorem IsFind.off_unique {W L i off len off' len' : Nat} {d : List Byte} (h : IsFind W L d i off len)
    (h' : IsFind W L d i off' len') : off = off' := by
  obtain rfl := h.len_unique h'
  rcases h with ⟨rfl, hzero, -⟩ | ⟨hpos, -, hlen, hmatch, -, hfirst⟩ <;>
    rcases h' with ⟨rfl, hzero', -⟩ | ⟨hpos', -, hlen', hmatch', -, hfirst'⟩
  · rfl
  · omega
  · omega
  · rcases Nat.lt_trichotomy off off' with hlt | heq | hgt
    · have := hfirst' off hpos hlt; omega
    · exact heq
    · have := hfirst off' hpos' hgt; omega

/-- `FIND` answers alike: its contract speaks of the parameters, the input and the cursor only, and it writes nothing in
the view. -/
theorem find_matched (h : Agree s u) :
    Matched (fun t w => Agree t w ∧ t.bestOff = w.bestOff ∧ t.bestLen = w.bestLen) (find s) (find u) := by
  obtain ⟨t, hfind, hfound, hframe⟩ := findMeetsItsContract s
  obtain ⟨w, hfind', hfound', hframe'⟩ := findMeetsItsContract u
  rw [← h.cfg, ← h.input, ← h.ip] at hfound'
  have hview : view t = view s := by rw [hframe]; rfl
  have hview' : view w = view u := by rw [hframe']; rfl
  rw [hfind, hfind']
  exact .go ⟨h.congr hview hview', hfound.off_unique hfound', hfound.len_unique hfound'⟩

theorem emitLiteral_matched (h : Agree s u) : Matched Agree (emitLiteral s) (emitLiteral u) := by
  have hread := h.readIn h.ip
  simp only [emitLiteral, ← hread]
  split
  case h_1 => exact .stop _
  case h_2 b _ => exact (emitAll_matched _ h (h.appended _)).andThen fun _ _ h => .go (h.advance rfl)

theorem emitMatch_matched (h : Agree s u) (hoff : s.bestOff = u.bestOff) (hlen : s.bestLen = u.bestLen) :
    Matched Agree (emitMatch s) (emitMatch u) := by
  refine Matched.ite (by rw [hoff, hlen]) (raise_matched h _ h.ip rfl (by rw [hoff, hlen])) ?_
  rw [← hoff, ← hlen]
  refine (emitAll_matched (R := fun t w => Agree t w ∧ t.bestLen = w.bestLen) _ h ⟨h.appended _, hlen⟩).andThen ?_
  rintro t w ⟨hagree, hlen⟩
  exact .go (hagree.advance hlen)

theorem lz77CompressIterate_matched (h : Agree s u) :
    Matched Agree (lz77CompressIterate s) (lz77CompressIterate u) := by
  refine Matched.ite h.inside_iff ((find_matched h).andThen ?_) (returnOk_matched h)
  rintro t w ⟨hagree, hoff, hlen⟩
  exact Matched.ite (by rw [hlen]) (emitMatch_matched hagree hoff hlen) (emitLiteral_matched hagree)

end

end Sys2Proof.Safety

/-! Two runs in lockstep, and the obligation on the independence of calls. -/

namespace Sys2Proof.Safety

open Sys2Proof.Machine

/-- Two states in which a command runs and sees the same, or has returned the same. -/
inductive Lockstep (s u : State) : Prop where
  | running (h : Agree s u)
  | returned {r : CallResult} (hs : Returned r s) (hu : Returned r u)

/-- Two outcomes in lockstep, or the same stop. -/
inductive Paired : Host.Outcome State Fault Refusal → Host.Outcome State Fault Refusal → Prop where
  | next {s u : State} (h : Lockstep s u) : Paired (.next s) (.next u)
  | fault (e : Fault) : Paired (.fault e) (.fault e)
  | refused (e : Refusal) : Paired (.refused e) (.refused e)

theorem Matched.outcome {x y : Flow} (h : Matched Agree x y) : Paired x.outcome y.outcome := by
  cases h with
  | go h => exact .next (.running h)
  | ended hs hu => exact .next (.returned hs hu)
  | stop e => exact .fault e

section

variable {s u : State}

/-- A command that runs is one iteration in both, any other is refused in both. -/
theorem commandStep_paired (h : Agree s u) {code : Byte} {enter iterate : State → Flow}
    (hiterate : s.cmd = code → Matched Agree (iterate s) (iterate u)) :
    Paired (commandStep code enter iterate s) (commandStep code enter iterate u) := by
  rw [commandStep, commandStep, if_pos h.inRun.busy, if_pos h.inRun_right.busy, ← h.cmd]
  split
  case isTrue hcmd => exact (hiterate hcmd).outcome
  case isFalse => exact .refused _

/-- A record of the decoder that runs has its meaning in both, any other is refused in both. -/
theorem recordStep_paired (h : Agree s u) {code : Byte} {record : State → Flow}
    (hrecord : Matched Agree (record s) (record u)) :
    Paired (recordStep code record s) (recordStep code record u) := by
  by_cases hrun : s.running code
  case pos =>
    have hrun' : u.running code := ⟨h.inRun_right.busy, h.cmd ▸ hrun.2⟩
    rw [recordStep_running hrun, recordStep_running hrun']
    exact hrecord.outcome
  case neg =>
    have hrun' : ¬ u.running code := fun hu => hrun ⟨h.inRun.busy, h.cmd.trans hu.2⟩
    rw [recordStep, recordStep, if_neg hrun, if_neg hrun']
    exact .refused _

theorem exec_paired (i : Instr) (h : Agree s u) : Paired (exec i s) (exec i u) := by
  cases i with
  | rleCompress => exact commandStep_paired h (rleCompressIterate_matched h)
  | lz77Compress => exact commandStep_paired h fun _ => lz77CompressIterate_matched h
  | rleDecompress => exact commandStep_paired h fun _ => rleDecompressIterate_matched h
  | lz77Decompress => exact commandStep_paired h fun _ => lz77DecompressIterate_matched h
  | rep value count => exact recordStep_paired h (repRecord_matched value count h)
  | lit byte => exact recordStep_paired h (litToken_matched byte h)
  | matchTok offset length => exact recordStep_paired h (matchToken_matched offset length h)
  | illegalTag tag => exact recordStep_paired h (illegalToken_matched tag h)

/-- The instruction fetched depends on the command, the cursor and the input only. -/
theorem fetch_agree (h : Agree s u) : fetch s = fetch u := by
  have hwindow : recordWindow s = recordWindow u := by
    simp only [recordWindow, h.ip, h.readIn rfl]
  rw [fetch, fetch, h.cmd, hwindow]

theorem step_paired (h : Lockstep s u) : Paired (step s) (step u) := by
  cases h with
  | running h =>
    rw [step, step, if_pos h.inRun.busy, if_pos h.inRun_right.busy, ← fetch_agree h]
    split
    case h_1 i _ => exact exec_paired i h
    case h_2 => exact .refused _
  | returned hs hu =>
    rw [hs.step, hu.step]
    exact .next (.returned hs hu)

theorem run_succ_paired {k : Nat} (h : Paired (step s) (step u))
    (hrun : ∀ t w, Lockstep t w → Paired (core.run k t) (core.run k w)) :
    Paired (core.run (k + 1) s) (core.run (k + 1) u) := by
  generalize hs : step s = x at h
  generalize hu : step u = y at h
  cases h with
  | next h =>
    rw [run_next hs, run_next hu]
    exact hrun _ _ h
  | fault e =>
    rw [run_fault hs, run_fault hu]
    exact .fault e
  | refused e =>
    rw [run_refused hs, run_refused hu]
    exact .refused e

theorem run_paired (k : Nat) (h : Lockstep s u) : Paired (core.run k s) (core.run k u) := by
  induction k generalizing s u with
  | zero => exact .next h
  | succ k ih => exact run_succ_paired (step_paired h) fun _ _ h => ih h

/-- While the command runs there is no result, and afterwards it is the same one. -/
theorem Lockstep.collect_eq (h : Lockstep s u) : collect s = collect u := by
  cases h with
  | running h => simp [collect, h.inRun.notDone, h.inRun_right.notDone]
  | returned hs hu => rw [hs.collected, hu.collected]

theorem Paired.collectOutcome_eq {x y : Host.Outcome State Fault Refusal} (h : Paired x y) :
    collectOutcome x = collectOutcome y := by
  cases h with
  | next h => exact h.collect_eq
  | fault e => rfl
  | refused e => rfl

/-! The start of a call. -/

/-- A started command sees the parameters and the data. -/
theorem agree_started (code : Byte) (d : List Byte) (hcfg : s.cfg = u.cfg)
    (hrun : code = 0x00#8 → s.cur = u.cur ∧ s.cnt = u.cnt) : Agree (started code d s) (started code d u) where
  view := by
    have hopen : (view (started code d s)).openRun = (view (started code d u)).openRun := by
      by_cases hcode : code = 0x00#8
      · obtain ⟨hcur, hcnt⟩ := hrun hcode
        simp [view, started, hcode, hcur, hcnt]
      · simp [view, started, hcode]
    have hinput : input (started code d s) = input (started code d u) := by
      rw [input_started, input_started]
    have hview : ∀ t, view (started code d t) =
        ⟨t.cfg, code, statusStarted, [], 0, input (started code d t), [], (view (started code d t)).openRun⟩ :=
      fun _ => rfl
    rw [hview s, hview u, hcfg, hinput, hopen]
  inRun := inRun_started code d s

/-- RLE.COMPRESS writes its open run, or returns, before it reads it. -/
theorem rleCompressEnter_matched (d : List Byte) (hcfg : s.cfg = u.cfg) :
    Matched Agree (rleCompressEnter (started 0x00#8 d s)) (rleCompressEnter (started 0x00#8 d u)) := by
  refine Matched.ite Iff.rfl ?empty ?first
  case empty => exact .ended (returned_without_run d s) (returned_without_run d u)
  case first =>
    have hread : readIn 0 (started 0x00#8 d s) = readIn 0 (started 0x00#8 d u) := by
      rw [← input_getElem?, ← input_getElem?, input_started, input_started]
    simp only [← hread]
    split
    case h_1 => exact .stop _
    case h_2 b _ =>
      have hopened := agree_started (s := { s with cur := b, cnt := 1#16 }) (u := { u with cur := b, cnt := 1#16 })
        0x00#8 d hcfg fun _ => ⟨rfl, rfl⟩
      exact .go (hopened.advance (m := 1) rfl)

theorem step_launched_paired {code : Byte} {d : List Byte} (hcode : code.toNat < 4) (hs : Ready d s) (hu : Ready d u)
    (hcfg : s.cfg = u.cfg) : Paired (step (launched code d s)) (step (launched code d u)) := by
  rcases command_cases hcode with rfl | rfl | rfl | rfl
  · rw [step_launched hs (i := .rleCompress) rfl rfl, step_launched hu (i := .rleCompress) rfl rfl]
    exact (rleCompressEnter_matched d hcfg).outcome
  · have h := agree_started 0x01#8 d hcfg (by simp)
    rw [step_launched hs (i := .lz77Compress) rfl rfl, step_launched hu (i := .lz77Compress) rfl rfl]
    exact .next (.running h)
  · have h := agree_started 0x02#8 d hcfg (by simp)
    rw [step_launched hs (i := .rleDecompress) rfl rfl, step_launched hu (i := .rleDecompress) rfl rfl]
    exact (Matched.ite Iff.rfl (raise_matched h _ rfl rfl rfl) (.go h)).outcome
  · have h := agree_started 0x03#8 d hcfg (by simp)
    rw [step_launched hs (i := .lz77Decompress) rfl rfl, step_launched hu (i := .lz77Decompress) rfl rfl]
    exact .next (.running h)

theorem call_eq_of_ready {code : Byte} {d : List Byte} (hcode : code.toNat < 4) (hs : Ready d s) (hu : Ready d u)
    (hcfg : s.cfg = u.cfg) : call code d s = call code d u := by
  rw [call_of_ready hs, call_of_ready hu]
  exact (run_succ_paired (step_launched_paired hcode hs hu hcfg) fun _ _ h => run_paired _ h).collectOutcome_eq

end

/-- Settles O60: data that fits starts the command on two states that look alike, and their runs stay in lockstep; data
that does not fit has no result on either side. -/
theorem callsAreIndependent : Obligations.CallsAreIndependent := by
  unfold Obligations.CallsAreIndependent
  intro code d s u hcode hs hu hcfg
  by_cases hfits : ∀ cap ∈ s.cfg.inCap, d.length ≤ cap
  case pos => exact call_eq_of_ready hcode ⟨hs, hfits⟩ ⟨hu, hcfg ▸ hfits⟩ hcfg
  case neg =>
    push Not at hfits
    obtain ⟨cap, hcap, hover⟩ := hfits
    rw [call_of_not_fits hs hcap hover, call_of_not_fits hu (hcfg ▸ hcap) hover]

end Sys2Proof.Safety

/-! Decoding and encoding are inverse to each other (30_encoding.md): one lemma per layer, and the obligations on them. -/

namespace Sys2Proof

/-- R73: the opcode map, by the value of CMD. -/
theorem decodeCommand_of_lt {b : Byte} (h : b.toNat < 4) :
    b = 0x00#8 ∧ decodeCommand b = .ok .rleCompress ∨ b = 0x01#8 ∧ decodeCommand b = .ok .lz77Compress ∨
    b = 0x02#8 ∧ decodeCommand b = .ok .rleDecompress ∨ b = 0x03#8 ∧ decodeCommand b = .ok .lz77Decompress := by
  rcases Safety.command_cases h with rfl | rfl | rfl | rfl <;> simp [decodeCommand]

/-- R73: a value with one of bits 7:2 set is reserved. -/
theorem decodeCommand_of_le {b : Byte} (h : 4 ≤ b.toNat) : decodeCommand b = .error (.reservedCommand b) := by
  refine if_neg fun hbits => ?_
  have hzero : b.toNat >>> 2 % 2 ^ 6 = 0 := by
    simpa [BitVec.extractLsb'_toNat] using congrArg BitVec.toNat hbits
  have hlt := b.isLt
  rw [Nat.shiftRight_eq_div_pow] at hzero
  omega

/-- Settles O4: each instruction's bytes meet the equation of its own format. -/
theorem decodeOfEncode : Obligations.DecodeOfEncode := by
  unfold Obligations.DecodeOfEncode
  intro i rest hwf
  cases i with
  | rleCompress | lz77Compress | rleDecompress | lz77Decompress => rfl
  | rep value count => exact decodeRle_cons_cons value count rest
  | lit byte => exact decodeLz77_lit byte rest
  | matchTok offset length => exact decodeLz77_matchTok offset length rest
  | illegalTag tag =>
    have htag : 2 ≤ tag.toNat := by simpa [Instr.wellFormed] using hwf
    exact decodeLz77_illegalTag htag rest

/-- What a layer has read: a well-formed instruction of that layer, from exactly its own bytes. -/
def ReadsBack (layer : Layer) (bytes : List Byte) (i : Instr) (rest : List Byte) : Prop :=
  i.wellFormed = true ∧ i.layer = layer ∧ encode i ++ rest = bytes ∧ (encode i).length = i.size

theorem decodeCommand_readsBack {b : Byte} {i : Instr} (rest : List Byte) (h : decodeCommand b = .ok i) :
    ReadsBack .command (b :: rest) i rest := by
  rcases Nat.lt_or_ge b.toNat 4 with hlt | hge
  · rcases decodeCommand_of_lt hlt with ⟨rfl, hb⟩ | ⟨rfl, hb⟩ | ⟨rfl, hb⟩ | ⟨rfl, hb⟩ <;>
      cases hb.symm.trans h <;> exact ⟨rfl, rfl, rfl, rfl⟩
  · cases (decodeCommand_of_le hge).symm.trans h

theorem decodeRle_readsBack {bytes rest : List Byte} {i : Instr} (h : decodeRle bytes = .ok (i, rest)) :
    ReadsBack .rleStream bytes i rest := by
  match bytes, h with
  | value :: count :: tail, h =>
    cases h
    exact ⟨rfl, rfl, rfl, rfl⟩

/-- R80: the tag decides the format, and the format takes all its bytes. -/
theorem decodeLz77_readsBack {bytes rest : List Byte} {i : Instr} (h : decodeLz77 bytes = .ok (i, rest)) :
    ReadsBack .lz77Stream bytes i rest := by
  cases bytes with
  | nil => cases h
  | cons tag payload =>
    by_cases hlit : tag = 0x00#8
    · subst hlit
      match payload, h with
      | byte :: tail, h =>
        cases h
        exact ⟨rfl, rfl, rfl, rfl⟩
    · by_cases hmatch : tag = 0x01#8
      · subst hmatch
        match payload, h with
        | offset :: length :: tail, h =>
          cases h
          exact ⟨rfl, rfl, rfl, rfl⟩
      · have htag : 2 ≤ tag.toNat := (two_le_tag_iff tag).mpr ⟨hlit, hmatch⟩
        cases (decodeLz77_illegalTag htag payload).symm.trans h
        exact ⟨by simpa [Instr.wellFormed] using htag, rfl, rfl, rfl⟩

/-- Settles O5: each layer reads back, by the lemma on its decoder. -/
theorem encodeOfDecode : Obligations.EncodeOfDecode := by
  unfold Obligations.EncodeOfDecode
  intro layer bytes i rest h
  cases layer with
  | command =>
    cases bytes with
    | nil => cases h
    | cons b tail =>
      cases hb : decodeCommand b with
      | error e => simp [decode, hb] at h
      | ok j =>
        obtain ⟨rfl, rfl⟩ : j = i ∧ tail = rest := by simpa [decode, hb] using h
        exact decodeCommand_readsBack tail hb
  | rleStream => exact decodeRle_readsBack h
  | lz77Stream => exact decodeLz77_readsBack h

/-- Settles O6: the RLE layer rejects lists of fewer than two bytes, the LZ77 layer a legal tag without its payload. -/
theorem streamDecoderRejectsOnlyShortInput : Obligations.StreamDecoderRejectsOnlyShortInput := by
  unfold Obligations.StreamDecoderRejectsOnlyShortInput
  intro layer bytes e hlayer h
  cases layer with
  | command => exact absurd rfl hlayer
  | rleStream =>
    match bytes, h with
    | [], h => cases h; exact .inl ⟨rfl, rfl⟩
    | [_], h => cases h; exact .inr (.inl ⟨rfl, rfl, rfl⟩)
  | lz77Stream =>
    cases bytes with
    | nil => cases h; exact .inl ⟨rfl, rfl⟩
    | cons tag payload =>
      by_cases hlit : tag = 0x00#8
      · subst hlit
        match payload, h with
        | [], h => cases h; exact .inr (.inr (.inl ⟨rfl, rfl, rfl⟩))
      · by_cases hmatch : tag = 0x01#8
        · subst hmatch
          match payload, h with
          | [], h => cases h; exact .inr (.inr (.inr ⟨rfl, rfl, by simp, rfl⟩))
          | [_], h => cases h; exact .inr (.inr (.inr ⟨rfl, rfl, by simp, rfl⟩))
        · cases (decodeLz77_illegalTag ((two_le_tag_iff tag).mpr ⟨hlit, hmatch⟩) payload).symm.trans h

/-- Settles O2: the four legal values are evaluated, the others are reserved by R73. -/
theorem commandMapIsTheTable : Obligations.CommandMapIsTheTable := by
  unfold Obligations.CommandMapIsTheTable
  exact ⟨rfl, rfl, rfl, rfl, fun _ h => decodeCommand_of_le h⟩

/-- Settles O3: each word is closed, so the decoders evaluate it. -/
theorem specWordsDecode : Obligations.SpecWordsDecode := by
  unfold Obligations.SpecWordsDecode
  exact ⟨decode_rleDecompress, decode_rep, decode_lit, decode_matchTok,
    decodeLz77_illegalTag (tag := 0xFF#8) (by decide) [0x00#8]⟩

end Sys2Proof

/-! Fetch (30_encoding.md R70, R88) and the step of a busy engine: whichever record it fetches, one iteration of the
latched command's loop. -/

namespace Sys2Proof.Safety

open Sys2Proof.Machine

/-! What stands at the cursor. -/

theorem recordWindow_end {s : State} (h : s.inLen ≤ s.ip) : recordWindow s = [] := by
  simp [recordWindow, readIn_eq_none h, readIn_eq_none (show s.inLen ≤ s.ip + 1 by omega),
    readIn_eq_none (show s.inLen ≤ s.ip + 2 by omega)]

theorem recordWindow_one {s : State} (h : s.inLen = s.ip + 1) : recordWindow s = [s.inByte s.ip] := by
  simp [recordWindow, readIn_eq (show s.ip < s.inLen by omega), readIn_eq_none (show s.inLen ≤ s.ip + 1 by omega),
    readIn_eq_none (show s.inLen ≤ s.ip + 2 by omega)]

theorem recordWindow_two {s : State} (h : s.inLen = s.ip + 2) :
    recordWindow s = [s.inByte s.ip, s.inByte (s.ip + 1)] := by
  simp [recordWindow, readIn_eq (show s.ip < s.inLen by omega), readIn_eq (show s.ip + 1 < s.inLen by omega),
    readIn_eq_none (show s.inLen ≤ s.ip + 2 by omega)]

theorem recordWindow_three {s : State} (h : s.ip + 2 < s.inLen) :
    recordWindow s = [s.inByte s.ip, s.inByte (s.ip + 1), s.inByte (s.ip + 2)] := by
  simp [recordWindow, readIn_eq (show s.ip < s.inLen by omega), readIn_eq (show s.ip + 1 < s.inLen by omega),
    readIn_eq h]

/-- Where two bytes are left the window begins with them. -/
theorem recordWindow_pair {s : State} (h : s.ip + 1 < s.inLen) :
    ∃ rest, recordWindow s = s.inByte s.ip :: s.inByte (s.ip + 1) :: rest := by
  rcases Nat.eq_or_lt_of_le (Nat.succ_le_of_lt h) with hend | hlt
  · exact ⟨_, recordWindow_two hend.symm⟩
  · exact ⟨_, recordWindow_three hlt⟩

/-- Where a byte is left the window begins with it. -/
theorem recordWindow_head {s : State} (h : s.ip < s.inLen) : ∃ rest, recordWindow s = s.inByte s.ip :: rest := by
  rcases Nat.eq_or_lt_of_le (Nat.succ_le_of_lt h) with hend | hlt
  · exact ⟨_, recordWindow_one hend.symm⟩
  · obtain ⟨rest, hwindow⟩ := recordWindow_pair hlt
    exact ⟨_, hwindow⟩

/-! The instruction fetched, for each command. -/

section

variable {s : State}

theorem fetch_rleCompress (h : s.cmd = 0x00#8) : fetch s = .ok .rleCompress := by
  simp only [fetch, h]; rfl

theorem fetch_lz77Compress (h : s.cmd = 0x01#8) : fetch s = .ok .lz77Compress := by
  simp only [fetch, h]; rfl

theorem fetch_rleDecoder (h : s.cmd = 0x02#8) :
    fetch s = .ok (recordOr .rleDecompress (decodeRle (recordWindow s))) := by
  simp only [fetch, h]; rfl

theorem fetch_lz77Decoder (h : s.cmd = 0x03#8) :
    fetch s = .ok (recordOr .lz77Decompress (decodeLz77 (recordWindow s))) := by
  simp only [fetch, h]; rfl

/-- R74: a whole pair is a record. -/
theorem fetch_rep (h : s.cmd = 0x02#8) (hwhole : s.ip + 1 < s.inLen) :
    fetch s = .ok (.rep (s.inByte s.ip) (s.inByte (s.ip + 1))) := by
  obtain ⟨rest, hwindow⟩ := recordWindow_pair hwhole
  rw [fetch_rleDecoder h, hwindow, decodeRle_cons_cons]; rfl

/-- Without a whole pair the RLE decoder runs its command (log 18). -/
theorem fetch_rleDecompress (h : s.cmd = 0x02#8) (hshort : s.inLen ≤ s.ip + 1) : fetch s = .ok .rleDecompress := by
  rw [fetch_rleDecoder h]
  rcases Nat.lt_or_ge s.ip s.inLen with hlt | hge
  · rw [recordWindow_one (by omega)]; rfl
  · rw [recordWindow_end hge]; rfl

/-- R77: the tag 0x00, and the byte after it if it is there. -/
theorem fetch_lit (h : s.cmd = 0x03#8) (hin : s.ip < s.inLen) (htag : s.inByte s.ip = 0x00#8) :
    fetch s = if s.ip + 1 < s.inLen then .ok (.lit (s.inByte (s.ip + 1))) else .ok .lz77Decompress := by
  rw [fetch_lz77Decoder h]
  split
  case isTrue hwhole =>
    obtain ⟨rest, hwindow⟩ := recordWindow_pair hwhole
    rw [hwindow, htag, decodeLz77_lit]; rfl
  case isFalse hshort => rw [recordWindow_one (by omega), htag]; rfl

/-- R78: the tag 0x01, and the two bytes after it if they are there. -/
theorem fetch_matchTok (h : s.cmd = 0x03#8) (hin : s.ip < s.inLen) (htag : s.inByte s.ip = 0x01#8) :
    fetch s = if s.ip + 2 < s.inLen then .ok (.matchTok (s.inByte (s.ip + 1)) (s.inByte (s.ip + 2)))
      else .ok .lz77Decompress := by
  rw [fetch_lz77Decoder h]
  split
  case isTrue hwhole => rw [recordWindow_three hwhole, htag, decodeLz77_matchTok]; rfl
  case isFalse hshort =>
    rcases Nat.lt_or_ge (s.ip + 1) s.inLen with hlt | hge
    · rw [recordWindow_two (by omega), htag]; rfl
    · rw [recordWindow_one (by omega), htag]; rfl

/-- R79: any other tag alone. -/
theorem fetch_illegalTag (h : s.cmd = 0x03#8) (hin : s.ip < s.inLen) (hlit : s.inByte s.ip ≠ 0x00#8)
    (hmatch : s.inByte s.ip ≠ 0x01#8) : fetch s = .ok (.illegalTag (s.inByte s.ip)) := by
  obtain ⟨rest, hwindow⟩ := recordWindow_head hin
  rw [fetch_lz77Decoder h, hwindow, decodeLz77_illegalTag ((two_le_tag_iff _).mpr ⟨hlit, hmatch⟩)]; rfl

/-- Settles O8: the fetch lemma of each command and, in the LZ77 decoder, of each tag. -/
theorem fetchReadsTheRecordAtTheCursor : Obligations.FetchReadsTheRecordAtTheCursor := by
  unfold Obligations.FetchReadsTheRecordAtTheCursor
  exact fun s => ⟨fetch_rleCompress, fetch_lz77Compress, fetch_rep, fetch_rleDecompress,
    fun h hend => fetch_at_end hend (by rw [h]; rfl), fetch_lit, fetch_matchTok, fetch_illegalTag⟩

/-! The step of a busy engine. -/

theorem step_fetched {i : Instr} (hbusy : s.status.busy = true) (hfetch : fetch s = .ok i) : step s = exec i s := by
  simp [step, hbusy, hfetch]

theorem step_writeCmd {b : Byte} {q : List HostOp} {i : Instr} (hidle : s.status.busy = false)
    (hq : s.hostQ = .writeCmd b :: q) (hdecode : decodeCommand b = .ok i) :
    step s = exec i { s with hostQ := q } := by
  simp [step, hidle, hq, hdecode]

theorem exec_rleDecompress_running (hrun : s.running 0x02#8) :
    exec .rleDecompress s = (rleDecompressIterate s).outcome :=
  commandStep_running hrun

theorem exec_lz77Decompress_running (hrun : s.running 0x03#8) :
    exec .lz77Decompress s = (lz77DecompressIterate s).outcome :=
  commandStep_running hrun

theorem exec_rep_running (value count : Byte) (hrun : s.running 0x02#8) :
    exec (.rep value count) s = (repRecord value count s).outcome :=
  recordStep_running hrun

theorem exec_matchTok_running (offset length : Byte) (hrun : s.running 0x03#8) :
    exec (.matchTok offset length) s = (matchToken offset length s).outcome :=
  recordStep_running hrun

theorem exec_illegalTag_running (tag : Byte) (hrun : s.running 0x03#8) :
    exec (.illegalTag tag) s = (illegalToken tag s).outcome :=
  recordStep_running hrun

/-! One iteration of each decoder's loop, by what stands at the cursor. -/

theorem rleDecompressIterate_record (h : s.ip + 1 < s.inLen) :
    rleDecompressIterate s = repRecord (s.inByte s.ip) (s.inByte (s.ip + 1)) s := by
  simp only [rleDecompressIterate, if_pos (Nat.lt_of_succ_lt h), readIn_eq (Nat.lt_of_succ_lt h), readIn_eq h]

theorem rleDecompressIterate_end (h : s.inLen ≤ s.ip) : rleDecompressIterate s = returnOk s :=
  if_neg (Nat.not_lt.mpr h)

theorem lz77DecompressIterate_end (h : s.inLen ≤ s.ip) : lz77DecompressIterate s = returnOk s :=
  if_neg (Nat.not_lt.mpr h)

theorem lz77DecompressIterate_lit (h : s.ip + 1 < s.inLen) (htag : s.inByte s.ip = litTag) :
    lz77DecompressIterate s = litToken (s.inByte (s.ip + 1)) s := by
  simp only [lz77DecompressIterate, if_pos (Nat.lt_of_succ_lt h), readIn_eq (Nat.lt_of_succ_lt h), readIn_eq h,
    if_pos htag]

theorem lz77DecompressIterate_lit_short (h : s.inLen = s.ip + 1) (htag : s.inByte s.ip = litTag) :
    lz77DecompressIterate s = truncatedToken 2 { s with tag := litTag } := by
  have hin : s.ip < s.inLen := by omega
  simp only [lz77DecompressIterate, if_pos hin, readIn_eq hin, readIn_eq_none h.le, htag, if_pos]

theorem lz77DecompressIterate_match (h : s.ip + 2 < s.inLen) (htag : s.inByte s.ip = matchTag) :
    lz77DecompressIterate s = matchToken (s.inByte (s.ip + 1)) (s.inByte (s.ip + 2)) s := by
  have hin : s.ip < s.inLen := by omega
  have hin1 : s.ip + 1 < s.inLen := by omega
  have hne : ¬ matchTag = litTag := by decide
  simp only [lz77DecompressIterate, if_pos hin, readIn_eq hin, readIn_eq hin1, readIn_eq h, htag, if_neg hne, if_pos]

theorem lz77DecompressIterate_match_short (hin : s.ip < s.inLen) (h : s.inLen ≤ s.ip + 2)
    (htag : s.inByte s.ip = matchTag) :
    lz77DecompressIterate s = truncatedToken 3 { s with tag := matchTag } := by
  have hne : ¬ matchTag = litTag := by decide
  simp only [lz77DecompressIterate, if_pos hin, readIn_eq hin, readIn_eq_none h, htag, if_neg hne, if_pos]
  cases readIn (s.ip + 1) s <;> rfl

theorem lz77DecompressIterate_illegal (hin : s.ip < s.inLen) (hlit : s.inByte s.ip ≠ litTag)
    (hmatch : s.inByte s.ip ≠ matchTag) : lz77DecompressIterate s = illegalToken (s.inByte s.ip) s := by
  simp only [lz77DecompressIterate, if_pos hin, readIn_eq hin, if_neg hlit, if_neg hmatch]

/-! Each running command's step is an iteration of its own loop. -/

theorem step_rleCompress (hrun : s.running 0x00#8) : step s = (rleCompressIterate s).outcome := by
  rw [step_fetched hrun.1 (fetch_rleCompress hrun.2), exec_rleCompress_running hrun]

theorem step_lz77Compress (hrun : s.running 0x01#8) : step s = (lz77CompressIterate s).outcome := by
  rw [step_fetched hrun.1 (fetch_lz77Compress hrun.2), exec_lz77Compress_running hrun]

/-- R115, R117: the pair at the cursor is what the loop reads. -/
theorem step_rleDecompress (hrun : s.running 0x02#8) : step s = (rleDecompressIterate s).outcome := by
  obtain ⟨hbusy, hcmd⟩ := hrun
  rcases Nat.lt_or_ge (s.ip + 1) s.inLen with hwhole | hshort
  · rw [step_fetched hbusy (fetch_rep hcmd hwhole), exec_rep_running _ _ ⟨hbusy, hcmd⟩,
      rleDecompressIterate_record hwhole]
  · rw [step_fetched hbusy (fetch_rleDecompress hcmd hshort), exec_rleDecompress_running ⟨hbusy, hcmd⟩]

/-- R155: a whole token at the cursor is what the loop reads, by its tag; where none is, the loop itself runs. -/
theorem step_lz77Decompress (hrun : s.running 0x03#8) : step s = (lz77DecompressIterate s).outcome := by
  obtain ⟨hbusy, hcmd⟩ := hrun
  have hloop : fetch s = .ok .lz77Decompress → step s = (lz77DecompressIterate s).outcome := fun hfetch => by
    rw [step_fetched hbusy hfetch, exec_lz77Decompress_running ⟨hbusy, hcmd⟩]
  rcases Nat.lt_or_ge s.ip s.inLen with hin | hend
  · by_cases hlit : s.inByte s.ip = 0x00#8
    · by_cases hwhole : s.ip + 1 < s.inLen
      · have hfetch := (fetch_lit hcmd hin hlit).trans (if_pos hwhole)
        rw [step_fetched hbusy hfetch, exec_lit_running _ ⟨hbusy, hcmd⟩, lz77DecompressIterate_lit hwhole hlit]
      · exact hloop ((fetch_lit hcmd hin hlit).trans (if_neg hwhole))
    · by_cases hmatch : s.inByte s.ip = 0x01#8
      · by_cases hwhole : s.ip + 2 < s.inLen
        · have hfetch := (fetch_matchTok hcmd hin hmatch).trans (if_pos hwhole)
          rw [step_fetched hbusy hfetch, exec_matchTok_running _ _ ⟨hbusy, hcmd⟩,
            lz77DecompressIterate_match hwhole hmatch]
        · exact hloop ((fetch_matchTok hcmd hin hmatch).trans (if_neg hwhole))
      · rw [step_fetched hbusy (fetch_illegalTag hcmd hin hlit hmatch), exec_illegalTag_running _ ⟨hbusy, hcmd⟩,
          lz77DecompressIterate_illegal hin hlit hmatch]
  · exact hloop (fetch_at_end hend (by rw [hcmd]; rfl))

end

/-- Settles O9: both sides are the iteration of the command's loop. -/
theorem recordStepIsCommandIteration : Obligations.RecordStepIsCommandIteration := by
  unfold Obligations.RecordStepIsCommandIteration
  exact ⟨fun s hrun => (step_rleDecompress hrun).trans (exec_rleDecompress_running hrun).symm,
    fun s hrun => (step_lz77Decompress hrun).trans (exec_lz77Decompress_running hrun).symm⟩

/-- Settles O7: the two branches of `step` that run an instruction. -/
theorem stepRunsTheFetchedInstruction : Obligations.StepRunsTheFetchedInstruction := by
  unfold Obligations.StepRunsTheFetchedInstruction
  exact ⟨fun s i => step_fetched, fun s b q i => step_writeCmd⟩

/-- Settles O10: a reserved value is no command (R73), so the move is only taken from the queue. -/
theorem reservedCommandIsIgnored : Obligations.ReservedCommandIsIgnored := by
  unfold Obligations.ReservedCommandIsIgnored
  intro s b q hidle hq hreserved
  simp [step, hidle, hq, decodeCommand_of_le hreserved]

/-! The host's writes (R31, R36). -/

theorem step_writeIn_queued {s : State} {p : Nat} {v : Byte} {q : List HostOp} (hidle : s.status.busy = false)
    (hq : s.hostQ = .writeIn p v :: q) : step s = hostWriteIn p v { s with hostQ := q } := by
  simp [step, hidle, hq]

theorem step_writeInLen_queued {s : State} {n : Nat} {q : List HostOp} (hidle : s.status.busy = false)
    (hq : s.hostQ = .writeInLen n :: q) : step s = hostWriteInLen n { s with hostQ := q } := by
  simp [step, hidle, hq]

/-- Settles O11: the capacity test decides each write, and a write of IN reads back. -/
theorem hostWritesReachTheirTarget : Obligations.HostWritesReachTheirTarget := by
  unfold Obligations.HostWritesReachTheirTarget
  refine ⟨fun s p v q hidle hq hfits => ?writeIn, fun s n q hidle hq hfits => ?writeInLen,
    fun s p cap v q hidle hq hcap hover => ?outside, fun s n cap q hidle hq hcap hover => ?oversized⟩
  case writeIn =>
    refine ⟨{ s with hostQ := q, inBuf := Memory.write s.inBuf p v }, ?_, rfl, ?_, fun a ha => ?_⟩
    · rw [step_writeIn_queued hidle hq]
      exact hostWriteIn_fits v hfits
    · simp [State.inByte]
    · simp [State.inByte, Memory.read_write_other s.inBuf ha]
  case writeInLen =>
    rw [step_writeInLen_queued hidle hq]
    exact if_neg (by simpa using (inOverCapacity_eq_false n s.cfg).mpr hfits)
  case outside =>
    rw [step_writeIn_queued hidle hq]
    exact hostWriteIn_outside v hcap hover
  case oversized =>
    rw [step_writeInLen_queued hidle hq]
    exact if_pos (by simpa [inOverCapacity, hcap] using hover)

end Sys2Proof.Safety

/-! The start of a command (10_state.md R40): everything an instruction of an idle engine can do, and the obligations on
it. -/

namespace Sys2Proof.Safety

open Sys2Proof.Machine

/-- RLE.COMPRESS with its first run opened (R102). -/
def firstRunOpened (s : State) : State :=
  { s.startCommand 0x00#8 with cur := s.inByte 0, cnt := 1#16, ip := 1 }

/-- RLE.COMPRESS ended on the empty input (R101). -/
def endedWithoutRun (s : State) : State := State.closeOk { s.startCommand 0x00#8 with cnt := 0#16 }

/-- RLE.DECOMPRESS ended on an odd length (R116). -/
def endedMalformed (s : State) : State :=
  (s.startCommand 0x02#8).raiseError .malformedLength 0 (s.inLen + 1) s.inLen

/-- What the start of a command can lead to. -/
inductive Begins (s : State) : Instr → State → Prop where
  | firstRun (h : 0 < s.inLen) : Begins s .rleCompress (firstRunOpened s)
  | noRun (h : s.inLen = 0) : Begins s .rleCompress (endedWithoutRun s)
  | lz77Compress : Begins s .lz77Compress (s.startCommand 0x01#8)
  | rleDecompress (h : s.inLen % 2 = 0) : Begins s .rleDecompress (s.startCommand 0x02#8)
  | malformed (h : s.inLen % 2 = 1) : Begins s .rleDecompress (endedMalformed s)
  | lz77Decompress : Begins s .lz77Decompress (s.startCommand 0x03#8)

/-- What stands before the loop of RLE.COMPRESS. -/
theorem rleCompressEnter_eq (s : State) :
    rleCompressEnter (s.startCommand 0x00#8) =
      if s.inLen = 0 then .ended (endedWithoutRun s) else .go (firstRunOpened s) := by
  by_cases h : s.inLen = 0
  · rw [if_pos h]
    exact if_pos h
  · rw [if_neg h]
    refine (if_neg h).trans ?_
    rw [readIn_eq (s := s.startCommand 0x00#8) (Nat.pos_of_ne_zero h)]
    rfl

/-- What stands before the loop of RLE.DECOMPRESS. -/
theorem rleDecompressEnter_eq (s : State) :
    rleDecompressEnter (s.startCommand 0x02#8) =
      if s.inLen % 2 = 1 then .ended (endedMalformed s) else .go (s.startCommand 0x02#8) := rfl

section

variable {s t : State} {i : Instr}

/-- A start that the input's length allows leads where the command begins. -/
theorem exec_of_begins (hidle : s.status.busy = false) (hfits : ∀ cap ∈ s.cfg.inCap, s.inLen ≤ cap)
    (h : Begins s i t) : exec i s = .next t := by
  have hlen := (inOverCapacity_eq_false s.inLen s.cfg).mpr hfits
  cases h with
  | firstRun h =>
    refine (commandStep_idle hidle hlen).trans ?_
    rw [rleCompressEnter_eq, if_neg (Nat.ne_of_gt h), Flow.outcome_go]
  | noRun h =>
    refine (commandStep_idle hidle hlen).trans ?_
    rw [rleCompressEnter_eq, if_pos h, Flow.outcome_ended]
  | lz77Compress => exact commandStep_idle hidle hlen
  | rleDecompress h =>
    refine (commandStep_idle hidle hlen).trans ?_
    rw [rleDecompressEnter_eq, if_neg (by omega), Flow.outcome_go]
  | malformed h =>
    refine (commandStep_idle hidle hlen).trans ?_
    rw [rleDecompressEnter_eq, if_pos h, Flow.outcome_ended]
  | lz77Decompress => exact commandStep_idle hidle hlen

/-- An idle engine answers a next state only by the start of a command whose input fits. -/
theorem begins_of_exec (hidle : s.status.busy = false) (h : exec i s = .next t) :
    (∀ cap ∈ s.cfg.inCap, s.inLen ≤ cap) ∧ Begins s i t := by
  have hcommand : ∀ {code enter iterate}, commandStep code enter iterate s = .next t →
      (∀ cap ∈ s.cfg.inCap, s.inLen ≤ cap) ∧ (enter (s.startCommand code)).outcome = .next t := fun h => by
    rcases commandStep_next h with ⟨hrun, -⟩ | ⟨-, hlen, henter⟩
    · cases hidle.symm.trans hrun.1
    · exact ⟨(inOverCapacity_eq_false _ _).mp hlen, henter⟩
  have hrecord : ∀ {code record}, recordStep code record s ≠ .next t := fun h => by
    cases hidle.symm.trans (recordStep_next h).1.1
  cases i with
  | rleCompress =>
    obtain ⟨hfits, henter⟩ := hcommand h
    rw [rleCompressEnter_eq] at henter
    refine ⟨hfits, ?_⟩
    split at henter
    case isTrue hlen => cases henter; exact .noRun hlen
    case isFalse hlen => cases henter; exact .firstRun (Nat.pos_of_ne_zero hlen)
  | lz77Compress =>
    obtain ⟨hfits, henter⟩ := hcommand h
    cases henter
    exact ⟨hfits, .lz77Compress⟩
  | rleDecompress =>
    obtain ⟨hfits, henter⟩ := hcommand h
    rw [rleDecompressEnter_eq] at henter
    refine ⟨hfits, ?_⟩
    split at henter
    case isTrue hlen => cases henter; exact .malformed hlen
    case isFalse hlen => cases henter; exact .rleDecompress (by omega)
  | lz77Decompress =>
    obtain ⟨hfits, henter⟩ := hcommand h
    cases henter
    exact ⟨hfits, .lz77Decompress⟩
  | rep | lit | matchTok | illegalTag => exact absurd h hrecord

end

/-- Settles O12: each of the three starts initialises the registers and does nothing more. -/
theorem commandStartInitialises : Obligations.CommandStartInitialises := by
  unfold Obligations.CommandStartInitialises
  intro s i code hidle hfits hcommand
  have hbegins : Begins s i (s.startCommand code) := by
    rcases hcommand with ⟨rfl, rfl⟩ | ⟨rfl, rfl, heven⟩ | ⟨rfl, rfl⟩
    · exact .lz77Compress
    · exact .rleDecompress heven
    · exact .lz77Decompress
  exact ⟨_, exec_of_begins hidle hfits hbegins, rfl, rfl, rfl, rfl, rfl, rfl, rfl, rfl, rfl⟩

/-- Settles O13: the start opens the first run. -/
theorem rleCompressOpensTheFirstRun : Obligations.RleCompressOpensTheFirstRun := by
  unfold Obligations.RleCompressOpensTheFirstRun
  intro s hidle hfits hpos
  exact ⟨_, exec_of_begins hidle hfits (.firstRun hpos), rfl, rfl, rfl, rfl, rfl, rfl, rfl, rfl, rfl, rfl, rfl⟩

/-- Settles O14: an input of no bytes fits any IN, and the start ends the command. -/
theorem rleCompressOfNothingEndsAtOnce : Obligations.RleCompressOfNothingEndsAtOnce := by
  unfold Obligations.RleCompressOfNothingEndsAtOnce
  intro s hidle hempty
  have hfits : ∀ cap ∈ s.cfg.inCap, s.inLen ≤ cap := fun cap _ => hempty ▸ Nat.zero_le cap
  exact ⟨_, exec_of_begins hidle hfits (.noRun hempty), rfl, rfl, rfl, rfl, rfl, rfl, rfl⟩

/-- Settles O15: every command's start tests IN_LEN first. -/
theorem oversizedLaunchIsRefused : Obligations.OversizedLaunchIsRefused := by
  unfold Obligations.OversizedLaunchIsRefused
  intro s i cap hlayer hidle hcap hover
  have hrefused : ∀ code enter iterate,
      commandStep code enter iterate s = .refused (.inLenOverCapacity s.inLen) := fun code enter iterate => by
    simp [commandStep, hidle, inOverCapacity, hcap, hover]
  cases i with
  | rleCompress | lz77Compress | rleDecompress | lz77Decompress => exact hrefused _ _ _
  | rep | lit | matchTok | illegalTag => cases hlayer

/-- Settles O21: the start finds the odd length and ends the command. -/
theorem oddLengthIsMalformed : Obligations.OddLengthIsMalformed := by
  unfold Obligations.OddLengthIsMalformed
  intro s hidle hfits hodd
  exact ⟨_, exec_of_begins hidle hfits (.malformed hodd), rfl, rfl, rfl, rfl, rfl, rfl, rfl, rfl⟩

/-- A start clears ERR_KIND, or sets it to MalformedLength. -/
theorem Begins.errKind {s t : State} {i : Instr} (h : Begins s i t) : t.errKind = 0#3 ∨ t.errKind = 1#3 := by
  cases h with
  | malformed => exact .inr rfl
  | firstRun | noRun | lz77Compress | rleDecompress | lz77Decompress => exact .inl rfl

/-- What a step of an idle engine can lead to: the host's move, where there is one, is taken from the queue. -/
inductive HostStep (s : State) : State → Prop where
  | waits (q : List HostOp) : HostStep s { s with hostQ := q }
  | writesIn (q : List HostOp) (p : Nat) (v : Byte) :
    HostStep s { s with hostQ := q, inBuf := Memory.write s.inBuf p v }
  | writesInLen (q : List HostOp) (n : Nat) (fits : ∀ cap ∈ s.cfg.inCap, n ≤ cap) :
    HostStep s { s with hostQ := q, inLen := n }
  | starts {q : List HostOp} {i : Instr} {t : State} (fits : ∀ cap ∈ s.cfg.inCap, s.inLen ≤ cap)
    (begins : Begins { s with hostQ := q } i t) : HostStep s t

/-- Everything a step of an idle engine can do. -/
theorem step_idle_next {s t : State} (hidle : s.status.busy = false) (h : step s = .next t) : HostStep s t := by
  simp only [step, hidle, Bool.false_eq_true, if_false] at h
  split at h
  case h_1 => cases h; exact .waits s.hostQ
  case h_2 p v q _ =>
    unfold hostWriteIn at h
    split at h
    · cases h; exact .writesIn q p v
    · cases h
  case h_3 n q _ =>
    unfold hostWriteInLen at h
    split at h
    case isTrue => cases h
    case isFalse hfits =>
      cases h
      exact .writesInLen q n ((inOverCapacity_eq_false n s.cfg).mp (by simpa using hfits))
  case h_4 b q _ =>
    split at h
    · obtain ⟨hfits, hbegins⟩ := begins_of_exec (s := { s with hostQ := q }) hidle h
      exact .starts hfits hbegins
    · cases h; exact .waits q

end Sys2Proof.Safety

/-! Single steps of the RLE commands: a record closed, the last flush, the record REP, the end of the input. -/

namespace Sys2Proof.Safety

open Sys2Proof.Machine

/-! OUT after several appends. -/

theorem outByte_appended_get (vs : List Byte) (s : State) {j : Nat} (h : j < vs.length) :
    (s.appended vs).outByte (s.outLen + j) = vs[j] := by
  rw [State.outByte_appended, dif_pos (by omega)]
  simp

theorem outByte_appended_outside (vs : List Byte) (s : State) {q : Nat}
    (h : q < s.outLen ∨ s.outLen + vs.length ≤ q) : (s.appended vs).outByte q = s.outByte q := by
  rw [State.outByte_appended, dif_neg (by omega)]

/-! Closing a run (R107, R108). -/

/-- The state after the open run's record. -/
def recordClosed (s : State) : State :=
  { s.appended [s.cur, trunc8 s.cnt] with status := statusAfterRecord s.cnt s.status }

/-- The state after the open run's record, with the byte `b` opening the next run (R102). -/
def runReopened (b : Byte) (s : State) : State :=
  { recordClosed s with cur := b, cnt := 1#16, ip := s.ip + 1 }

section

variable {s : State}

theorem outByte_recordClosed_value : (recordClosed s).outByte s.outLen = s.cur :=
  outByte_appended_get [s.cur, trunc8 s.cnt] s (j := 0) (by simp)

theorem outByte_recordClosed_count : (recordClosed s).outByte (s.outLen + 1) = trunc8 s.cnt :=
  outByte_appended_get [s.cur, trunc8 s.cnt] s (j := 1) (by simp)

theorem outByte_recordClosed_other {q : Nat} (h : q ≠ s.outLen) (h1 : q ≠ s.outLen + 1) :
    (recordClosed s).outByte q = s.outByte q :=
  outByte_appended_outside [s.cur, trunc8 s.cnt] s (by simp; omega)

/-- R104, R105: a byte that does not extend the run closes it. -/
theorem rleCompressIterate_closes (hip : s.ip < s.inLen)
    (hclose : ¬(s.inByte s.ip = s.cur ∧ s.cnt.toNat < Config.runCap)) :
    rleCompressIterate s = (closeRun s).andThen fun t =>
      .go { t with cur := s.inByte s.ip, cnt := 1#16, ip := t.ip + 1 } := by
  simp only [rleCompressIterate, if_pos hip, readIn_eq hip, if_neg hclose]

/-- R106: the flush at the end of the input. -/
theorem rleCompressIterate_end (hend : s.inLen ≤ s.ip) :
    rleCompressIterate s = (closeRun s).andThen returnOk :=
  if_neg (Nat.not_lt.mpr hend)

theorem exec_rleCompress_closes (hrun : s.running 0x00#8) (hip : s.ip < s.inLen)
    (hclose : ¬(s.inByte s.ip = s.cur ∧ s.cnt.toNat < Config.runCap)) (hroom : s.hasRoom 2) :
    exec .rleCompress s = .next (runReopened (s.inByte s.ip) s) := by
  rw [exec_rleCompress_running hrun, rleCompressIterate_closes hip hclose, closeRun_room hroom]
  rfl

end

/-- Settles O17: a differing byte closes the run. -/
theorem runIsClosedByADifferingByte : Obligations.RunIsClosedByADifferingByte := by
  unfold Obligations.RunIsClosedByADifferingByte
  intro s hrun hip hne hroom
  refine ⟨_, exec_rleCompress_closes hrun hip (fun h => hne h.1) hroom, rfl, rfl, rfl, rfl,
    outByte_recordClosed_value, ?count, fun q h h1 => outByte_recordClosed_other h h1, rfl, rfl⟩
  case count => exact (congrArg BitVec.toNat outByte_recordClosed_count).trans (trunc8_toNat s.cnt)

/-- Settles O18: a full counter closes the run, and its count byte is 65535 modulo 256. -/
theorem runIsClosedAtTheCap : Obligations.RunIsClosedAtTheCap := by
  unfold Obligations.RunIsClosedAtTheCap
  intro s hrun hip heq hfull hroom
  have hclose : ¬(s.inByte s.ip = s.cur ∧ s.cnt.toNat < Config.runCap) := fun h =>
    absurd h.2 (by simp [hfull, Config.runCap])
  have hcount : trunc8 s.cnt = 0xFF#8 := BitVec.eq_of_toNat_eq (by rw [trunc8_toNat, hfull]; rfl)
  have hstep := exec_rleCompress_closes hrun hip hclose hroom
  rw [heq] at hstep
  refine ⟨_, hstep, rfl, rfl, rfl, rfl,
    outByte_recordClosed_value, outByte_recordClosed_count.trans hcount,
    fun q h h1 => outByte_recordClosed_other h h1, rfl, ?flags⟩
  case flags => simp [runReopened, recordClosed, statusAfterRecord, hfull, Config.fieldMax]

/-- Settles O19: the loop's exit closes the open run and returns. -/
theorem lastRunIsFlushed : Obligations.LastRunIsFlushed := by
  unfold Obligations.LastRunIsFlushed
  intro s hrun hend hroom
  refine ⟨(recordClosed s).closeOk, ?step, rfl, rfl, outByte_recordClosed_value, ?count,
    fun q h h1 => outByte_recordClosed_other h h1, rfl, rfl⟩
  case step =>
    rw [exec_rleCompress_running hrun, rleCompressIterate_end hend, closeRun_room hroom]
    rfl
  case count => exact (congrArg BitVec.toNat outByte_recordClosed_count).trans (trunc8_toNat s.cnt)

/-- Settles O20: the low 8 bits are the remainder by 256. -/
theorem countByteIsTheCounterModulo256 : Obligations.CountByteIsTheCounterModulo256 := by
  unfold Obligations.CountByteIsTheCounterModulo256
  intro c
  refine ⟨trunc8_toNat c, ?faithful, ?zero⟩
  case faithful => rw [trunc8_toNat]; omega
  case zero =>
    rw [← BitVec.toNat_inj, trunc8_toNat, Nat.dvd_iff_mod_eq_zero]
    rfl

/-! The record REP (R117). -/

/-- The state after the whole record. -/
def repApplied (value count : Byte) (s : State) : State :=
  { s.appended (List.replicate count.toNat value) with val := value, rem := 0#8, ip := s.ip + 2 }

theorem repApplied_eq (value count : Byte) (s : State) :
    { repAfter (fieldValue count) { s with val := value, rem := count } with ip := s.ip + 2 } =
      repApplied value count s := by
  have hrem : count - BitVec.ofNat 8 (fieldValue count) = 0#8 := by simp [fieldValue]
  simp only [repAfter, hrem]
  rfl

/-- Everything the record can do: all copies, or as many as fit and CapacityExceeded. -/
theorem repRecord_cases (value count : Byte) (s : State) :
    ((s.hasRoom count.toNat ∨ count.toNat = 0) ∧ repRecord value count s = .go (repApplied value count s)) ∨
    (∃ m cap, s.cfg.outCap = some cap ∧ cap < s.outLen + count.toNat ∧
      repRecord value count s = .ended ((repAfter m { s with val := value, rem := count }).raiseError
        .capacityExceeded s.ip cap (cap + 1))) := by
  rcases repLoop_cases (fieldValue count) { s with val := value, rem := count } with
    ⟨hroom, hgo⟩ | ⟨m, cap, hcap, -, hover, hend⟩
  · refine .inl ⟨hroom, ?_⟩
    rw [repRecord, hgo, Flow.andThen_go, ← repApplied_eq]
    rfl
  · exact .inr ⟨m, cap, hcap, hover, by rw [repRecord, hend, Flow.andThen_ended]⟩

/-- Settles O22: with room the record's copies are all appended, without it the command ends at the first that does not
fit. -/
theorem repAppendsCopies : Obligations.RepAppendsCopies := by
  unfold Obligations.RepAppendsCopies
  intro s value count hrun
  rw [exec_rep_running value count hrun]
  rcases repRecord_cases value count s with ⟨hroom, hgo⟩ | ⟨m, cap, hcap, hover, hend⟩
  case inl =>
    rw [hgo]
    refine ⟨fun _ => ⟨_, rfl, rfl, ?length, fun j hj => ?copies, fun q hq => ?others, rfl⟩,
      fun cap hcap hle hover => ?full⟩
    case length => simp [repApplied, State.appended]
    case copies =>
      exact (outByte_appended_get (List.replicate count.toNat value) s (by simpa using hj)).trans
        (List.getElem_replicate _)
    case others => exact outByte_appended_outside (List.replicate count.toNat value) s (by simpa using hq)
    case full =>
      rcases hroom with hroom | hzero
      · exact absurd (hroom cap hcap) (by omega)
      · omega
  case inr =>
    rw [hend]
    refine ⟨fun hroom => absurd (hroom cap hcap) (by omega), fun c hc _ _ => ?_⟩
    obtain rfl : cap = c := Option.some.inj (hcap.symm.trans hc)
    exact ⟨_, rfl, rfl, rfl, rfl, rfl, rfl, rfl, rfl⟩

/-- Settles O23: no copy is appended, so no capacity matters. -/
theorem countZeroIsANoOp : Obligations.CountZeroIsANoOp := by
  unfold Obligations.CountZeroIsANoOp
  intro s value hrun
  rw [exec_rep_running value 0#8 hrun]
  rfl

/-- Settles O24: past the input each of the three loops returns. -/
theorem commandEndsAtTheEndOfInput : Obligations.CommandEndsAtTheEndOfInput := by
  unfold Obligations.CommandEndsAtTheEndOfInput
  intro s i code hcommand hrun hend
  rcases hcommand with ⟨rfl, rfl⟩ | ⟨rfl, rfl⟩ | ⟨rfl, rfl⟩
  · rw [exec_lz77Compress_running hrun, lz77CompressIterate, if_neg (Nat.not_lt.mpr hend)]; rfl
  · rw [exec_rleDecompress_running hrun, rleDecompressIterate_end hend]; rfl
  · rw [exec_lz77Decompress_running hrun, lz77DecompressIterate_end hend]; rfl

end Sys2Proof.Safety

/-! Single steps of LZ77.COMPRESS: `FIND` on one repeated byte, and the token MATCH. -/

namespace Sys2Proof.Safety

open Sys2Proof.Machine

/-- R127: a candidate's match is never longer than the cap. -/
theorem matchLength_le (L : Nat) (d : List Byte) (i o : Nat) : matchLength L d i o ≤ min L (d.length - i) :=
  Nat.findGreatest_le _

/-- R127: on the positions of its match the candidate's bytes are the ones at the cursor. -/
theorem matchLength_agrees (L : Nat) (d : List Byte) (i o : Nat) {j : Nat} (h : j < matchLength L d i o) :
    d[i - o + j]? = d[i + j]? :=
  Nat.findGreatest_spec (P := fun k => ∀ j < k, d[i - o + j]? = d[i + j]?) (Nat.zero_le _)
    (fun _ hj => absurd hj (Nat.not_lt_zero _)) j h

/-- R127: where the streams agree up to the cap, the match is as long as the cap. -/
theorem matchLength_eq_cap {L i o : Nat} {d : List Byte}
    (h : ∀ j < min L (d.length - i), d[i - o + j]? = d[i + j]?) :
    matchLength L d i o = min L (d.length - i) :=
  Nat.findGreatest_eq h

/-- R130: a match at offset 1 as long as the cap is the answer of `FIND`. -/
theorem isFind_one {W L i : Nat} {d : List Byte} (hW : 1 ≤ W) (hi : 1 ≤ i) (hcap : 1 ≤ min L (d.length - i))
    (h : matchLength L d i 1 = min L (d.length - i)) : IsFind W L d i 1 (min L (d.length - i)) :=
  .inr ⟨le_rfl, by omega, hcap, h.symm, fun o _ _ => matchLength_le L d i o, fun o h1 h2 => by omega⟩

/-- Settles O26: on one repeated byte the streams from offset 1 agree up to the cap, and `FIND` has one answer only. -/
theorem findOverlapsItsOwnLookahead : Obligations.FindOverlapsItsOwnLookahead := by
  unfold Obligations.FindOverlapsItsOwnLookahead
  intro s v hpos hin hW hL hall
  obtain ⟨t, hfind, hfound⟩ := find_isFind s
  have hbyte : ∀ p < s.inLen, (input s)[p]? = some v := fun p hp => by
    rw [input_getElem?, readIn_eq hp, hall p hp]
  have hlen : matchLength s.cfg.L (input s) s.ip 1 = min s.cfg.L ((input s).length - s.ip) :=
    matchLength_eq_cap fun j hj => by
      rw [input_length] at hj
      rw [hbyte _ (by omega), hbyte _ (by omega)]
  have hone := isFind_one hW hpos (by rw [input_length]; omega) hlen
  rw [input_length] at hone
  exact ⟨t, hfind, hfound.off_unique hone, hfound.len_unique hone⟩

/-! The token MATCH (R144). -/

/-- The state after the token MATCH for the match found (R144, R146). -/
def matchEmitted (s : State) : State :=
  { s.appended [matchTag, fieldByte s.bestOff, fieldByte s.bestLen] with ip := s.ip + s.bestLen }

/-- R142: from MIN_MATCH on the match is used. -/
theorem emitToken_long {s : State} (h : Config.minMatch ≤ s.bestLen) : emitToken s = emitMatch s := if_pos h

/-- R145: the check passes exactly a match that fits its fields. -/
theorem emitMatch_fits {s : State} (hoff : s.bestOff ≤ 255) (hlen : s.bestLen ≤ 255) :
    emitMatch s = (emitAll [matchTag, fieldByte s.bestOff, fieldByte s.bestLen] s).andThen fun t =>
      .go { t with ip := t.ip + t.bestLen } := by
  have hoff' := (exceedsField_eq_false s.bestOff).mpr hoff
  have hlen' := (exceedsField_eq_false s.bestLen).mpr hlen
  simp [emitMatch, hoff', hlen']

/-- R145: an offset or length above FIELD_MAX is the error. -/
theorem emitMatch_oversized {s : State} (h : 255 < s.bestOff ∨ 255 < s.bestLen) :
    emitMatch s = raise .encodableRangeExceeded s.ip Config.fieldMax (max s.bestOff s.bestLen) s := by
  refine if_pos ?_
  rw [Bool.or_eq_true, exceedsField_eq_true, exceedsField_eq_true]
  exact h

theorem emitMatch_room {s : State} (hoff : s.bestOff ≤ 255) (hlen : s.bestLen ≤ 255) (hroom : s.hasRoom 3) :
    emitMatch s = .go (matchEmitted s) := by
  rw [emitMatch_fits hoff hlen, emitAll_room _ hroom]
  rfl

/-- The state after a search with the answer `(o, l)`: only the match-finder's registers are written. -/
def answered (cand k maxlen o l : Nat) (s : State) : State :=
  { s with cand := cand, k := k, maxlen := maxlen, bestOff := o, bestLen := l }

/-- `FIND` gives the one answer its contract allows. -/
theorem find_answer {s : State} {o l : Nat} (h : IsFind s.cfg.W s.cfg.L (input s) s.ip o l) :
    ∃ cand k maxlen, find s = .go (answered cand k maxlen o l s) := by
  obtain ⟨t, hfind, hfound, hframe⟩ := findMeetsItsContract s
  refine ⟨t.cand, t.k, t.maxlen, ?_⟩
  rw [hfind, hframe, hfound.off_unique h, hfound.len_unique h]
  rfl

/-- A step inside the input emits the token for `FIND`'s answer. -/
theorem exec_lz77Compress_answer {s : State} {o l : Nat} (hrun : s.running 0x01#8) (hip : s.ip < s.inLen)
    (h : IsFind s.cfg.W s.cfg.L (input s) s.ip o l) :
    ∃ cand k maxlen, exec .lz77Compress s = (emitToken (answered cand k maxlen o l s)).outcome := by
  obtain ⟨cand, k, maxlen, hfind⟩ := find_answer h
  exact ⟨cand, k, maxlen, by rw [exec_lz77Compress_running hrun, lz77CompressIterate_find hip hfind]⟩

/-- Settles O28: the answer is long enough and fits, so its token is appended whole. -/
theorem longMatchBecomesAMatchToken : Obligations.LongMatchBecomesAMatchToken := by
  unfold Obligations.LongMatchBecomesAMatchToken
  intro s o l hrun hip hanswer hlong hoff hlen hroom
  obtain ⟨cand, k, maxlen, hstep⟩ := exec_lz77Compress_answer hrun hip hanswer
  have htoken : emitToken (answered cand k maxlen o l s) = .go (matchEmitted (answered cand k maxlen o l s)) :=
    (if_pos hlong).trans (emitMatch_room hoff hlen hroom)
  rw [htoken, Flow.outcome_go] at hstep
  have hbyte := fun {j : Nat} => outByte_appended_get [matchTag, fieldByte o, fieldByte l] s (j := j)
  refine ⟨_, hstep, rfl, rfl, hbyte (j := 0) (by simp), ?offset, ?length, fun q hq => ?others, rfl⟩
  case offset => exact (congrArg BitVec.toNat (hbyte (j := 1) (by simp))).trans (fieldByte_toNat hoff)
  case length => exact (congrArg BitVec.toNat (hbyte (j := 2) (by simp))).trans (fieldByte_toNat hlen)
  case others => exact outByte_appended_outside [matchTag, fieldByte o, fieldByte l] s hq

/-- Settles O29: the answer is long enough and does not fit, so the check of R145 raises the error. -/
theorem oversizedMatchIsAnError : Obligations.OversizedMatchIsAnError := by
  unfold Obligations.OversizedMatchIsAnError
  intro s o l hrun hip hanswer hlong hover
  obtain ⟨cand, k, maxlen, hstep⟩ := exec_lz77Compress_answer hrun hip hanswer
  rw [emitToken_long (s := answered cand k maxlen o l s) hlong, emitMatch_oversized hover] at hstep
  exact ⟨_, hstep, rfl, rfl, rfl, rfl, rfl, rfl, rfl, rfl⟩

end Sys2Proof.Safety

/-! Single steps of LZ77.DECOMPRESS: tokens cut short, bad offsets, the span copy, illegal tags. -/

namespace Sys2Proof.Safety

open Sys2Proof.Machine

section

variable {s : State}

/-- R158: the token LIT cut short. -/
theorem litToken_short (byte : Byte) (h : s.inLen ≤ s.ip + 1) :
    litToken byte s = truncatedToken 2 { s with tag := litTag } :=
  if_pos h

/-- R160: the token MATCH cut short, before its offset is looked at (R162). -/
theorem matchToken_short (offset length : Byte) (h : s.inLen ≤ s.ip + 2) :
    matchToken offset length s = truncatedToken 3 { s with tag := matchTag } :=
  if_pos h

/-- The state after the fields of a whole token MATCH are read. -/
def matchRead (offset length : Byte) (s : State) : State :=
  { s with tag := matchTag, off := offset, len := length }

/-- R161: the offsets the test refuses are the ones outside 1 to `out_len`. -/
theorem bad_offset_iff {offset : Byte} {n : Nat} :
    offset = 0#8 ∨ n < offset.toNat ↔ ¬(1 ≤ offset.toNat ∧ offset.toNat ≤ n) := by
  rw [← BitVec.toNat_inj, BitVec.toNat_ofNat]
  omega

/-- R161: a whole token with a bad offset. -/
theorem matchToken_bad {offset : Byte} (length : Byte) (hwhole : s.ip + 2 < s.inLen)
    (hbad : offset = 0#8 ∨ s.outLen < offset.toNat) :
    matchToken offset length s =
      raise .invalidBackReference s.ip s.outLen offset.toNat (matchRead offset length s) := by
  rw [matchToken, if_neg (Nat.not_le.mpr hwhole)]
  exact if_pos hbad

/-- R163: a whole token with a good offset copies. -/
theorem matchToken_copies {offset : Byte} (length : Byte) (hwhole : s.ip + 2 < s.inLen) (hpos : 1 ≤ offset.toNat)
    (hle : offset.toNat ≤ s.outLen) :
    matchToken offset length s = (copySpan length.toNat (matchRead offset length s)).andThen fun t =>
      .go { t with ip := t.ip + 3 } := by
  rw [matchToken, if_neg (Nat.not_le.mpr hwhole)]
  exact if_neg fun hbad => bad_offset_iff.mp hbad ⟨hpos, hle⟩

/-- A token cut short ends the step with TruncatedRecord and writes only `tag` besides an error entry's registers. -/
theorem truncatedToken_ends (need : Nat) (tag : Byte) {x : Host.Outcome State Fault Refusal}
    (h : x = (truncatedToken need { s with tag := tag }).outcome) :
    ∃ t, x = .next t ∧ t.errKind = 2#3 ∧ t.errPos = s.ip ∧ t.errExp = need ∧
      t.errObs = s.inLen - s.ip ∧ t.outLenReg = 0 ∧ t.outLen = s.outLen ∧
      t.status = { s.status with busy := false, done := true, err := true } ∧
      t = { s with
        tag := tag,
        errKind := t.errKind, errPos := t.errPos, errExp := t.errExp, errObs := t.errObs, outLenReg := t.outLenReg,
        status := t.status, outBuf := t.outBuf, outEra := t.outEra } :=
  ⟨_, h, rfl, rfl, rfl, rfl, rfl, rfl, rfl, rfl⟩

end

/-- Settles O32: run as a record or met by a step, the token comes to the truncation test first. -/
theorem shortTokenIsTruncated : Obligations.ShortTokenIsTruncated := by
  unfold Obligations.ShortTokenIsTruncated
  refine ⟨fun s byte hrun hshort => ?lit, fun s offset length hrun hshort => ?matchTok,
    fun s hrun hshort htag => ?litMet, fun s hrun hin hshort htag => ?matchMet⟩
  case lit => exact truncatedToken_ends 2 litTag (by rw [exec_lit_running byte hrun, litToken_short byte hshort])
  case matchTok =>
    exact truncatedToken_ends 3 matchTag
      (by rw [exec_matchTok_running offset length hrun, matchToken_short offset length hshort])
  case litMet =>
    have hstep := step_lz77Decompress hrun
    rw [lz77DecompressIterate_lit_short hshort.symm htag] at hstep
    have hpresent : s.inLen - s.ip = 1 := by omega
    exact hpresent ▸ truncatedToken_ends 2 litTag hstep
  case matchMet =>
    exact truncatedToken_ends 3 matchTag
      (by rw [step_lz77Decompress hrun, lz77DecompressIterate_match_short hin hshort htag])

/-- Settles O33: the offset test comes after the truncation test, which a whole token passes. -/
theorem badOffsetIsAnError : Obligations.BadOffsetIsAnError := by
  unfold Obligations.BadOffsetIsAnError
  intro s offset length hrun hwhole hbad
  have hstep := exec_matchTok_running offset length hrun
  rw [matchToken_bad length hwhole hbad] at hstep
  exact ⟨_, hstep, rfl, rfl, rfl, rfl, rfl, rfl, rfl, rfl⟩

/-- Settles O35: the token raises the error whatever follows its tag. -/
theorem illegalTagIsUnrecognized : Obligations.IllegalTagIsUnrecognized := by
  unfold Obligations.IllegalTagIsUnrecognized
  intro s tag hrun _
  exact ⟨_, exec_illegalTag_running tag hrun, rfl, rfl, rfl, rfl, rfl, rfl, rfl, rfl⟩

/-- R164: bytes that each equal the byte `off` places before them are the periodic extension of the last `off` bytes. -/
theorem copied_periodic {n : Nat} {s t : State} (h : Copied n s t) (hpos : 1 ≤ s.off.toNat)
    (hle : s.off.toNat ≤ s.outLen) (j : Nat) (hj : j < n) :
    t.outByte (s.outLen + j) = s.outByte (s.outLen - s.off.toNat + j % s.off.toNat) := by
  induction j using Nat.strong_induction_on with
  | _ j ih =>
    rw [h.live j hj]
    rcases Nat.lt_or_ge j s.off.toNat with hlt | hge
    · rw [h.outside _ (by omega), Nat.mod_eq_of_lt hlt]
      congr 1
      omega
    · rw [show s.outLen + j - s.off.toNat = s.outLen + (j - s.off.toNat) by omega, ih _ (by omega) (by omega),
        Nat.mod_eq_sub_mod hge]

/-- Settles O34: the copy goes through, each byte is the one `offset` places before it, and the periodic form follows. -/
theorem spanCopyExtendsPeriodically : Obligations.SpanCopyExtendsPeriodically := by
  unfold Obligations.SpanCopyExtendsPeriodically
  intro s offset length hrun hwhole hpos hle hroom
  have hstep := exec_matchTok_running offset length hrun
  rw [matchToken_copies length hwhole hpos hle] at hstep
  rcases copySpan_cases length.toNat (matchRead offset length s) hpos hle with
    ⟨t, -, hgo, hcopied⟩ | ⟨-, cap, -, hcap, -, hover, -, -⟩
  case inl =>
    rw [hgo, Flow.andThen_go, Flow.outcome_go] at hstep
    have hip : t.ip = (matchRead offset length s).ip := by rw [hcopied.frame]
    have hlen : t.outLen = (matchRead offset length s).outLen + length.toNat := by rw [hcopied.frame]
    have hframe : t = { s with
        tag := 0x01#8, off := offset, len := 0#8, outLen := t.outLen, outBuf := t.outBuf } := by
      have hzero : length - BitVec.ofNat 8 length.toNat = 0#8 := by simp
      rw [← hzero, hlen]
      exact hcopied.frame
    exact ⟨_, hstep, congrArg (· + 3) hip, hlen, hcopied.live, copied_periodic hcopied hpos hle, hcopied.outside,
      congrArg (fun u => { u with ip := t.ip + 3 }) hframe⟩
  case inr => exact absurd (hroom cap hcap) (Nat.not_le.mpr hover)

end Sys2Proof.Safety

/-! Errors: the error entry (60_exceptions.md R202), and CapacityExceeded in every operation that appends (R197). -/

namespace Sys2Proof.Safety

open Sys2Proof.Machine

/-- Settles O36: the error entry's fields, and the code of each kind. -/
theorem raiseEntersTheError : Obligations.RaiseEntersTheError := by
  unfold Obligations.RaiseEntersTheError
  intro kind pos exp obs s
  refine ⟨rfl, rfl, rfl, rfl, rfl, rfl, rfl, rfl, errorKindOf_errorCode kind, ?code, rfl⟩
  case code => cases kind <;> rfl

/-- Settles O37: `emit` at a full OUT and `emit` with room. -/
theorem fullBufferEndsTheCommand : Obligations.FullBufferEndsTheCommand := by
  unfold Obligations.FullBufferEndsTheCommand
  refine ⟨fun s v hfull => ?full, fun s v hroom => ?room⟩
  case full => exact ⟨_, emit_full v hfull le_rfl, rfl, rfl, rfl, rfl, rfl, rfl, rfl, rfl⟩
  case room =>
    refine ⟨_, emit_room v hroom, rfl, ?_, fun q hq => ?_, rfl⟩
    · rw [State.outByte_pushOut, if_pos rfl]
    · rw [State.outByte_pushOut, if_neg hq]

section

variable {s u : State} {cap : Nat}

/-- Fewer bytes than asked for have room. -/
theorem not_hasRoom {n : Nat} (hcap : s.cfg.outCap = some cap) (hover : cap < s.outLen + n) : ¬ s.hasRoom n :=
  fun h => absurd (h cap hcap) (Nat.not_le.mpr hover)

/-- What CapacityExceeded writes where the flags were still those of the step's beginning. -/
theorem capacityExceeded_ends {x : Host.Outcome State Fault Refusal}
    (h : x = .next (u.raiseError .capacityExceeded s.ip cap (cap + 1))) (hstatus : u.status = s.status) :
    ∃ t, x = .next t ∧ t.errKind = 6#3 ∧ t.errPos = s.ip ∧ t.errExp = cap ∧ t.errObs = cap + 1 ∧ t.outLenReg = 0 ∧
      t.status = { s.status with busy := false, done := true, err := true } :=
  ⟨_, h, rfl, rfl, rfl, rfl, rfl, congrArg statusEndedErr hstatus⟩

theorem litToken_full (byte : Byte) (hwhole : s.ip + 1 < s.inLen) (hcap : s.cfg.outCap = some cap)
    (hfull : cap ≤ s.outLen) :
    litToken byte s =
      .ended (State.raiseError .capacityExceeded s.ip cap (cap + 1) { s with tag := litTag }) := by
  have hemit := emit_full (s := { s with tag := litTag }) byte hcap hfull
  rw [litToken, if_neg (Nat.not_le.mpr hwhole), hemit, Flow.andThen_ended]

theorem closeRun_full (hcap : s.cfg.outCap = some cap) (hover : cap < s.outLen + 2) :
    ∃ us, closeRun s = .ended ((s.appended us).raiseError .capacityExceeded s.ip cap (cap + 1)) := by
  rcases closeRun_cases s with ⟨hroom, -⟩ | ⟨us, c, hc, -, hend⟩
  · exact absurd hroom (not_hasRoom hcap hover)
  · obtain rfl : c = cap := Option.some.inj (hc.symm.trans hcap)
    exact ⟨us, hend⟩

/-- R106, R104, R105: wherever the run is closed and its record does not fit. -/
theorem rleCompressIterate_full (hclose : s.inLen ≤ s.ip ∨ s.inByte s.ip ≠ s.cur ∨ s.cnt.toNat = 65535)
    (hcap : s.cfg.outCap = some cap) (hover : cap < s.outLen + 2) :
    ∃ us, rleCompressIterate s = .ended ((s.appended us).raiseError .capacityExceeded s.ip cap (cap + 1)) := by
  obtain ⟨us, hend⟩ := closeRun_full hcap hover
  refine ⟨us, ?_⟩
  rcases Nat.lt_or_ge s.ip s.inLen with hip | hge
  · have hcloses : ¬(s.inByte s.ip = s.cur ∧ s.cnt.toNat < Config.runCap) := by
      rintro ⟨heq, hlt⟩
      have hlt' : s.cnt.toNat < 65535 := hlt
      rcases hclose with h | h | h
      · omega
      · exact h heq
      · omega
    rw [rleCompressIterate_closes hip hcloses, hend, Flow.andThen_ended]
  · rw [rleCompressIterate_end hge, hend, Flow.andThen_ended]

/-- A token of LZ77.COMPRESS that does not fit: the literal of two bytes or the match of three. -/
theorem emitToken_full (hip : s.ip < s.inLen) (hcap : s.cfg.outCap = some cap) (hle : s.outLen ≤ cap)
    (hover : s.bestLen < 3 ∧ cap < s.outLen + 2 ∨
      3 ≤ s.bestLen ∧ s.bestOff ≤ 255 ∧ s.bestLen ≤ 255 ∧ cap < s.outLen + 3) :
    ∃ us, emitToken s = .ended ((s.appended us).raiseError .capacityExceeded s.ip cap (cap + 1)) := by
  rcases hover with ⟨hshort, hover⟩ | ⟨hlong, hoff, hlen, hover⟩
  · have hend := emitAll_full [litTag, s.inByte s.ip] hcap hle hover
    refine ⟨[litTag, s.inByte s.ip].take (cap - s.outLen), ?_⟩
    rw [emitToken_short hshort, emitLiteral, readIn_eq hip]
    exact congrArg (Flow.andThen · _) hend
  · have hend := emitAll_full [matchTag, fieldByte s.bestOff, fieldByte s.bestLen] hcap hle hover
    refine ⟨[matchTag, fieldByte s.bestOff, fieldByte s.bestLen].take (cap - s.outLen), ?_⟩
    rw [emitToken_long hlong, emitMatch_fits hoff hlen]
    exact congrArg (Flow.andThen · _) hend

end

/-- Settles O38: in each operation the bytes that do not fit end the command, with the flags and the cursor of the step's
beginning. -/
theorem capacityIsCheckedByEveryAppender : Obligations.CapacityIsCheckedByEveryAppender := by
  unfold Obligations.CapacityIsCheckedByEveryAppender
  intro s cap hcap hle
  refine ⟨fun byte hrun hwhole hover => ?lit, fun offset length hrun hwhole hpos hoff hover => ?matchTok,
    fun hrun hclose hover => ?rleCompress, fun o l hrun hip hanswer hover => ?lz77Compress⟩
  case lit =>
    have hstep := exec_lit_running byte hrun
    rw [litToken_full byte hwhole hcap (Nat.le_of_lt_succ hover)] at hstep
    exact capacityExceeded_ends hstep rfl
  case matchTok =>
    have hstep := exec_matchTok_running offset length hrun
    rw [matchToken_copies length hwhole hpos hoff] at hstep
    rcases copySpan_cases length.toNat (matchRead offset length s) hpos hoff with
      ⟨t, hroom, -, -⟩ | ⟨m, c, u, hc, -, -, hcopied, hend⟩
    · rcases hroom with hroom | hzero
      · exact absurd hroom (not_hasRoom hcap hover)
      · omega
    · obtain rfl : c = cap := Option.some.inj (hc.symm.trans hcap)
      have hstatus : u.status = (matchRead offset length s).status := by rw [hcopied.frame]
      rw [hend, Flow.andThen_ended, Flow.outcome_ended] at hstep
      exact capacityExceeded_ends hstep hstatus
  case rleCompress =>
    obtain ⟨us, hend⟩ := rleCompressIterate_full hclose hcap hover
    have hstep := exec_rleCompress_running hrun
    rw [hend] at hstep
    exact capacityExceeded_ends hstep rfl
  case lz77Compress =>
    obtain ⟨cand, k, maxlen, hstep⟩ := exec_lz77Compress_answer hrun hip hanswer
    obtain ⟨us, hend⟩ := emitToken_full (s := answered cand k maxlen o l s) hip hcap hle hover
    rw [hend] at hstep
    exact capacityExceeded_ends hstep rfl

end Sys2Proof.Safety

/-! The host's view: STATUS, the reads of an idle engine, and the state after reset. -/

namespace Sys2Proof.Safety

open Sys2Proof.Machine

/-- Settles O44: the four flags have finitely many values. -/
theorem statusWordHasTheFlagsInPlace : Obligations.StatusWordHasTheFlagsInPlace := by
  unfold Obligations.StatusWordHasTheFlagsInPlace
  rintro ⟨busy, done, err, rleOvf⟩
  revert busy done err rleOvf
  decide

/-- Settles O45: with BUSY clear no read gives a free value but one of OUT outside a result. -/
theorem hostReadsTheResult : Obligations.HostReadsTheResult := by
  unfold Obligations.HostReadsTheResult
  intro s hidle
  refine ⟨rfl, rfl, rfl, ?outLen, rfl, rfl, rfl, rfl, fun p hp => ?inByte, fun hdone herr q hq hcap => ?outByte⟩
  case outLen => simp [hostRead, hidle]
  case inByte => exact if_pos ((insideCapacity_eq_true p s.cfg.inCap).mpr hp)
  case outByte =>
    refine (if_pos ((insideCapacity_eq_true q s.cfg.outCap).mpr hcap)).trans (if_pos ?_)
    simp [hdone, herr, hq]

/-- Settles O46: the host's queue is empty, so a step leaves the idle engine as it is. -/
theorem resetLeavesTheInstanceIdle : Obligations.ResetLeavesTheInstanceIdle := by
  unfold Obligations.ResetLeavesTheInstanceIdle
  exact ⟨rfl, rfl, rfl, rfl, rfl, rfl, rfl, rfl, rfl⟩

/-- Settles O47: nothing runs, nothing has ended and both buffers list nothing, so each clause is empty or evaluates. -/
theorem resetMeetsTheInvariant : Obligations.ResetMeetsTheInvariant where
  inWf := rfl
  outWf := rfl
  phase := by rintro ⟨hbusy, -⟩; cases hbusy
  errDone := by intro herr; cases herr
  overflowOwner := by intro hovf; cases hovf
  kindLegal := by decide
  kindErr := ⟨fun _ => rfl, fun _ => rfl⟩
  contextClear := fun _ => ⟨rfl, rfl, rfl⟩
  noPartial := by intro herr; cases herr
  cmdLegal := by decide
  inLenFits := by intro cap hcap; cases hcap
  outFits := by intro cap hcap; cases hcap
  cursor := by intro hbusy; cases hbusy
  appended := by intro hbusy; cases hbusy
  resultWritten := by intro hdone; cases hdone
  runOpen := by rintro ⟨hbusy, -⟩; cases hbusy
  pairAligned := by rintro ⟨hbusy, -⟩; cases hbusy

end Sys2Proof.Safety

/-! What each sub-block keeps and which errors it raises (10_state.md R21 to R25, 60_exceptions.md R199): one lemma per
operation, and the obligations on frames and error kinds. -/

namespace Sys2Proof.Safety

open Sys2Proof.Machine

/-! The working registers by their sub-block. -/

/-- The run aggregator's registers (R22). -/
def rleEncoderRegs (s : State) : Byte × RunCount := (s.cur, s.cnt)

/-- The record decoder's registers (R23). -/
def rleDecoderRegs (s : State) : Byte × Byte := (s.val, s.rem)

/-- The match-finder's registers (R24). -/
def finderRegs (s : State) : Nat × Nat × Nat × Nat × Nat := (s.cand, s.k, s.maxlen, s.bestOff, s.bestLen)

/-- The token decoder's registers (R25). -/
def lz77DecoderRegs (s : State) : Byte × Byte × Byte := (s.tag, s.off, s.len)

/-- What RLE.COMPRESS leaves alone. -/
def beyondRleEncoder (s : State) := (rleDecoderRegs s, finderRegs s, lz77DecoderRegs s)

/-- What RLE.DECOMPRESS leaves alone. -/
def beyondRleDecoder (s : State) := (s.status.rleOvf, rleEncoderRegs s, finderRegs s, lz77DecoderRegs s)

/-- What LZ77.COMPRESS leaves alone. -/
def beyondLz77Encoder (s : State) := (s.status.rleOvf, rleEncoderRegs s, rleDecoderRegs s, lz77DecoderRegs s)

/-- What LZ77.DECOMPRESS leaves alone. -/
def beyondLz77Decoder (s : State) := (s.status.rleOvf, rleEncoderRegs s, rleDecoderRegs s, finderRegs s)

/-- The error kinds a running command can end with (R199), by its CMD value: the range error only where the parameters
allow it (R7, R149). -/
def KindsOf (c : Config) (code : Byte) (kind : ErrorKind) : Prop :=
  kind = .capacityExceeded ∨
  code = 0x01#8 ∧ kind = .encodableRangeExceeded ∧ ¬ c.WellConfigured ∨
  code = 0x03#8 ∧ (kind = .truncatedRecord ∨ kind = .invalidBackReference ∨ kind = .unrecognizedTag)

/-- A flow from `s` keeps `f`, and if it raises an error the kind is one of the command's own. -/
inductive Own {α : Type} (f : State → α) (code : Byte) (s : State) : Flow → Prop where
  | goesOn {t : State} (kept : f t = f s) (err : t.status.err = s.status.err) (same : t.errKind = s.errKind) :
    Own f code s (.go t)
  | endsOk {t : State} (kept : f t = f s) (err : t.status.err = s.status.err) (same : t.errKind = s.errKind) :
    Own f code s (.ended t)
  | endsErr {t : State} (kept : f t = f s) (kind : ErrorKind) (own : KindsOf s.cfg code kind)
      (raised : t.errKind = errorCode kind) : Own f code s (.ended t)
  | stops (e : Fault) : Own f code s (.stop e)

section

variable {α : Type} {f : State → α} {code : Byte} {s t : State} {x : Flow}

theorem Own.kept_of_next (h : Own f code s x) (hnext : x.outcome = .next t) : f t = f s := by
  cases h with
  | goesOn kept | endsOk kept | endsErr kept => cases hnext; exact kept
  | stops => cases hnext

theorem Own.kind_of_next (h : Own f code s x) (hnext : x.outcome = .next t) :
    t.status.err = s.status.err ∧ t.errKind = s.errKind ∨
    ∃ kind, KindsOf s.cfg code kind ∧ t.errKind = errorCode kind := by
  cases h with
  | goesOn _ err same | endsOk _ err same => cases hnext; exact .inl ⟨err, same⟩
  | endsErr _ kind own raised => cases hnext; exact .inr ⟨kind, own, raised⟩
  | stops => cases hnext

end

theorem rleCompressIterate_own (s : State) : Own beyondRleEncoder 0x00#8 s (rleCompressIterate s) := by
  rcases Nat.lt_or_ge s.ip s.inLen with hip | hend
  · by_cases habsorb : s.inByte s.ip = s.cur ∧ s.cnt.toNat < Config.runCap
    · rw [rleCompressIterate_absorbs hip habsorb.1 habsorb.2]
      exact .goesOn rfl rfl rfl
    · rw [rleCompressIterate_closes hip habsorb]
      rcases closeRun_cases s with ⟨-, h⟩ | ⟨us, cap, -, -, h⟩
      · rw [h]; exact .goesOn rfl rfl rfl
      · rw [h]; exact .endsErr rfl .capacityExceeded (.inl rfl) rfl
  · rw [rleCompressIterate_end hend]
    rcases closeRun_cases s with ⟨-, h⟩ | ⟨us, cap, -, -, h⟩
    · rw [h]; exact .endsOk rfl rfl rfl
    · rw [h]; exact .endsErr rfl .capacityExceeded (.inl rfl) rfl

theorem repRecord_own (value count : Byte) (s : State) :
    Own beyondRleDecoder 0x02#8 s (repRecord value count s) := by
  rcases repRecord_cases value count s with ⟨-, h⟩ | ⟨m, cap, -, -, h⟩
  · rw [h]; exact .goesOn rfl rfl rfl
  · rw [h]; exact .endsErr rfl .capacityExceeded (.inl rfl) rfl

theorem rleDecompressIterate_own (s : State) :
    Own beyondRleDecoder 0x02#8 s (rleDecompressIterate s) := by
  unfold rleDecompressIterate
  split
  · split
    · exact .stops _
    · split
      · exact .stops _
      · exact repRecord_own _ _ s
  · exact .endsOk rfl rfl rfl

/-- R145, R149: a match beyond the fields shows a parameter beyond FIELD_MAX or a window or cap of 0. -/
theorem not_wellConfigured_of_oversized {s t : State} (h : Searched s t) (hover : 255 < t.bestOff ∨ 255 < t.bestLen) :
    ¬ s.cfg.WellConfigured := by
  rintro ⟨-, hW, -, hL⟩
  have hW' : s.cfg.W ≤ 255 := hW
  have hL' : s.cfg.L ≤ 255 := hL
  have hoff := h.offBound
  have hlen := h.lenBound
  omega

theorem lz77CompressIterate_own (s : State) :
    Own beyondLz77Encoder 0x01#8 s (lz77CompressIterate s) := by
  rcases Nat.lt_or_ge s.ip s.inLen with hip | hend
  case inr => rw [lz77CompressIterate, if_neg (Nat.not_lt.mpr hend)]; exact .endsOk rfl rfl rfl
  obtain ⟨t, hfind, hsearched⟩ := find_cases s
  rw [lz77CompressIterate_find hip hfind]
  have hkept : beyondLz77Encoder t = beyondLz77Encoder s := by rw [hsearched.frame]; rfl
  have hgrown := hsearched.grown
  rcases Nat.lt_or_ge t.bestLen Config.minMatch with hshort | hlong
  · rw [emitToken_short hshort, emitLiteral]
    split
    · exact .stops _
    · rename_i b _
      rcases emitAll_cases [litTag, b] t with ⟨-, h⟩ | ⟨us, cap, -, -, h⟩
      · rw [h]; exact .goesOn hkept hgrown.err hgrown.errKind
      · rw [h]; exact .endsErr hkept .capacityExceeded (.inl rfl) rfl
  · rw [emitToken_long hlong]
    by_cases hfits : t.bestOff ≤ 255 ∧ t.bestLen ≤ 255
    · rw [emitMatch_fits hfits.1 hfits.2]
      rcases emitAll_cases [matchTag, fieldByte t.bestOff, fieldByte t.bestLen] t with ⟨-, h⟩ | ⟨us, cap, -, -, h⟩
      · rw [h]; exact .goesOn hkept hgrown.err hgrown.errKind
      · rw [h]; exact .endsErr hkept .capacityExceeded (.inl rfl) rfl
    · have hover : 255 < t.bestOff ∨ 255 < t.bestLen := by omega
      have hranges := not_wellConfigured_of_oversized hsearched hover
      rw [emitMatch_oversized hover]
      exact .endsErr hkept .encodableRangeExceeded (.inr (.inl ⟨rfl, rfl, hranges⟩)) rfl

theorem litToken_own (byte : Byte) (s : State) : Own beyondLz77Decoder 0x03#8 s (litToken byte s) := by
  rcases Nat.lt_or_ge (s.ip + 1) s.inLen with hwhole | hshort
  · rw [litToken, if_neg (Nat.not_le.mpr hwhole)]
    rcases emit_cases byte { s with tag := litTag } with ⟨-, h⟩ | ⟨cap, -, -, h⟩
    · rw [h]; exact .goesOn rfl rfl rfl
    · rw [h]; exact .endsErr rfl .capacityExceeded (.inl rfl) rfl
  · rw [litToken_short byte hshort]
    exact .endsErr rfl .truncatedRecord (.inr (.inr ⟨rfl, .inl rfl⟩)) rfl

theorem matchToken_own (offset length : Byte) (s : State) :
    Own beyondLz77Decoder 0x03#8 s (matchToken offset length s) := by
  rcases Nat.lt_or_ge (s.ip + 2) s.inLen with hwhole | hshort
  case inr =>
    rw [matchToken_short offset length hshort]
    exact .endsErr rfl .truncatedRecord (.inr (.inr ⟨rfl, .inl rfl⟩)) rfl
  by_cases hgood : 1 ≤ offset.toNat ∧ offset.toNat ≤ s.outLen
  case neg =>
    rw [matchToken_bad length hwhole (bad_offset_iff.mpr hgood)]
    exact .endsErr rfl .invalidBackReference (.inr (.inr ⟨rfl, .inr (.inl rfl)⟩)) rfl
  rw [matchToken_copies length hwhole hgood.1 hgood.2]
  rcases copySpan_cases length.toNat (matchRead offset length s) hgood.1 hgood.2 with
    ⟨t, -, h, hcopied⟩ | ⟨m, cap, u, -, -, -, hcopied, h⟩
  · rw [h, hcopied.frame]; exact .goesOn rfl rfl rfl
  · rw [h, hcopied.frame]; exact .endsErr rfl .capacityExceeded (.inl rfl) rfl

theorem illegalToken_own (tag : Byte) (s : State) :
    Own beyondLz77Decoder 0x03#8 s (illegalToken tag s) :=
  .endsErr rfl .unrecognizedTag (.inr (.inr ⟨rfl, .inr (.inr rfl)⟩)) rfl

theorem lz77DecompressIterate_own (s : State) :
    Own beyondLz77Decoder 0x03#8 s (lz77DecompressIterate s) := by
  have htruncated : ∀ need tag, Own beyondLz77Decoder 0x03#8 s (truncatedToken need { s with tag := tag }) :=
    fun _ _ => .endsErr rfl .truncatedRecord (.inr (.inr ⟨rfl, .inl rfl⟩)) rfl
  unfold lz77DecompressIterate
  split
  case isFalse => exact .endsOk rfl rfl rfl
  split
  · exact .stops _
  · split
    · split
      · exact htruncated _ _
      · exact litToken_own _ s
    · split
      · split
        · exact matchToken_own _ _ s
        · exact htruncated _ _
      · exact illegalToken_own _ s

/-! The instruction of a busy engine, by its flow. -/

/-- The CMD value of the command an instruction belongs to (R70, R73). -/
def ownerOf : Instr → Byte
  | .rleCompress => 0x00#8
  | .lz77Compress => 0x01#8
  | .rleDecompress | .rep _ _ => 0x02#8
  | .lz77Decompress | .lit _ | .matchTok _ _ | .illegalTag _ => 0x03#8

/-- What an instruction does while its command runs. -/
def flowOf (i : Instr) (s : State) : Flow :=
  match i with
  | .rleCompress => rleCompressIterate s
  | .lz77Compress => lz77CompressIterate s
  | .rleDecompress => rleDecompressIterate s
  | .lz77Decompress => lz77DecompressIterate s
  | .rep value count => repRecord value count s
  | .lit byte => litToken byte s
  | .matchTok offset length => matchToken offset length s
  | .illegalTag tag => illegalToken tag s

/-- A busy engine answers a next state only where the instruction's command runs, and then by the instruction's flow. -/
theorem exec_busy_flow {i : Instr} {s t : State} (hbusy : s.status.busy = true) (h : exec i s = .next t) :
    s.running (ownerOf i) ∧ (flowOf i s).outcome = .next t := by
  have hcommand : ∀ {code enter iterate}, commandStep code enter iterate s = .next t →
      s.running code ∧ (iterate s).outcome = .next t := fun h => by
    rcases commandStep_next h with hrun | ⟨hidle, -⟩
    · exact hrun
    · cases hbusy.symm.trans hidle
  cases i with
  | rleCompress | lz77Compress | rleDecompress | lz77Decompress => exact hcommand h
  | rep | lit | matchTok | illegalTag => exact recordStep_next h

/-- A step of a busy engine is the execution of some instruction. -/
theorem exec_of_step_busy {s t : State} (hbusy : s.status.busy = true) (h : step s = .next t) :
    ∃ i, exec i s = .next t := by
  rw [step, if_pos hbusy] at h
  split at h
  case h_1 i _ => exact ⟨i, h⟩
  case h_2 => cases h

/-- R108: only RLE.COMPRESS writes the overflow flag of a running command. -/
theorem flowOf_overflow {i : Instr} {s t : State} (hi : i ≠ .rleCompress) (h : (flowOf i s).outcome = .next t) :
    t.status.rleOvf = s.status.rleOvf := by
  cases i with
  | rleCompress => exact absurd rfl hi
  | lz77Compress => exact congrArg Prod.fst ((lz77CompressIterate_own s).kept_of_next h)
  | rleDecompress => exact congrArg Prod.fst ((rleDecompressIterate_own s).kept_of_next h)
  | lz77Decompress => exact congrArg Prod.fst ((lz77DecompressIterate_own s).kept_of_next h)
  | rep value count => exact congrArg Prod.fst ((repRecord_own value count s).kept_of_next h)
  | lit byte => exact congrArg Prod.fst ((litToken_own byte s).kept_of_next h)
  | matchTok offset length => exact congrArg Prod.fst ((matchToken_own offset length s).kept_of_next h)
  | illegalTag tag => exact congrArg Prod.fst ((illegalToken_own tag s).kept_of_next h)

/-- R199: an instruction of a running command keeps ERR and ERR_KIND or raises a kind of its command's column. -/
theorem flowOf_kind {i : Instr} {s t : State} (h : (flowOf i s).outcome = .next t) :
    t.status.err = s.status.err ∧ t.errKind = s.errKind ∨
    ∃ kind, KindsOf s.cfg (ownerOf i) kind ∧ t.errKind = errorCode kind := by
  cases i with
  | rleCompress => exact (rleCompressIterate_own s).kind_of_next h
  | lz77Compress => exact (lz77CompressIterate_own s).kind_of_next h
  | rleDecompress => exact (rleDecompressIterate_own s).kind_of_next h
  | lz77Decompress => exact (lz77DecompressIterate_own s).kind_of_next h
  | rep value count => exact (repRecord_own value count s).kind_of_next h
  | lit byte => exact (litToken_own byte s).kind_of_next h
  | matchTok offset length => exact (matchToken_own offset length s).kind_of_next h
  | illegalTag tag => exact (illegalToken_own tag s).kind_of_next h

theorem ownerOf_cases (i : Instr) :
    ownerOf i = 0x00#8 ∨ ownerOf i = 0x01#8 ∨ ownerOf i = 0x02#8 ∨ ownerOf i = 0x03#8 := by
  cases i <;> simp [ownerOf]

/-- Settles O39: ERR has risen, so the step has raised a kind of the column of the command in CMD. -/
theorem eachCommandRaisesItsOwnKinds : Obligations.EachCommandRaisesItsOwnKinds := by
  unfold Obligations.EachCommandRaisesItsOwnKinds
  intro s t hbusy hnoErr hstep herr
  obtain ⟨i, hexec⟩ := exec_of_step_busy hbusy hstep
  obtain ⟨⟨-, hcmd⟩, hflow⟩ := exec_busy_flow hbusy hexec
  rw [hcmd]
  rcases flowOf_kind hflow with ⟨hsame, -⟩ | ⟨kind, hkind, hcode⟩
  · cases (hsame.trans hnoErr).symm.trans herr
  · rw [hcode]
    rcases hkind with rfl | ⟨howner, rfl, -⟩ | ⟨howner, hkind⟩
    · rcases ownerOf_cases i with h | h | h | h <;> simp [h, errorCode]
    · exact .inr (.inl ⟨howner, .inl rfl⟩)
    · rcases hkind with rfl | rfl | rfl <;> exact .inr (.inr (.inr ⟨howner, by simp [errorCode]⟩))

/-- Settles O30: only LZ77.COMPRESS raises the range error, and only outside R7; a start clears the code or sets 1. -/
theorem wellConfiguredNeverExceedsTheRange : Obligations.WellConfiguredNeverExceedsTheRange := by
  unfold Obligations.WellConfiguredNeverExceedsTheRange
  intro s t hconfigured hcode hstep
  by_cases hbusy : s.status.busy = true
  case pos =>
    obtain ⟨i, hexec⟩ := exec_of_step_busy hbusy hstep
    rcases flowOf_kind (exec_busy_flow hbusy hexec).2 with ⟨-, hsame⟩ | ⟨kind, hkind, hraised⟩
    · rwa [hsame]
    · rw [hraised]
      rcases hkind with rfl | ⟨-, -, hnot⟩ | ⟨-, rfl | rfl | rfl⟩
      · decide
      · exact absurd hconfigured hnot
      · decide
      · decide
      · decide
  case neg =>
    have hidle : s.status.busy = false := by simpa using hbusy
    cases step_idle_next hidle hstep with
    | waits | writesIn | writesInLen => exact hcode
    | starts _ hbegins => rcases hbegins.errKind with h | h <;> rw [h] <;> decide

end Sys2Proof.Safety

/-! Frames of `exec`: the working registers, IN, OUT and the host-visible registers. -/

namespace Sys2Proof.Safety

open Sys2Proof.Machine

section

variable {i : Instr} {s t : State}

/-- A start writes no working register but those of the first run (R102). -/
theorem Begins.registers (h : Begins s i t) :
    (i ≠ .rleCompress → rleEncoderRegs t = rleEncoderRegs s) ∧ rleDecoderRegs t = rleDecoderRegs s ∧
    finderRegs t = finderRegs s ∧ lz77DecoderRegs t = lz77DecoderRegs s := by
  cases h with
  | firstRun | noRun => exact ⟨fun h => absurd rfl h, rfl, rfl, rfl⟩
  | lz77Compress | rleDecompress | malformed | lz77Decompress => exact ⟨fun _ => rfl, rfl, rfl, rfl⟩

/-- A start keeps the parameters, IN, IN_LEN, the host's moves and every byte of OUT; only an error begins a new era. -/
theorem Begins.frame (h : Begins s i t) :
    t.inLen = s.inLen ∧ t.cfg = s.cfg ∧ t.hostQ = s.hostQ ∧ t.inBuf = s.inBuf ∧
    (t.status.err = false → t.outBuf = s.outBuf ∧ t.outEra = s.outEra) := by
  cases h with
  | malformed => exact ⟨rfl, rfl, rfl, rfl, nofun⟩
  | firstRun | noRun | lz77Compress | rleDecompress | lz77Decompress =>
    exact ⟨rfl, rfl, rfl, rfl, fun _ => ⟨rfl, rfl⟩⟩

/-- An instruction of a busy engine writes the working registers of its own sub-block only (R21 to R25). -/
theorem flowOf_registers (h : (flowOf i s).outcome = .next t) :
    (i ≠ .rleCompress → rleEncoderRegs t = rleEncoderRegs s) ∧
    (i.layer ≠ .rleStream → i ≠ .rleDecompress → rleDecoderRegs t = rleDecoderRegs s) ∧
    (i ≠ .lz77Compress → finderRegs t = finderRegs s) ∧
    (i.layer ≠ .lz77Stream → i ≠ .lz77Decompress → lz77DecoderRegs t = lz77DecoderRegs s) := by
  have hrleDecoder : beyondRleDecoder t = beyondRleDecoder s →
      rleEncoderRegs t = rleEncoderRegs s ∧ finderRegs t = finderRegs s ∧ lz77DecoderRegs t = lz77DecoderRegs s :=
    fun h => by simpa using (Prod.mk.inj h).2
  have hlz77Decoder : beyondLz77Decoder t = beyondLz77Decoder s →
      rleEncoderRegs t = rleEncoderRegs s ∧ rleDecoderRegs t = rleDecoderRegs s ∧ finderRegs t = finderRegs s :=
    fun h => by simpa using (Prod.mk.inj h).2
  cases i with
  | rleCompress =>
    have hkept : beyondRleEncoder t = beyondRleEncoder s := (rleCompressIterate_own s).kept_of_next h
    obtain ⟨hval, hfinder, htag⟩ : rleDecoderRegs t = rleDecoderRegs s ∧ finderRegs t = finderRegs s ∧
      lz77DecoderRegs t = lz77DecoderRegs s := by simpa [beyondRleEncoder] using hkept
    exact ⟨fun h => absurd rfl h, fun _ _ => hval, fun _ => hfinder, fun _ _ => htag⟩
  | lz77Compress =>
    have hkept : beyondLz77Encoder t = beyondLz77Encoder s := (lz77CompressIterate_own s).kept_of_next h
    obtain ⟨-, hcur, hval, htag⟩ : t.status.rleOvf = s.status.rleOvf ∧ rleEncoderRegs t = rleEncoderRegs s ∧
      rleDecoderRegs t = rleDecoderRegs s ∧ lz77DecoderRegs t = lz77DecoderRegs s := by
        simpa [beyondLz77Encoder] using hkept
    exact ⟨fun _ => hcur, fun _ _ => hval, fun h => absurd rfl h, fun _ _ => htag⟩
  | rleDecompress =>
    obtain ⟨hcur, hfinder, htag⟩ := hrleDecoder ((rleDecompressIterate_own s).kept_of_next h)
    exact ⟨fun _ => hcur, fun _ h => absurd rfl h, fun _ => hfinder, fun _ _ => htag⟩
  | rep value count =>
    obtain ⟨hcur, hfinder, htag⟩ := hrleDecoder ((repRecord_own value count s).kept_of_next h)
    exact ⟨fun _ => hcur, fun h => absurd rfl h, fun _ => hfinder, fun _ _ => htag⟩
  | lz77Decompress =>
    obtain ⟨hcur, hval, hfinder⟩ := hlz77Decoder ((lz77DecompressIterate_own s).kept_of_next h)
    exact ⟨fun _ => hcur, fun _ _ => hval, fun _ => hfinder, fun _ h => absurd rfl h⟩
  | lit byte =>
    obtain ⟨hcur, hval, hfinder⟩ := hlz77Decoder ((litToken_own byte s).kept_of_next h)
    exact ⟨fun _ => hcur, fun _ _ => hval, fun _ => hfinder, fun h => absurd rfl h⟩
  | matchTok offset length =>
    obtain ⟨hcur, hval, hfinder⟩ := hlz77Decoder ((matchToken_own offset length s).kept_of_next h)
    exact ⟨fun _ => hcur, fun _ _ => hval, fun _ => hfinder, fun h => absurd rfl h⟩
  | illegalTag tag =>
    obtain ⟨hcur, hval, hfinder⟩ := hlz77Decoder ((illegalToken_own tag s).kept_of_next h)
    exact ⟨fun _ => hcur, fun _ _ => hval, fun _ => hfinder, fun h => absurd rfl h⟩

end

/-- Settles O40: an idle engine starts a command, a busy one runs an instruction's flow. -/
theorem workingRegistersHaveOneWriter : Obligations.WorkingRegistersHaveOneWriter := by
  unfold Obligations.WorkingRegistersHaveOneWriter
  intro i s t hexec
  have hregs : (i ≠ .rleCompress → rleEncoderRegs t = rleEncoderRegs s) ∧
      (i.layer ≠ .rleStream → i ≠ .rleDecompress → rleDecoderRegs t = rleDecoderRegs s) ∧
      (i ≠ .lz77Compress → finderRegs t = finderRegs s) ∧
      (i.layer ≠ .lz77Stream → i ≠ .lz77Decompress → lz77DecoderRegs t = lz77DecoderRegs s) := by
    cases hbusy : s.status.busy with
    | true => exact flowOf_registers (exec_busy_flow hbusy hexec).2
    | false =>
      obtain ⟨hcur, hval, hfinder, htag⟩ := (begins_of_exec hbusy hexec).2.registers
      exact ⟨hcur, fun _ _ => hval, fun _ => hfinder, fun _ _ => htag⟩
  simpa only [rleEncoderRegs, rleDecoderRegs, finderRegs, lz77DecoderRegs, Prod.mk.injEq] using hregs

/-- Where an instruction of a busy engine leads: on from a grown state, or to one of the two ends. -/
theorem exec_busy_cases {i : Instr} {s t : State} (hbusy : s.status.busy = true) (h : exec i s = .next t) :
    (Grown s t ∧ s.ip < t.ip) ∨
    ∃ u, Grown s u ∧ u.ip = s.ip ∧
      (t = u.closeOk ∨ ∃ kind exp obs, u.status = s.status ∧ t = u.raiseError kind s.ip exp obs) := by
  obtain ⟨x, hx, heffect⟩ := exec_busy_effect hbusy h
  cases heffect with
  | goesOn grown ip => cases hx; exact .inl ⟨grown, ip⟩
  | endsOk grown ip => cases hx; exact .inr ⟨_, grown, ip, .inl rfl⟩
  | endsErr grown ip status kind exp obs =>
    cases hx
    exact .inr ⟨_, grown, ip, .inr ⟨kind, exp, obs, status, rfl⟩⟩

/-- Settles O41: neither a start nor the flow of a running command writes on the host's side. -/
theorem engineNeverWritesIn : Obligations.EngineNeverWritesIn := by
  unfold Obligations.EngineNeverWritesIn
  intro i s t hexec
  have hkept : t.inLen = s.inLen ∧ t.cfg = s.cfg ∧ t.hostQ = s.hostQ ∧ t.inBuf = s.inBuf := by
    cases hbusy : s.status.busy with
    | true =>
      rcases exec_busy_cases hbusy hexec with ⟨hgrown, -⟩ | ⟨u, hgrown, -, rfl | ⟨kind, exp, obs, -, rfl⟩⟩ <;>
        exact ⟨hgrown.inLen, hgrown.cfg, hgrown.hostQ, hgrown.inBuf⟩
    | false =>
      obtain ⟨hinLen, hcfg, hhostQ, hinBuf, -⟩ := (begins_of_exec hbusy hexec).2.frame
      exact ⟨hinLen, hcfg, hhostQ, hinBuf⟩
  obtain ⟨hinLen, hcfg, hhostQ, hinBuf⟩ := hkept
  exact ⟨hinLen, hcfg, hhostQ, hinBuf, fun p => by simp only [State.inByte, hinBuf]⟩

/-- Settles O42: growth appends, a successful end and a start leave OUT, and an error is excluded. -/
theorem outIsAppendOnly : Obligations.OutIsAppendOnly := by
  unfold Obligations.OutIsAppendOnly
  intro i s t hexec hnoErr
  refine ⟨fun hbusy => ?busy, fun hidle q => ?idle⟩
  case busy =>
    rcases exec_busy_cases hbusy hexec with ⟨hgrown, -⟩ | ⟨u, hgrown, -, rfl | ⟨kind, exp, obs, -, rfl⟩⟩
    · exact ⟨hgrown.outMono, hgrown.outside⟩
    · exact ⟨hgrown.outMono, hgrown.outside⟩
    · cases hnoErr
  case idle =>
    obtain ⟨-, -, -, -, hout⟩ := (begins_of_exec hidle hexec).2.frame
    obtain ⟨houtBuf, houtEra⟩ := hout hnoErr
    simp only [State.outByte, houtBuf, houtEra]

/-- R33: no kind has the code 0. -/
theorem errorCode_ne_zero (kind : ErrorKind) : errorCode kind ≠ 0#3 := by
  cases kind <;> decide

/-- R33: no kind has the code 7. -/
theorem errorCode_ne_seven (kind : ErrorKind) : errorCode kind ≠ 7#3 := by
  cases kind <;> decide

/-- Settles O43: going on keeps what growth keeps, and each of the two ends writes its own registers. -/
theorem hostRegistersOfARunningCommand : Obligations.HostRegistersOfARunningCommand := by
  unfold Obligations.HostRegistersOfARunningCommand
  intro i s t hbusy hnotDone hexec
  have hovf : i ≠ .rleCompress → t.status.rleOvf = s.status.rleOvf := fun hi =>
    flowOf_overflow hi (exec_busy_flow hbusy hexec).2
  rcases exec_busy_cases hbusy hexec with ⟨hg, -⟩ | ⟨u, hg, -, rfl | ⟨kind, exp, obs, -, rfl⟩⟩
  · have hdone : t.status.done = false := hg.done.trans hnotDone
    have hrunning : t.status.busy = true := hg.busy.trans hbusy
    refine ⟨hg.cmd, hg.runs, by rw [hrunning, hdone]; rfl, hg.overflow, hovf, fun _ => hg.outLenReg,
      .inl ⟨hg.err, hg.errKind, hg.errPos, hg.errExp, hg.errObs, hg.outEra, fun h => ?_⟩⟩
    cases hdone.symm.trans h
  · exact ⟨hg.cmd, hg.runs, rfl, hg.overflow, hovf, nofun,
      .inl ⟨hg.err, hg.errKind, hg.errPos, hg.errExp, hg.errObs, hg.outEra, fun _ => rfl⟩⟩
  · exact ⟨hg.cmd, hg.runs, rfl, hg.overflow, hovf, nofun,
      .inr ⟨rfl, rfl, errorCode_ne_zero kind, rfl, rfl⟩⟩

end Sys2Proof.Safety

/-! Each operation that appends, in any OUT: it goes on to the state with its bytes, or ends with CapacityExceeded. -/

namespace Sys2Proof.Safety

open Sys2Proof.Machine

/-- A flow from `s` that goes on to `t`, or ends with CapacityExceeded at the cursor of `s` (R197). -/
inductive Appending (s t : State) : Flow → Prop where
  | fits (grown : Grown s t) : Appending s t (.go t)
  | full {u : State} {cap : Nat} (hcap : s.cfg.outCap = some cap) (grown : Grown s u) :
    Appending s t (.ended (u.raiseError .capacityExceeded s.ip cap (cap + 1)))

section

variable {s t : State} {x : Flow}

theorem Appending.andThen (h : Appending s t x) {f : State → Flow} {t' : State} (hf : f t = .go t')
    (hg : Grown t t') : Appending s t' (x.andThen f) := by
  cases h with
  | fits grown => rw [Flow.andThen_go, hf]; exact .fits (grown.trans hg)
  | full hcap grown => exact .full hcap grown

theorem Appending.eq_of_go (h : Appending s t x) {t' : State} (hgo : x = .go t') : t' = t := by
  cases h with
  | fits => exact (Flow.go.inj hgo).symm
  | full => cases hgo

/-- The operation may be one that begins after some growth. -/
theorem Appending.of_grown {s' : State} (h : Appending s' t x) (hg : Grown s s') (hip : s'.ip = s.ip) :
    Appending s t x := by
  cases h with
  | fits grown => exact .fits (hg.trans grown)
  | full hcap grown => rw [hip]; exact .full (hg.cfg ▸ hcap) (hg.trans grown)

theorem emit_appending (v : Byte) (s : State) : Appending s (s.pushOut v) (emit v s) := by
  rcases emit_cases v s with ⟨hroom, h⟩ | ⟨cap, hcap, -, h⟩
  · rw [h]; exact .fits (Grown.appended [v] s fun cap hcap _ => hroom cap hcap)
  · rw [h]; exact .full hcap (Grown.refl s)

theorem emitAll_appending (vs : List Byte) (s : State) : Appending s (s.appended vs) (emitAll vs s) := by
  rcases emitAll_grown vs s with ⟨-, h, hg⟩ | ⟨us, cap, hcap, hg, h⟩
  · rw [h]; exact .fits hg
  · rw [h]; exact .full hcap hg

/-! The RLE commands. -/

theorem closeRun_appending (s : State) : Appending s (recordClosed s) (closeRun s) :=
  (emitAll_appending [s.cur, trunc8 s.cnt] s).andThen rfl ((Grown.refl _).to_overflow s.cnt)

theorem rleCompressIterate_appending (hip : s.ip < s.inLen)
    (hclose : ¬(s.inByte s.ip = s.cur ∧ s.cnt.toNat < Config.runCap)) :
    Appending s (runReopened (s.inByte s.ip) s) (rleCompressIterate s) := by
  rw [rleCompressIterate_closes hip hclose]
  exact (closeRun_appending s).andThen rfl ((Grown.refl _).to_registers rfl)

theorem repRecord_appending (value count : Byte) (s : State) :
    Appending s (repApplied value count s) (repRecord value count s) := by
  have hread : Grown s { s with val := value, rem := count } := (Grown.refl s).to_registers rfl
  rcases repLoop_grown (fieldValue count) { s with val := value, rem := count } with ⟨h, hg⟩ | ⟨m, cap, hcap, hg, h⟩
  · rw [repRecord, h, Flow.andThen_go, ← repApplied_eq]
    exact .fits ((hread.trans hg).to_registers rfl)
  · rw [repRecord, h, Flow.andThen_ended]
    exact .full hcap (hread.trans hg)

/-! The tokens of LZ77.COMPRESS. -/

theorem emitLiteral_appending (hip : s.ip < s.inLen) : Appending s (literalEmitted s) (emitLiteral s) := by
  rw [emitLiteral, readIn_eq hip]
  exact (emitAll_appending [litTag, s.inByte s.ip] s).andThen rfl ((Grown.refl _).to_registers rfl)

theorem emitMatch_appending (hoff : s.bestOff ≤ 255) (hlen : s.bestLen ≤ 255) :
    Appending s (matchEmitted s) (emitMatch s) := by
  rw [emitMatch_fits hoff hlen]
  exact (emitAll_appending [matchTag, fieldByte s.bestOff, fieldByte s.bestLen] s).andThen rfl
    ((Grown.refl _).to_registers rfl)

/-! The tokens of LZ77.DECOMPRESS. -/

theorem litToken_appending (byte : Byte) (hwhole : s.ip + 1 < s.inLen) :
    Appending s (litApplied byte s) (litToken byte s) := by
  have htag : Grown s { s with tag := litTag } := (Grown.refl s).to_registers rfl
  rw [litToken, if_neg (Nat.not_le.mpr hwhole)]
  exact ((emit_appending byte { s with tag := litTag }).of_grown htag rfl).andThen rfl
    ((Grown.refl _).to_registers rfl)

/-- The byte a span copy reads is one of the output so far. -/
theorem outByte_eq_getD {q : Nat} (h : q < s.outLen) : s.outByte q = (produced s).getD q 0#8 := by
  rw [List.getD_eq_getElem?_getD, produced_getElem?, readOut_eq h, Option.getD_some]

/-- R163: byte by byte the span copy does what `copyBack` does on the output so far. -/
theorem copySpan_appending (n : Nat) (s : State) (hpos : 1 ≤ s.off.toNat) (hle : s.off.toNat ≤ s.outLen) :
    ∃ t, Appending s t (copySpan n s) ∧ t.ip = s.ip ∧ produced t = copyBack s.off.toNat n (produced s) := by
  induction n generalizing s with
  | zero => exact ⟨s, .fits (Grown.refl s), rfl, rfl⟩
  | succ n ih =>
    have hlt : s.outLen - s.off.toNat < s.outLen := by omega
    obtain ⟨t, happends, hip, hproduced⟩ :=
      ih { s.pushOut (s.outByte (s.outLen - s.off.toNat)) with len := s.len - 1#8 } hpos (Nat.le_succ_of_le hle)
    refine ⟨t, ?_, hip, ?_⟩
    · simp only [copySpan, fieldValue, readOut_eq hlt]
      rcases emit_cases (s.outByte (s.outLen - s.off.toNat)) s with ⟨hroom, h⟩ | ⟨cap, hcap, -, h⟩
      · have hgrown : Grown s { s.pushOut (s.outByte (s.outLen - s.off.toNat)) with len := s.len - 1#8 } :=
          (Grown.appended [_] s fun cap hcap _ => hroom cap hcap).to_registers rfl
        rw [h, Flow.andThen_go]
        exact happends.of_grown hgrown rfl
      · rw [h]
        exact .full hcap (Grown.refl s)
    · rw [hproduced, copyBack, produced_length, ← outByte_eq_getD hlt]
      exact congrArg (copyBack s.off.toNat n) (produced_pushOut _ s)

theorem matchToken_appending {offset : Byte} (length : Byte) (hwhole : s.ip + 2 < s.inLen) (hpos : 1 ≤ offset.toNat)
    (hle : offset.toNat ≤ s.outLen) :
    ∃ t, Appending s t (matchToken offset length s) ∧ t.ip = s.ip + 3 ∧
      produced t = copyBack offset.toNat length.toNat (produced s) := by
  obtain ⟨t, happends, hip, hproduced⟩ := copySpan_appending length.toNat (matchRead offset length s) hpos hle
  have hread : Grown s (matchRead offset length s) := (Grown.refl s).to_registers rfl
  refine ⟨{ t with ip := t.ip + 3 }, ?_, congrArg (· + 3) hip, hproduced⟩
  rw [matchToken_copies length hwhole hpos hle]
  exact (happends.of_grown hread rfl).andThen rfl ((Grown.refl t).to_registers rfl)

end

end Sys2Proof.Safety

/-! The invariant (10_state.md sections 2 to 6): what it says of a running command, and that starts, iterations, ends and
the host's moves keep it. -/

namespace Sys2Proof.Safety

open Sys2Proof.Machine

/-- The clauses of the invariant for a running command but the two on single commands. -/
structure Live (s : State) : Prop where
  inWf : Memory.wf s.inBuf = true
  outWf : Memory.wf s.outBuf = true
  busy : s.status.busy = true
  notDone : s.status.done = false
  noErr : s.status.err = false
  overflowOwner : s.status.rleOvf = true → s.cmd = 0x00#8
  noKind : s.errKind = 0#3
  noContext : s.errPos = 0 ∧ s.errExp = 0 ∧ s.errObs = 0
  cmdLegal : s.cmd.toNat < 4
  inLenFits : ∀ cap ∈ s.cfg.inCap, s.inLen ≤ cap
  outFits : ∀ cap ∈ s.cfg.outCap, s.outLen ≤ cap
  cursor : s.ip ≤ s.inLen
  appended : ∀ q < s.outLen, Memory.read s.outBuf q ≠ none

section

variable {s t : State}

theorem Live.of_inv (h : Inv s) (hbusy : s.status.busy = true) : Live s := by
  have hnotDone : s.status.done = false := by simpa [hbusy] using h.phase
  have hnoErr : s.status.err = false := by
    by_contra herr
    simp [h.errDone (by simpa using herr)] at hnotDone
  exact
    { inWf := h.inWf, outWf := h.outWf, busy := hbusy, notDone := hnotDone, noErr := hnoErr,
      overflowOwner := fun hovf => (h.overflowOwner hovf).1, noKind := h.kindErr.mpr hnoErr,
      noContext := h.contextClear (h.kindErr.mpr hnoErr), cmdLegal := h.cmdLegal, inLenFits := h.inLenFits,
      outFits := fun cap hcap => (h.outFits cap hcap).1 hbusy, cursor := h.cursor hbusy, appended := h.appended hbusy }

/-- With the clauses on single commands they make the invariant. -/
theorem Live.inv (h : Live s) (hrunOpen : s.cmd = 0x00#8 → 1 ≤ s.ip ∧ 1 ≤ s.cnt.toNat)
    (hpairAligned : s.cmd = 0x02#8 → s.inLen % 2 = 0 ∧ s.ip % 2 = 0) : Inv s where
  inWf := h.inWf
  outWf := h.outWf
  phase := by simp [h.notDone]
  errDone := by simp [h.noErr]
  overflowOwner := fun hovf => ⟨h.overflowOwner hovf, .inl h.busy⟩
  kindLegal := by simp [h.noKind]
  kindErr := by simp [h.noKind, h.noErr]
  contextClear := fun _ => h.noContext
  noPartial := by simp [h.noErr]
  cmdLegal := h.cmdLegal
  inLenFits := h.inLenFits
  outFits := fun cap hcap => ⟨fun _ => h.outFits cap hcap, by simp [h.busy]⟩
  cursor := fun _ => h.cursor
  appended := fun _ => h.appended
  resultWritten := by simp [h.notDone]
  runOpen := fun hrun => hrunOpen hrun.2
  pairAligned := fun hrun => hpairAligned hrun.2

/-- Growth keeps them, where the cursor stays inside the input and only RLE.COMPRESS sets the overflow flag. -/
theorem Live.grown (h : Live s) (hg : Grown s t) (hip : t.ip ≤ s.inLen)
    (hovf : s.cmd ≠ 0x00#8 → t.status.rleOvf = s.status.rleOvf) : Live t where
  inWf := hg.inBuf ▸ h.inWf
  outWf := hg.wf h.outWf
  busy := hg.busy.trans h.busy
  notDone := hg.done.trans h.notDone
  noErr := hg.err.trans h.noErr
  overflowOwner := fun ht => by
    by_contra hcmd
    rw [hg.cmd] at hcmd
    exact hcmd (h.overflowOwner ((hovf hcmd).symm.trans ht))
  noKind := hg.errKind.trans h.noKind
  noContext := by rw [hg.errPos, hg.errExp, hg.errObs]; exact h.noContext
  cmdLegal := hg.cmd ▸ h.cmdLegal
  inLenFits := by rw [hg.cfg, hg.inLen]; exact h.inLenFits
  outFits := fun cap hcap => hg.room cap (hg.cfg ▸ hcap) (h.outFits cap (hg.cfg ▸ hcap))
  cursor := hg.inLen ▸ hip
  appended := fun q hq => hg.listed q hq ((Nat.lt_or_ge q s.outLen).elim (fun hlt => .inr (h.appended q hlt)) .inl)

/-- A successful end meets the invariant (R30, R32). -/
theorem Live.inv_closeOk (h : Live s) : Inv s.closeOk where
  inWf := h.inWf
  outWf := h.outWf
  phase := fun hphase => nomatch hphase.1
  errDone := fun _ => rfl
  overflowOwner := fun hovf => ⟨h.overflowOwner hovf, .inr rfl⟩
  kindLegal := by simp [h.noKind]
  kindErr := by simp [h.noKind, h.noErr]
  contextClear := fun _ => h.noContext
  noPartial := by simp [h.noErr]
  cmdLegal := h.cmdLegal
  inLenFits := h.inLenFits
  outFits := fun cap hcap => ⟨nofun, fun _ => h.outFits cap hcap⟩
  cursor := nofun
  appended := nofun
  resultWritten := fun _ => h.appended
  runOpen := fun hrun => nomatch hrun.1
  pairAligned := fun hrun => nomatch hrun.1

/-- An end with an error meets the invariant, whatever the kind and context (R202). -/
theorem Live.inv_raiseError (h : Live s) (kind : ErrorKind) (pos exp obs : Nat) :
    Inv (s.raiseError kind pos exp obs) where
  inWf := h.inWf
  outWf := rfl
  phase := fun hphase => nomatch hphase.1
  errDone := fun _ => rfl
  overflowOwner := fun hovf => ⟨h.overflowOwner hovf, .inr rfl⟩
  kindLegal := errorCode_ne_seven kind
  kindErr := ⟨fun hkind => absurd hkind (errorCode_ne_zero kind), nofun⟩
  contextClear := fun hkind => absurd hkind (errorCode_ne_zero kind)
  noPartial := fun _ => rfl
  cmdLegal := h.cmdLegal
  inLenFits := h.inLenFits
  outFits := fun cap _ => ⟨nofun, fun _ => Nat.zero_le cap⟩
  cursor := nofun
  appended := nofun
  resultWritten := fun _ q hq => absurd hq (Nat.not_lt_zero q)
  runOpen := fun hrun => nomatch hrun.1
  pairAligned := fun hrun => nomatch hrun.1

/-! Starts and the host's moves. -/

theorem Live.startCommand (h : Inv s) (hfits : ∀ cap ∈ s.cfg.inCap, s.inLen ≤ cap) {code : Byte}
    (hcode : code.toNat < 4) : Live (s.startCommand code) where
  inWf := h.inWf
  outWf := h.outWf
  busy := rfl
  notDone := rfl
  noErr := rfl
  overflowOwner := nofun
  noKind := rfl
  noContext := ⟨rfl, rfl, rfl⟩
  cmdLegal := hcode
  inLenFits := hfits
  outFits := fun cap _ => Nat.zero_le cap
  cursor := Nat.zero_le _
  appended := fun q hq => absurd hq (Nat.not_lt_zero q)

/-- Wherever a start leads from a state with the invariant, the invariant holds. -/
theorem Begins.inv {i : Instr} (hbegins : Begins s i t) (h : Inv s) : Inv t := by
  have hlive := fun {code} (hcode : code.toNat < 4) => Live.startCommand h h.inLenFits (code := code) hcode
  cases hbegins with
  | firstRun hpos =>
    have hopened : Live (firstRunOpened s) :=
      (hlive (code := 0x00#8) (by decide)).grown ((Grown.refl _).to_registers rfl) hpos fun _ => rfl
    exact hopened.inv (fun _ => ⟨le_rfl, le_rfl⟩) nofun
  | noRun hempty =>
    exact ((hlive (code := 0x00#8) (by decide)).grown (t := { s.startCommand 0x00#8 with cnt := 0#16 })
      ((Grown.refl _).to_registers rfl) (Nat.zero_le _) fun _ => rfl).inv_closeOk
  | lz77Compress => exact (hlive (by decide)).inv nofun nofun
  | rleDecompress heven => exact (hlive (by decide)).inv nofun fun _ => ⟨heven, rfl⟩
  | malformed hodd => exact (hlive (by decide)).inv_raiseError _ _ _ _
  | lz77Decompress => exact (hlive (by decide)).inv nofun nofun

/-- While nothing runs the host may change its queue, IN within its canonical form, and IN_LEN within IN_CAP. -/
theorem Inv.hostMoves (h : Inv s) (hidle : s.status.busy = false) (q : List HostOp) {m : Memory}
    (hm : Memory.wf m = true) {n : Nat} (hn : ∀ cap ∈ s.cfg.inCap, n ≤ cap) :
    Inv { s with hostQ := q, inBuf := m, inLen := n } :=
  { h with
    inWf := hm
    inLenFits := hn
    cursor := fun hbusy => nomatch hidle.symm.trans hbusy
    pairAligned := fun hrun => nomatch hidle.symm.trans hrun.1 }

/-- A step of an idle engine keeps the invariant. -/
theorem HostStep.inv (hstep : HostStep s t) (hidle : s.status.busy = false) (h : Inv s) : Inv t := by
  cases hstep with
  | waits q => exact Inv.hostMoves h hidle q h.inWf h.inLenFits
  | writesIn q p v => exact Inv.hostMoves h hidle q (Memory.write_wf h.inWf p v) h.inLenFits
  | writesInLen q n hfits => exact Inv.hostMoves h hidle q h.inWf hfits
  | starts _ hbegins => exact hbegins.inv (Inv.hostMoves h hidle _ h.inWf h.inLenFits)

/-! Iterations of a running command. -/

/-- R104, R105: whether the run is extended or closed, the next one has a counter of at least 1. -/
theorem rleCompressIterate_go (h : rleCompressIterate s = .go t) : t.ip ≤ s.inLen ∧ 1 ≤ t.cnt.toNat := by
  rcases Nat.lt_or_ge s.ip s.inLen with hip | hend
  · by_cases habsorb : s.inByte s.ip = s.cur ∧ s.cnt.toNat < Config.runCap
    · rw [rleCompressIterate_absorbs hip habsorb.1 habsorb.2] at h
      cases h
      exact ⟨hip, by rw [toNat_add_one_of_lt_runCap habsorb.2]; omega⟩
    · obtain rfl := (rleCompressIterate_appending hip habsorb).eq_of_go h
      exact ⟨hip, le_rfl⟩
  · rw [rleCompressIterate_end hend] at h
    rcases closeRun_cases s with ⟨-, hclose⟩ | ⟨us, cap, -, -, hclose⟩ <;> rw [hclose] at h <;> cases h

theorem rleDecompressIterate_go (h : rleDecompressIterate s = .go t) : s.ip + 1 < s.inLen ∧ t.ip = s.ip + 2 := by
  rcases Nat.lt_or_ge (s.ip + 1) s.inLen with hwhole | hshort
  · rw [rleDecompressIterate_record hwhole] at h
    obtain rfl := (repRecord_appending _ _ s).eq_of_go h
    exact ⟨hwhole, rfl⟩
  · rcases Nat.lt_or_ge s.ip s.inLen with hip | hend
    · simp only [rleDecompressIterate, if_pos hip, readIn_eq hip, readIn_eq_none hshort] at h
      cases h
    · rw [rleDecompressIterate_end hend] at h
      cases h

theorem lz77CompressIterate_go (h : lz77CompressIterate s = .go t) : t.ip ≤ s.inLen := by
  rcases Nat.lt_or_ge s.ip s.inLen with hip | hend
  case inr => rw [lz77CompressIterate, if_neg (Nat.not_lt.mpr hend)] at h; cases h
  obtain ⟨u, hfind, hsearched⟩ := find_cases s
  have huip : u.ip = s.ip := by rw [hsearched.frame]
  have hulen : u.inLen = s.inLen := hsearched.grown.inLen
  rw [lz77CompressIterate_find hip hfind] at h
  rcases Nat.lt_or_ge u.bestLen Config.minMatch with hshort | hlong
  · rw [emitToken_short hshort] at h
    obtain rfl := (emitLiteral_appending (by omega)).eq_of_go h
    show u.ip + 1 ≤ s.inLen
    omega
  · rw [emitToken_long hlong] at h
    by_cases hover : 255 < u.bestOff ∨ 255 < u.bestLen
    · rw [emitMatch_oversized hover] at h
      cases h
    · obtain rfl := (emitMatch_appending (by omega) (by omega)).eq_of_go h
      have hbound := hsearched.lenBound
      show u.ip + u.bestLen ≤ s.inLen
      omega

theorem matchToken_go {offset length : Byte} (hwhole : s.ip + 2 < s.inLen) (h : matchToken offset length s = .go t) :
    t.ip = s.ip + 3 := by
  by_cases hgood : 1 ≤ offset.toNat ∧ offset.toNat ≤ s.outLen
  · obtain ⟨u, happends, hip, -⟩ := matchToken_appending length hwhole hgood.1 hgood.2
    obtain rfl := happends.eq_of_go h
    exact hip
  · rw [matchToken_bad length hwhole (bad_offset_iff.mpr hgood)] at h
    cases h

theorem lz77DecompressIterate_go (h : lz77DecompressIterate s = .go t) : t.ip ≤ s.inLen := by
  rcases Nat.lt_or_ge s.ip s.inLen with hip | hend
  case inr => rw [lz77DecompressIterate_end hend] at h; cases h
  by_cases hlit : s.inByte s.ip = litTag
  · rcases Nat.lt_or_ge (s.ip + 1) s.inLen with hwhole | hshort
    · rw [lz77DecompressIterate_lit hwhole hlit] at h
      obtain rfl := (litToken_appending _ hwhole).eq_of_go h
      exact hwhole
    · rw [lz77DecompressIterate_lit_short (by omega) hlit] at h
      cases h
  · by_cases hmatch : s.inByte s.ip = matchTag
    · rcases Nat.lt_or_ge (s.ip + 2) s.inLen with hwhole | hshort
      · rw [lz77DecompressIterate_match hwhole hmatch] at h
        rw [matchToken_go hwhole h]
        exact hwhole
      · rw [lz77DecompressIterate_match_short hip hshort hmatch] at h
        cases h
    · rw [lz77DecompressIterate_illegal hip hlit hmatch] at h
      cases h

/-! The step of a running command. -/

/-- A step of a running command is one iteration of its loop: its effect, and where it goes on the clauses on the cursor,
the open run and the pairs. -/
theorem step_of_inv (h : Inv s) (hbusy : s.status.busy = true) :
    ∃ i x, flowOf i s = x ∧ ownerOf i = s.cmd ∧ step s = x.outcome ∧ Effect s x ∧
      ∀ t, x = .go t → t.ip ≤ s.inLen ∧ (s.cmd = 0x00#8 → 1 ≤ t.cnt.toNat) ∧ (s.cmd = 0x02#8 → t.ip % 2 = 0) := by
  rcases command_cases h.cmdLegal with hcmd | hcmd | hcmd | hcmd
  · exact ⟨.rleCompress, _, rfl, hcmd.symm, step_rleCompress ⟨hbusy, hcmd⟩, rleCompressIterate_effect s, fun t hgo =>
      ⟨(rleCompressIterate_go hgo).1, fun _ => (rleCompressIterate_go hgo).2, fun h => by simp [hcmd] at h⟩⟩
  · exact ⟨.lz77Compress, _, rfl, hcmd.symm, step_lz77Compress ⟨hbusy, hcmd⟩, lz77CompressIterate_effect s, fun t hgo =>
      ⟨lz77CompressIterate_go hgo, fun h => by simp [hcmd] at h, fun h => by simp [hcmd] at h⟩⟩
  · obtain ⟨heven, hpair⟩ := h.pairAligned ⟨hbusy, hcmd⟩
    have heffect : Effect s (rleDecompressIterate s) := by
      rcases rleDecompressIterate_effect s with heffect | ⟨hcut, -⟩
      · exact heffect
      · omega
    exact ⟨.rleDecompress, _, rfl, hcmd.symm, step_rleDecompress ⟨hbusy, hcmd⟩, heffect, fun t hgo => by
      obtain ⟨hwhole, hip⟩ := rleDecompressIterate_go hgo
      exact ⟨by omega, fun h => by simp [hcmd] at h, fun _ => by omega⟩⟩
  · exact ⟨.lz77Decompress, _, rfl, hcmd.symm, step_lz77Decompress ⟨hbusy, hcmd⟩, lz77DecompressIterate_effect s, fun t hgo =>
      ⟨lz77DecompressIterate_go hgo, fun h => by simp [hcmd] at h, fun h => by simp [hcmd] at h⟩⟩

/-- A step of a running command keeps the invariant. -/
theorem step_busy_inv (h : Inv s) (hbusy : s.status.busy = true) (hstep : step s = .next t) : Inv t := by
  obtain ⟨i, x, hflow, howner, hx, heffect, hgoes⟩ := step_of_inv h hbusy
  rw [hx] at hstep
  have hovf : s.cmd ≠ 0x00#8 → t.status.rleOvf = s.status.rleOvf := fun hcmd =>
    flowOf_overflow (i := i) (fun hi => hcmd (by rw [← howner, hi]; rfl)) (hflow ▸ hstep)
  have hlive := Live.of_inv h hbusy
  cases heffect with
  | @goesOn u grown hip _ =>
    cases hstep
    obtain ⟨hbound, hcnt, hpair⟩ := hgoes t rfl
    refine (hlive.grown grown hbound hovf).inv (fun hcmd => ?_) fun hcmd => ?_
    · exact ⟨by omega, hcnt (grown.cmd ▸ hcmd)⟩
    · rw [grown.cmd] at hcmd
      exact ⟨grown.inLen ▸ (h.pairAligned ⟨hbusy, hcmd⟩).1, hpair hcmd⟩
  | endsOk grown hip =>
    cases hstep
    exact (hlive.grown grown (hip ▸ hlive.cursor) hovf).inv_closeOk
  | endsErr grown hip _ kind exp obs =>
    cases hstep
    exact (hlive.grown grown (hip ▸ hlive.cursor) hovf).inv_raiseError kind _ exp obs

end

/-- Settles O48: a running command's step is an iteration, an idle engine's the host's move or a start. -/
theorem stepKeepsTheInvariant : Obligations.StepKeepsTheInvariant := by
  unfold Obligations.StepKeepsTheInvariant
  intro s t h hstep
  cases hbusy : s.status.busy with
  | true => exact step_busy_inv h hbusy hstep
  | false => exact (step_idle_next hbusy hstep).inv hbusy h

/-- Settles O49: an iteration with an effect is no stop of the model. -/
theorem busyEngineNeverStops : Obligations.BusyEngineNeverStops := by
  unfold Obligations.BusyEngineNeverStops
  intro s h hbusy
  obtain ⟨-, x, -, -, hx, heffect, -⟩ := step_of_inv h hbusy
  rw [hx]
  cases heffect with
  | goesOn | endsOk | endsErr => exact ⟨_, rfl⟩

/-- Settles O50: going on moves the cursor within the input, and an end leaves it. -/
theorem cursorMovesForward : Obligations.CursorMovesForward := by
  unfold Obligations.CursorMovesForward
  intro s t h hbusy hstep
  obtain ⟨-, x, -, -, hx, heffect, hgoes⟩ := step_of_inv h hbusy
  rw [hx] at hstep
  cases heffect with
  | goesOn grown hip _ =>
    cases hstep
    exact ⟨fun _ => ⟨hip, grown.inLen ▸ (hgoes t rfl).1⟩, fun hidle => nomatch (grown.busy.trans hbusy).symm.trans hidle⟩
  | endsOk grown hip | endsErr grown hip =>
    cases hstep
    exact ⟨nofun, fun _ => ⟨rfl, Nat.le_of_eq hip.symm⟩⟩

/-- Settles O51: each step that does not end the command leaves fewer bytes before the end of the input. -/
theorem everyCommandTerminates : Obligations.EveryCommandTerminates := by
  unfold Obligations.EveryCommandTerminates
  intro s h hbusy
  induction hleft : s.inLen - s.ip using Nat.strong_induction_on generalizing s with
  | _ n ih =>
    obtain ⟨t, hstep⟩ := busyEngineNeverStops s h hbusy
    obtain ⟨hgoes, hends⟩ := cursorMovesForward s t h hbusy hstep
    cases ht : t.status.busy with
    | false => exact ⟨1, t, by omega, run_next hstep 0, ht, (hends ht).1⟩
    | true =>
      obtain ⟨i, hexec⟩ := exec_of_step_busy hbusy hstep
      have hlen : t.inLen = s.inLen := (engineNeverWritesIn i s t hexec).1
      obtain ⟨hforward, hbound⟩ := hgoes ht
      obtain ⟨k, u, hk, hrun, hidle, hdone⟩ :=
        ih _ (by omega) t (stepKeepsTheInvariant s t h hstep) ht rfl
      exact ⟨k + 1, u, by omega, (run_next hstep k).trans hrun, hidle, hdone⟩

end Sys2Proof.Safety

/-! A running command computes its function (45_dispatch_framing.md R175), unless OUT is too small: the four loops as
simulations of the functions over byte lists. -/

namespace Sys2Proof.Safety

open Sys2Proof.Machine

/-- Within `n` steps the command has returned `r`. -/
inductive Returns (r : CallResult) : Nat → State → Prop where
  | now {n : Nat} {s : State} (h : Returned r s) : Returns r n s
  | later {n : Nat} {s t : State} (hstep : step s = .next t) (h : Returns r n t) : Returns r (n + 1) s

theorem Returns.mono {r : CallResult} {m n : Nat} {s : State} (h : Returns r m s) (hmn : m ≤ n) : Returns r n s := by
  induction h generalizing n with
  | now h => exact .now h
  | later hstep _ ih =>
    obtain ⟨k, rfl⟩ : ∃ k, n = k + 1 := ⟨n - 1, by omega⟩
    exact .later hstep (ih (by omega))

theorem Returns.collectOutcome_run {r : CallResult} {n : Nat} {s : State} (h : Returns r n s) :
    collectOutcome (core.run n s) = some r := by
  induction h with
  | now h => rw [h.run]; exact h.collected
  | later hstep _ ih => rw [run_next hstep, ih]

/-- Within `n` steps the command has returned `r`, or CapacityExceeded where OUT is bounded (R197). -/
def Yields (r : CallResult) (n : Nat) (s : State) : Prop :=
  Returns r n s ∨
  ∃ cap pos, s.cfg.outCap = some cap ∧ Returns (.err .capacityExceeded pos cap (cap + 1)) n s

/-- The command with this CMD value runs, and the host has no move left. -/
structure Working (code : Byte) (s : State) : Prop where
  inRun : InRun s
  cmd : s.cmd = code

section

variable {r : CallResult} {m n : Nat} {s t u : State} {x : Flow} {code : Byte}

theorem Yields.mono (h : Yields r m s) (hmn : m ≤ n) : Yields r n s :=
  h.imp (·.mono hmn) fun ⟨cap, pos, hcap, h⟩ => ⟨cap, pos, hcap, h.mono hmn⟩

theorem Yields.later (hstep : step s = .next t) (hcfg : t.cfg = s.cfg) (h : Yields r n t) : Yields r (n + 1) s :=
  h.imp (.later hstep) fun ⟨cap, pos, hcap, h⟩ => ⟨cap, pos, hcfg ▸ hcap, .later hstep h⟩

theorem Yields.returned (hstep : step s = .next t) (h : Returned r t) : Yields r (n + 1) s :=
  .inl (.later hstep (.now h))

theorem Working.running (h : Working code s) : s.running code := ⟨h.inRun.busy, h.cmd⟩

theorem InRun.grown (h : InRun s) (hg : Grown s t) : InRun t :=
  ⟨hg.hostQ.trans h.quiet, hg.busy.trans h.busy, hg.done.trans h.notDone, hg.err.trans h.noErr⟩

theorem Working.grown (h : Working code s) (hg : Grown s t) : Working code t := ⟨h.inRun.grown hg, hg.cmd.trans h.cmd⟩

theorem input_grown (hg : Grown s t) : input t = input s := by
  have hbyte : t.inByte = s.inByte := funext fun p => by simp only [State.inByte, hg.inBuf]
  rw [input, input, hbyte, hg.inLen]

/-- An iteration that appends and goes on yields what the state after it yields. -/
theorem Yields.appending (h : Working code s) (hstep : step s = x.outcome) (happends : Appending s t x)
    (hgo : Grown s t → Working code t → Yields r n t) : Yields r (n + 1) s := by
  cases happends with
  | fits hg => exact .later hstep hg.cfg (hgo hg (h.grown hg))
  | full hcap hg => exact .inr ⟨_, _, hcap, .later hstep (.now ((h.inRun.grown hg).returned_raiseError _ _ _ _))⟩

/-- An iteration that appends and returns yields all that is appended. -/
theorem Yields.appending_returnOk (h : Working code s) (hstep : step s = (x.andThen returnOk).outcome)
    (happends : Appending s t x) : Yields (.ok (produced t)) (n + 1) s := by
  cases happends with
  | fits hg => exact .returned hstep (h.inRun.grown hg).returned_closeOk
  | full hcap hg => exact .inr ⟨_, _, hcap, .later hstep (.now ((h.inRun.grown hg).returned_raiseError _ _ _ _))⟩

/-- An iteration that raises an error yields it. -/
theorem Yields.raised {kind : ErrorKind} {pos exp obs : Nat} (h : Working code s)
    (hstep : step s = (raise kind pos exp obs u).outcome) (hg : Grown s u) :
    Yields (.err kind pos exp obs) (n + 1) s :=
  .returned hstep ((h.inRun.grown hg).returned_raiseError kind pos exp obs)

/-- An iteration that only returns yields what is appended so far. -/
theorem Yields.returnOk (h : Working code s) (hstep : step s = (Machine.returnOk s).outcome) :
    Yields (.ok (produced s)) (n + 1) s :=
  .returned hstep h.inRun.returned_closeOk

/-! Streams. -/

theorem produced_appended (vs : List Byte) (s : State) : produced (s.appended vs) = produced s ++ vs := by
  induction vs generalizing s with
  | nil => rw [State.appended_nil, List.append_nil]
  | cons v vs ih => rw [State.appended_cons, ih, produced_pushOut, List.append_assoc, List.singleton_append]

/-- Nothing is left of the input exactly at its end. -/
theorem input_drop_nil {p : Nat} (h : (input s).drop p = []) : s.inLen ≤ p := by
  simpa using h

/-- The first byte left of the input stands at the cursor, and what follows it after the cursor. -/
theorem input_drop_cons {p : Nat} {v : Byte} {rest : List Byte} (h : (input s).drop p = v :: rest) :
    p < s.inLen ∧ s.inByte p = v ∧ (input s).drop (p + 1) = rest := by
  have hp : p < (input s).length := by
    by_contra hge
    rw [List.drop_eq_nil_of_le (Nat.le_of_not_lt hge)] at h
    cases h
  have hget : (input s)[p] = s.inByte p := by simp [input]
  rw [List.drop_eq_getElem_cons hp, hget] at h
  obtain ⟨hv, hrest⟩ := List.cons.inj h
  exact ⟨by simpa using hp, hv, hrest⟩

/-! RLE.COMPRESS. -/

/-- R107: the record of the open run. -/
theorem produced_recordClosed (s : State) :
    produced (recordClosed s) = produced s ++ recordOf (s.cur, s.cnt.toNat) := by
  have hcount : trunc8 s.cnt = BitVec.ofNat 8 s.cnt.toNat :=
    BitVec.eq_of_toNat_eq (by rw [trunc8_toNat, BitVec.toNat_ofNat])
  rw [recordOf, ← hcount]
  exact produced_appended [s.cur, trunc8 s.cnt] s

/-- R103 to R106: from an open run the loop emits the records of the runs still to close. -/
theorem rleCompress_yields (rest : List Byte) (h : Working 0x00#8 s) (hrest : (input s).drop s.ip = rest) :
    Yields (.ok (produced s ++ (closedRuns s.cur s.cnt.toNat rest).flatMap recordOf)) (rest.length + 1) s := by
  have hstep := step_rleCompress h.running
  induction rest generalizing s with
  | nil =>
    rw [rleCompressIterate_end (input_drop_nil hrest)] at hstep
    simp only [closedRuns, List.flatMap_cons, List.flatMap_nil, List.append_nil, ← produced_recordClosed]
    exact .appending_returnOk h hstep (closeRun_appending s)
  | cons b tail ih =>
    obtain ⟨hip, hbyte, htail⟩ := input_drop_cons hrest
    rw [closedRuns, ← hbyte]
    by_cases habsorb : s.inByte s.ip = s.cur ∧ s.cnt.toNat < Config.runCap
    · rw [rleCompressIterate_absorbs hip habsorb.1 habsorb.2] at hstep
      have hcnt := toNat_add_one_of_lt_runCap habsorb.2
      have hw : Working 0x00#8 { s with cnt := s.cnt + 1#16, ip := s.ip + 1 } :=
        h.grown ((Grown.refl s).to_registers rfl)
      have hyields := ih hw htail (step_rleCompress hw.running)
      rw [if_pos habsorb, ← hcnt]
      exact .later hstep rfl hyields
    · rw [if_neg habsorb, List.flatMap_cons, ← List.append_assoc, ← produced_recordClosed]
      exact .appending h hstep (rleCompressIterate_appending hip habsorb) fun hg hw =>
        ih hw ((congrArg _ (input_grown hg)).trans htail) (step_rleCompress hw.running)

/-! RLE.DECOMPRESS. -/

theorem produced_repApplied (value count : Byte) (s : State) :
    produced (repApplied value count s) = produced s ++ List.replicate count.toNat value :=
  produced_appended (List.replicate count.toNat value) s

/-- R115, R117: from an even rest of the input the loop expands its pairs. -/
theorem rleDecompress_yields (rest : List Byte) (h : Working 0x02#8 s) (hrest : (input s).drop s.ip = rest)
    (heven : rest.length % 2 = 0) : Yields (.ok (produced s ++ rleExpand rest)) (rest.length + 1) s := by
  have hstep := step_rleDecompress h.running
  induction rest using rleExpand.induct generalizing s with
  | case1 value count tail ih =>
    obtain ⟨hip, hvalue, hdrop⟩ := input_drop_cons hrest
    obtain ⟨hip1, hcount, htail⟩ := input_drop_cons hdrop
    rw [rleDecompressIterate_record hip1, hvalue, hcount] at hstep
    have heven' : tail.length % 2 = 0 := by simp only [List.length_cons] at heven; omega
    rw [rleExpand, ← List.append_assoc, ← produced_repApplied]
    refine Yields.mono (.appending h hstep (repRecord_appending value count s) fun hg hw => ?_)
      (Nat.le_succ (tail.length + 2))
    exact ih hw ((congrArg _ (input_grown hg)).trans htail) heven' (step_rleDecompress hw.running)
  | case2 => simp at heven
  | case3 =>
    rw [rleDecompressIterate_end (input_drop_nil hrest)] at hstep
    rw [rleExpand, List.append_nil]
    exact .returnOk h hstep

/-! LZ77.COMPRESS. -/

/-- The scan of R132 over the first `n` offsets. -/
def bestUpTo (L : Nat) (d : List Byte) (i n : Nat) : Nat × Nat :=
  (List.range n).foldl
    (fun best o => if best.2 < matchLength L d i (o + 1) then (o + 1, matchLength L d i (o + 1)) else best) (0, 0)

theorem bestUpTo_succ (L : Nat) (d : List Byte) (i n : Nat) :
    bestUpTo L d i (n + 1) = if (bestUpTo L d i n).2 < matchLength L d i (n + 1)
      then (n + 1, matchLength L d i (n + 1)) else bestUpTo L d i n := by
  rw [bestUpTo, List.range_succ, List.foldl_append]
  rfl

theorem isFind_bestUpTo (L : Nat) (d : List Byte) (i n : Nat) (hn : n ≤ i) :
    IsFind n L d i (bestUpTo L d i n).1 (bestUpTo L d i n).2 := by
  induction n with
  | zero => exact isFind_empty_window L i d
  | succ n ih =>
    have hext := (ih (by omega)).extend hn
    rw [bestUpTo_succ]
    split
    case isTrue hlt => rwa [if_pos hlt, Nat.max_eq_right (Nat.le_of_lt hlt)] at hext
    case isFalse hge => rwa [if_neg hge, Nat.max_eq_left (Nat.le_of_not_lt hge)] at hext

/-- The function `findMatch` meets the contract of `FIND` (R125, R132). -/
theorem isFind_findMatch (W L : Nat) (d : List Byte) (i : Nat) :
    IsFind W L d i (findMatch W L d i).1 (findMatch W L d i).2 :=
  isFind_min_window.mp (isFind_bestUpTo L d i (min W i) (Nat.min_le_right W i))

/-- An iteration inside the input emits the token for `findMatch`'s answer. -/
theorem lz77CompressIterate_findMatch (hip : s.ip < s.inLen) :
    ∃ cand k maxlen, lz77CompressIterate s = emitToken (answered cand k maxlen
      (findMatch s.cfg.W s.cfg.L (input s) s.ip).1 (findMatch s.cfg.W s.cfg.L (input s) s.ip).2 s) := by
  obtain ⟨cand, k, maxlen, hfind⟩ := find_answer (isFind_findMatch s.cfg.W s.cfg.L (input s) s.ip)
  exact ⟨cand, k, maxlen, lz77CompressIterate_find hip hfind⟩

theorem produced_literalEmitted (s : State) :
    produced (literalEmitted s) = produced s ++ [0x00#8, s.inByte s.ip] :=
  produced_appended [litTag, s.inByte s.ip] s

theorem produced_matchEmitted (s : State) :
    produced (matchEmitted s) = produced s ++ [0x01#8, BitVec.ofNat 8 s.bestOff, BitVec.ofNat 8 s.bestLen] :=
  produced_appended [matchTag, fieldByte s.bestOff, fieldByte s.bestLen] s

theorem lz77Compress_yields_end (h : Working 0x01#8 s) (hend : s.inLen ≤ s.ip) :
    Yields (.ok (produced s)) (n + 1) s :=
  .returnOk h (by rw [step_lz77Compress h.running, lz77CompressIterate, if_neg (Nat.not_lt.mpr hend)])

/-- R140: from any position the loop emits the tokens of the rest, or the range error. -/
theorem lz77Compress_yields (fuel : Nat) (h : Working 0x01#8 s) (hfuel : s.inLen - s.ip ≤ fuel) :
    Yields (lz77EncodeFrom s.cfg.W s.cfg.L (input s) fuel s.ip (produced s)) (s.inLen - s.ip + 1) s := by
  induction fuel generalizing s with
  | zero => exact lz77Compress_yields_end h (by omega)
  | succ fuel ih =>
    rcases Nat.lt_or_ge s.ip s.inLen with hip | hend
    case inr =>
      have hnone : (input s)[s.ip]? = none := by rw [input_getElem?, readIn_eq_none hend]
      simp only [lz77EncodeFrom, hnone]
      exact lz77Compress_yields_end h hend
    have hnext : ∀ t, Grown s t → s.ip < t.ip →
        Yields (lz77EncodeFrom s.cfg.W s.cfg.L (input s) fuel t.ip (produced t)) (s.inLen - s.ip) t := by
      intro t hg hforward
      have hlen := hg.inLen
      have hyields := ih (h.grown hg) (by omega)
      rw [hg.cfg, input_grown hg] at hyields
      exact hyields.mono (by omega)
    have hsome : (input s)[s.ip]? = some (s.inByte s.ip) := by rw [input_getElem?, readIn_eq hip]
    obtain ⟨cand, k, maxlen, htoken⟩ := lz77CompressIterate_findMatch hip
    have hstep := step_lz77Compress h.running
    rw [htoken] at hstep
    simp only [lz77EncodeFrom, hsome]
    generalize findMatch s.cfg.W s.cfg.L (input s) s.ip = m at hstep ⊢
    have hg : Grown s (answered cand k maxlen m.1 m.2 s) := (Grown.refl s).to_registers rfl
    by_cases hlong : Config.minMatch ≤ m.2
    case pos =>
      have hlong' : 3 ≤ m.2 := hlong
      rw [emitToken_long (s := answered cand k maxlen m.1 m.2 s) hlong] at hstep
      rw [if_pos hlong]
      by_cases hover : Config.fieldMax < m.1 ∨ Config.fieldMax < m.2
      case pos =>
        rw [emitMatch_oversized (s := answered cand k maxlen m.1 m.2 s) hover] at hstep
        rw [if_pos hover]
        exact .raised h hstep hg
      case neg =>
        obtain ⟨hoff, hlen⟩ : m.1 ≤ 255 ∧ m.2 ≤ 255 := by simpa [Config.fieldMax] using hover
        have hproduced : produced (matchEmitted (answered cand k maxlen m.1 m.2 s)) =
            produced s ++ [0x01#8, BitVec.ofNat 8 m.1, BitVec.ofNat 8 m.2] := produced_matchEmitted _
        rw [if_neg hover, ← hproduced]
        exact .appending h hstep ((emitMatch_appending hoff hlen).of_grown hg rfl) fun hg _ =>
          hnext _ hg (show s.ip < s.ip + m.2 by omega)
    case neg =>
      have hproduced : produced (literalEmitted (answered cand k maxlen m.1 m.2 s)) =
          produced s ++ [0x00#8, s.inByte s.ip] := produced_literalEmitted _
      rw [emitToken_short (s := answered cand k maxlen m.1 m.2 s) (Nat.lt_of_not_le hlong)] at hstep
      rw [if_neg hlong, ← hproduced]
      have happends := emitLiteral_appending (s := answered cand k maxlen m.1 m.2 s) hip
      exact .appending h hstep (happends.of_grown hg rfl) fun hg _ => hnext _ hg (Nat.lt_succ_self s.ip)

end

/-! LZ77.DECOMPRESS. -/

/-- What an LZ77 stream can begin with (R76 to R80). -/
inductive TokenAt : List Byte → Prop where
  | none : TokenAt []
  | lit (byte : Byte) (rest : List Byte) : TokenAt (0x00#8 :: byte :: rest)
  | litShort : TokenAt [0x00#8]
  | matchTok (offset length : Byte) (rest : List Byte) : TokenAt (0x01#8 :: offset :: length :: rest)
  | matchShort (rest : List Byte) (short : rest.length < 2) : TokenAt (0x01#8 :: rest)
  | illegal (tag : Byte) (rest : List Byte) (hlit : tag ≠ 0x00#8) (hmatch : tag ≠ 0x01#8) : TokenAt (tag :: rest)

theorem tokenAt (bytes : List Byte) : TokenAt bytes := by
  rcases bytes with _ | ⟨tag, payload⟩
  · exact .none
  · by_cases hlit : tag = 0x00#8
    · subst hlit
      rcases payload with _ | ⟨byte, rest⟩
      · exact .litShort
      · exact .lit byte rest
    · by_cases hmatch : tag = 0x01#8
      · subst hmatch
        match payload with
        | [] => exact .matchShort [] (by simp)
        | [offset] => exact .matchShort [offset] (by simp)
        | offset :: length :: rest => exact .matchTok offset length rest
      · exact .illegal tag payload hlit hmatch

/-! The function `lz77DecodeFrom` by the token at its position. -/

section

variable {d out rest : List Byte} {ip fuel : Nat}

theorem lz77DecodeFrom_end (h : d.drop ip = []) : lz77DecodeFrom d (fuel + 1) ip out = .ok out := by
  simp only [lz77DecodeFrom, h]

theorem lz77DecodeFrom_lit {byte : Byte} (h : d.drop ip = 0x00#8 :: byte :: rest) :
    lz77DecodeFrom d (fuel + 1) ip out = lz77DecodeFrom d fuel (ip + 2) (out ++ [byte]) := by
  simp only [lz77DecodeFrom, h, if_pos]

theorem lz77DecodeFrom_litShort (h : d.drop ip = [0x00#8]) :
    lz77DecodeFrom d (fuel + 1) ip out = .err .truncatedRecord ip 2 (d.length - ip) := by
  simp only [lz77DecodeFrom, h, if_pos]

theorem lz77DecodeFrom_match {offset length : Byte} (h : d.drop ip = 0x01#8 :: offset :: length :: rest)
    (hgood : 1 ≤ offset.toNat ∧ offset.toNat ≤ out.length) :
    lz77DecodeFrom d (fuel + 1) ip out =
      lz77DecodeFrom d fuel (ip + 3) (copyBack offset.toNat length.toNat out) := by
  have hne : ¬(0x01#8 : Byte) = 0x00#8 := by decide
  have hnotBad : ¬(offset = 0#8 ∨ out.length < offset.toNat) := fun hbad => bad_offset_iff.mp hbad hgood
  simp only [lz77DecodeFrom, h, if_neg hne, if_pos, if_neg hnotBad]

theorem lz77DecodeFrom_bad {offset length : Byte} (h : d.drop ip = 0x01#8 :: offset :: length :: rest)
    (hbad : ¬(1 ≤ offset.toNat ∧ offset.toNat ≤ out.length)) :
    lz77DecodeFrom d (fuel + 1) ip out = .err .invalidBackReference ip out.length offset.toNat := by
  have hne : ¬(0x01#8 : Byte) = 0x00#8 := by decide
  simp only [lz77DecodeFrom, h, if_neg hne, if_pos, if_pos (bad_offset_iff.mpr hbad)]

theorem lz77DecodeFrom_matchShort (h : d.drop ip = 0x01#8 :: rest) (hshort : rest.length < 2) :
    lz77DecodeFrom d (fuel + 1) ip out = .err .truncatedRecord ip 3 (d.length - ip) := by
  have hne : ¬(0x01#8 : Byte) = 0x00#8 := by decide
  match rest, hshort with
  | [], _ => simp only [lz77DecodeFrom, h, if_neg hne, if_pos]
  | [_], _ => simp only [lz77DecodeFrom, h, if_neg hne, if_pos]

theorem lz77DecodeFrom_illegal {tag : Byte} (h : d.drop ip = tag :: rest) (hlit : tag ≠ 0x00#8)
    (hmatch : tag ≠ 0x01#8) : lz77DecodeFrom d (fuel + 1) ip out = .err .unrecognizedTag ip 1 tag.toNat := by
  simp only [lz77DecodeFrom, h, if_neg hlit, if_neg hmatch]

end

section

variable {s : State}

theorem produced_litApplied (byte : Byte) (s : State) : produced (litApplied byte s) = produced s ++ [byte] :=
  produced_pushOut byte s

/-- R155: from any position the loop decodes the tokens of the rest, or reports the first bad one. -/
theorem lz77Decompress_yields (fuel : Nat) (h : Working 0x03#8 s) (hfuel : s.inLen - s.ip < fuel) :
    Yields (lz77DecodeFrom (input s) fuel s.ip (produced s)) (s.inLen - s.ip + 1) s := by
  induction fuel generalizing s with
  | zero => omega
  | succ fuel ih =>
    have hnext : ∀ t p, Grown s t → t.ip = p → s.ip < s.inLen → s.ip < p →
        Yields (lz77DecodeFrom (input s) fuel p (produced t)) (s.inLen - s.ip) t := by
      rintro t _ hg rfl hip hforward
      have hlen := hg.inLen
      have hyields := ih (h.grown hg) (by omega)
      rw [input_grown hg] at hyields
      exact hyields.mono (by omega)
    have hstep := step_lz77Decompress h.running
    generalize hdrop : (input s).drop s.ip = bytes
    cases tokenAt bytes with
    | none =>
      rw [lz77DecompressIterate_end (input_drop_nil hdrop)] at hstep
      rw [lz77DecodeFrom_end hdrop]
      exact .returnOk h hstep
    | lit byte rest =>
      obtain ⟨hip, htag, hdrop1⟩ := input_drop_cons hdrop
      obtain ⟨hwhole, hbyte, -⟩ := input_drop_cons hdrop1
      rw [lz77DecompressIterate_lit hwhole htag, hbyte] at hstep
      rw [lz77DecodeFrom_lit hdrop, ← produced_litApplied]
      exact .appending h hstep (litToken_appending byte hwhole) fun hg _ => hnext _ _ hg rfl hip (by omega)
    | litShort =>
      obtain ⟨hip, htag, hdrop1⟩ := input_drop_cons hdrop
      have hend := input_drop_nil hdrop1
      rw [lz77DecompressIterate_lit_short (by omega) htag] at hstep
      rw [lz77DecodeFrom_litShort hdrop, input_length]
      exact .raised h hstep ((Grown.refl s).to_registers rfl)
    | matchTok offset length rest =>
      obtain ⟨hip, htag, hdrop1⟩ := input_drop_cons hdrop
      obtain ⟨-, hoffset, hdrop2⟩ := input_drop_cons hdrop1
      obtain ⟨hwhole, hlength, -⟩ := input_drop_cons hdrop2
      rw [lz77DecompressIterate_match hwhole htag, hoffset, hlength] at hstep
      by_cases hgood : 1 ≤ offset.toNat ∧ offset.toNat ≤ s.outLen
      · obtain ⟨t, happends, htip, hproduced⟩ := matchToken_appending length hwhole hgood.1 hgood.2
        rw [lz77DecodeFrom_match hdrop (by rwa [produced_length]), ← hproduced]
        exact .appending h hstep happends fun hg _ => hnext t _ hg htip hip (by omega)
      · rw [matchToken_bad length hwhole (bad_offset_iff.mpr hgood)] at hstep
        rw [lz77DecodeFrom_bad hdrop (by rwa [produced_length]), produced_length]
        exact .raised h hstep ((Grown.refl s).to_registers rfl)
    | matchShort rest hshort =>
      obtain ⟨hip, htag, hrest⟩ := input_drop_cons hdrop
      have hend : s.inLen ≤ s.ip + 2 := by
        have hlen := congrArg List.length hrest
        rw [List.length_drop, input_length] at hlen
        omega
      rw [lz77DecompressIterate_match_short hip hend htag] at hstep
      rw [lz77DecodeFrom_matchShort hdrop hshort, input_length]
      exact .raised h hstep ((Grown.refl s).to_registers rfl)
    | illegal tag rest hlit hmatch =>
      obtain ⟨hip, htag, -⟩ := input_drop_cons hdrop
      rw [lz77DecompressIterate_illegal hip (htag ▸ hlit) (htag ▸ hmatch), htag] at hstep
      rw [lz77DecodeFrom_illegal hdrop hlit hmatch]
      exact .raised h hstep ((Grown.refl s).to_registers rfl)

end

end Sys2Proof.Safety

/-! The call boundary (R175, R176): each command's call computes its function, unless OUT is too small. -/

namespace Sys2Proof.Safety

open Sys2Proof.Machine

section

variable {d : List Byte} {s : State} {code : Byte} {r : CallResult}

theorem working_started (code : Byte) (d : List Byte) (s : State) : Working code (started code d s) :=
  ⟨inRun_started code d s, rfl⟩

/-- A command that goes on past what stands before its loop yields what the loop yields. -/
theorem launched_yields (h : Ready d s) {i : Instr} {enter iterate : State → Flow} {t : State}
    (hdecode : decodeCommand code = .ok i) (hexec : exec i = commandStep code enter iterate)
    (henter : enter (started code d s) = .go t) (hcfg : t.cfg = s.cfg) (hyields : Yields r (d.length + 1) t) :
    Yields r (d.length + 2) (launched code d s) :=
  .later (by rw [step_launched h hdecode hexec, henter, Flow.outcome_go]) hcfg hyields

theorem launched_yields_rleCompress (h : Ready d s) :
    Yields (.ok (rleEncode d)) (d.length + 2) (launched 0x00#8 d s) := by
  have hstep := step_launched h (code := 0x00#8) (i := .rleCompress) rfl rfl
  have hinput := input_started 0x00#8 d s
  cases d with
  | nil => exact .returned hstep (returned_without_run [] s)
  | cons b rest =>
    obtain ⟨hpos, hbyte, -⟩ := input_drop_cons (p := 0) hinput
    have henter : rleCompressEnter (started 0x00#8 (b :: rest) s) =
        .go { started 0x00#8 (b :: rest) s with cur := b, cnt := 1#16, ip := 1 } := by
      rw [rleCompressEnter, if_neg (Nat.ne_of_gt hpos), readIn_eq hpos, hbyte]
    have hworking : Working 0x00#8 { started 0x00#8 (b :: rest) s with cur := b, cnt := 1#16, ip := 1 } :=
      (working_started 0x00#8 (b :: rest) s).grown ((Grown.refl _).to_registers rfl)
    have hloop := rleCompress_yields rest hworking (congrArg (List.drop 1) hinput)
    exact launched_yields h (i := .rleCompress) rfl rfl henter rfl (hloop.mono (Nat.le_succ _))

theorem launched_yields_lz77Compress (h : Ready d s) :
    Yields (lz77Encode s.cfg.W s.cfg.L d) (d.length + 2) (launched 0x01#8 d s) := by
  have hloop := lz77Compress_yields d.length (working_started 0x01#8 d s) le_rfl
  rw [input_started] at hloop
  exact launched_yields h (i := .lz77Compress) rfl rfl rfl rfl hloop

theorem launched_yields_rleDecompress (h : Ready d s) :
    Yields (rleDecode d) (d.length + 2) (launched 0x02#8 d s) := by
  rcases Nat.mod_two_eq_zero_or_one d.length with heven | hodd
  · have hloop := rleDecompress_yields d (working_started 0x02#8 d s) (input_started 0x02#8 d s) heven
    have hnotOdd : ¬ d.length % 2 = 1 := by omega
    rw [rleDecode, if_neg hnotOdd]
    exact launched_yields h (i := .rleDecompress) rfl rfl (if_neg hnotOdd) rfl hloop
  · have hstep := step_launched h (code := 0x02#8) (i := .rleDecompress) rfl rfl
    have henter : rleDecompressEnter (started 0x02#8 d s) =
        raise .malformedLength 0 (d.length + 1) d.length (started 0x02#8 d s) := if_pos hodd
    rw [henter] at hstep
    rw [rleDecode, if_pos hodd]
    exact .returned hstep ((inRun_started 0x02#8 d s).returned_raiseError _ _ _ _)

theorem launched_yields_lz77Decompress (h : Ready d s) :
    Yields (lz77Decode d) (d.length + 2) (launched 0x03#8 d s) := by
  have hloop := lz77Decompress_yields (d.length + 1) (working_started 0x03#8 d s) (Nat.lt_succ_self _)
  rw [input_started] at hloop
  exact launched_yields h (i := .lz77Decompress) rfl rfl rfl rfl hloop

/-- R175: the call computes the command's function, or finds OUT too small. -/
theorem call_eq_function (h : Ready d s) (hcode : code.toNat < 4) :
    call code d s = some (function code s.cfg.W s.cfg.L d) ∨
    ∃ cap pos, s.cfg.outCap = some cap ∧ call code d s = some (.err .capacityExceeded pos cap (cap + 1)) := by
  have hyields : Yields (function code s.cfg.W s.cfg.L d) (d.length + 2) (launched code d s) := by
    rcases command_cases hcode with rfl | rfl | rfl | rfl
    · exact launched_yields_rleCompress h
    · exact launched_yields_lz77Compress h
    · exact launched_yields_rleDecompress h
    · exact launched_yields_lz77Decompress h
  rw [call_of_ready h]
  exact hyields.imp (·.collectOutcome_run) fun ⟨cap, pos, hcap, hreturns⟩ =>
    ⟨cap, pos, hcap, hreturns.collectOutcome_run⟩

/-- With unbounded OUT the call computes the command's function. -/
theorem call_eq_function_of_unbounded (h : Ready d s) (hcode : code.toNat < 4) (hout : s.cfg.outCap = none) :
    call code d s = some (function code s.cfg.W s.cfg.L d) := by
  rcases call_eq_function h hcode with hcall | ⟨cap, -, hcap, -⟩
  · exact hcall
  · cases hout.symm.trans hcap

end

/-- Settles O52: the function of command 0. -/
theorem rleCompressComputesItsFunction : Obligations.RleCompressComputesItsFunction := by
  unfold Obligations.RleCompressComputesItsFunction
  exact fun d s h hout => call_eq_function_of_unbounded h (by decide) hout

/-- Settles O53: the function of command 2. -/
theorem rleDecompressComputesItsFunction : Obligations.RleDecompressComputesItsFunction := by
  unfold Obligations.RleDecompressComputesItsFunction
  exact fun d s h hout => call_eq_function_of_unbounded h (by decide) hout

/-- Settles O54: the function of command 1. -/
theorem lz77CompressComputesItsFunction : Obligations.Lz77CompressComputesItsFunction := by
  unfold Obligations.Lz77CompressComputesItsFunction
  exact fun d s h hout => call_eq_function_of_unbounded h (by decide) hout

/-- Settles O55: the function of command 3. -/
theorem lz77DecompressComputesItsFunction : Obligations.Lz77DecompressComputesItsFunction := by
  unfold Obligations.Lz77DecompressComputesItsFunction
  exact fun d s h hout => call_eq_function_of_unbounded h (by decide) hout

/-- Settles O59: the function's value and CapacityExceeded are both results. -/
theorem everyCallReturns : Obligations.EveryCallReturns := by
  unfold Obligations.EveryCallReturns
  intro code d s hcode h
  rcases call_eq_function h hcode with hcall | ⟨cap, pos, -, hcall⟩
  · exact ⟨_, hcall⟩
  · exact ⟨_, hcall⟩

end Sys2Proof.Safety

/-! The RLE round trip (R113): the records of the closed runs expand to the runs' lengths modulo 256, and the closed runs
are short exactly when the maximal runs are. -/

namespace Sys2Proof.Safety

open Sys2Proof.Machine

/-- A run written out. -/
def runBytes (run : Byte × Nat) : List Byte := List.replicate run.2 run.1

/-- A run as its record is expanded: the length modulo 256 (R107, R117). -/
def recordBytes (run : Byte × Nat) : List Byte := List.replicate (run.2 % 256) run.1

/-- R117: the expansion of records, run by run. -/
theorem rleExpand_records (runs : List (Byte × Nat)) :
    rleExpand (runs.flatMap recordOf) = runs.flatMap recordBytes := by
  induction runs with
  | nil => rfl
  | cons run rest ih =>
    rw [List.flatMap_cons, List.flatMap_cons, recordOf, List.cons_append, List.cons_append, List.nil_append, rleExpand,
      ih, BitVec.toNat_ofNat]
    rfl

/-- A record stream is made of pairs. -/
theorem length_records (runs : List (Byte × Nat)) : (runs.flatMap recordOf).length = 2 * runs.length := by
  induction runs with
  | nil => rfl
  | cons run rest ih => rw [List.flatMap_cons, List.length_append, ih, List.length_cons, recordOf]; simp; omega

/-- R103 to R106: the closed runs, written out, are the open run and the bytes scanned. -/
theorem closedRuns_flatMap (cur : Byte) (cnt : Nat) (bytes : List Byte) :
    (closedRuns cur cnt bytes).flatMap runBytes = List.replicate cnt cur ++ bytes := by
  induction bytes generalizing cur cnt with
  | nil => simp [closedRuns, runBytes]
  | cons b rest ih =>
    rw [closedRuns]
    split
    case isTrue h => rw [ih, h.1, List.replicate_succ', List.append_assoc, List.singleton_append]
    case isFalse => rw [List.flatMap_cons, ih, List.replicate_one, List.singleton_append, runBytes]

theorem runsOf_flatMap (d : List Byte) : (runsOf d).flatMap runBytes = d := by
  cases d with
  | nil => rfl
  | cons b rest => rw [runsOf, closedRuns_flatMap, List.replicate_one, List.singleton_append]

/-- What the expansion loses it loses in length. -/
theorem length_recordBytes_le (runs : List (Byte × Nat)) :
    (runs.flatMap recordBytes).length ≤ (runs.flatMap runBytes).length := by
  induction runs with
  | nil => exact le_rfl
  | cons run rest ih =>
    have hle := Nat.mod_le run.2 256
    simp only [List.flatMap_cons, List.length_append, recordBytes, runBytes, List.length_replicate] at ih ⊢
    omega

/-- The expansion gives the runs back exactly when no length is truncated. -/
theorem recordBytes_eq_iff (runs : List (Byte × Nat)) :
    runs.flatMap recordBytes = runs.flatMap runBytes ↔ ∀ run ∈ runs, run.2 ≤ 255 := by
  refine ⟨fun h => ?lengths, fun h => ?same⟩
  case same =>
    refine List.flatMap_congr fun run hrun => ?_
    have hle := h run hrun
    rw [recordBytes, runBytes, Nat.mod_eq_of_lt (by omega)]
  case lengths =>
    have hlen := congrArg List.length h
    clear h
    induction runs with
    | nil => simp
    | cons run rest ih =>
      have hrest := length_recordBytes_le rest
      have hle := Nat.mod_le run.2 256
      rw [List.flatMap_cons, List.flatMap_cons, List.length_append, List.length_append, recordBytes, runBytes,
        List.length_replicate, List.length_replicate] at hlen
      rw [List.forall_mem_cons]
      exact ⟨by omega, ih (by omega)⟩

/-! Maximal runs, by the loop of `List.splitBy`: `a` is the byte of the run being collected and `g` the bytes before it. -/

/-- A run collected stays in the result. -/
theorem mem_splitBy_loop {run : List Byte} {gs : List (List Byte)} (h : run ∈ gs) (l : List Byte) (a : Byte)
    (g : List Byte) : run ∈ List.splitBy.loop (· == ·) l a g gs := by
  induction l generalizing a g gs with
  | nil => simp [List.splitBy.loop, h]
  | cons b l ih =>
    simp only [List.splitBy.loop]
    split
    · exact ih h b (a :: g)
    · exact ih (List.mem_cons_of_mem _ h) b []

/-- A run that is already too long ends too long. -/
theorem exists_long_run (l : List Byte) (a : Byte) {g : List Byte} (h : 255 ≤ g.length) (gs : List (List Byte)) :
    ∃ run ∈ List.splitBy.loop (· == ·) l a g gs, 255 < run.length := by
  induction l generalizing a g gs with
  | nil => exact ⟨(a :: g).reverse, by simp [List.splitBy.loop], by simp; omega⟩
  | cons b l ih =>
    simp only [List.splitBy.loop]
    split
    · exact ih b (by simp; omega) gs
    · exact ⟨(a :: g).reverse, mem_splitBy_loop (by simp) l b [], by simp; omega⟩

/-- R103 to R105 against `List.splitBy`: below RUN_CAP the two scans collect the same run, and at RUN_CAP both are already
too long. -/
theorem splitBy_loop_short_iff (l : List Byte) (a : Byte) {g : List Byte} (hg : g.length < 65535)
    (gs : List (List Byte)) :
    (∀ run ∈ List.splitBy.loop (· == ·) l a g gs, run.length ≤ 255) ↔
      (∀ run ∈ gs, run.length ≤ 255) ∧ ∀ run ∈ closedRuns a (g.length + 1) l, run.2 ≤ 255 := by
  induction l generalizing a g gs with
  | nil => simp [List.splitBy.loop, closedRuns, or_imp, forall_and, and_comm]
  | cons b l ih =>
    by_cases hb : b = a
    case neg =>
      have hloop : List.splitBy.loop (· == ·) (b :: l) a g gs =
          List.splitBy.loop (· == ·) l b [] ((a :: g).reverse :: gs) := by
        simp [List.splitBy.loop, beq_eq_false_iff_ne.mpr (Ne.symm hb)]
      rw [hloop, ih b (by simp), closedRuns, if_neg fun h => hb h.1]
      simp only [List.forall_mem_cons, List.length_reverse, List.length_cons, List.length_nil]
      tauto
    case pos =>
      subst hb
      have hloop : List.splitBy.loop (· == ·) (b :: l) b g gs = List.splitBy.loop (· == ·) l b (b :: g) gs := by
        simp [List.splitBy.loop]
      rw [hloop, closedRuns]
      by_cases hcap : g.length + 1 < Config.runCap
      case pos => rw [if_pos ⟨rfl, hcap⟩, ih b (g := b :: g) hcap, List.length_cons]
      case neg =>
        have hfull : 65535 ≤ g.length + 1 := Nat.le_of_not_lt hcap
        rw [if_neg fun h => hcap h.2]
        obtain ⟨run, hrun, hlong⟩ := exists_long_run l b (g := b :: g) (by simp; omega) gs
        refine ⟨fun h => absurd (h run hrun) (by omega), fun h => ?_⟩
        have hshort : g.length + 1 ≤ 255 := h.2 _ List.mem_cons_self
        omega

/-- R113: every maximal run is short exactly when every closed run is. -/
theorem shortRuns_iff (d : List Byte) : ShortRuns d ↔ ∀ run ∈ runsOf d, run.2 ≤ 255 := by
  cases d with
  | nil => simp [ShortRuns, runsOf]
  | cons b rest =>
    have h := splitBy_loop_short_iff rest b (g := []) (by simp) []
    simpa [ShortRuns, List.splitBy, runsOf, Config.fieldMax] using h

/-- Settles O56: the decoder expands the encoder's records, which gives the input back exactly when no length is
truncated. -/
theorem rleRoundTripNeedsShortRuns : Obligations.RleRoundTripNeedsShortRuns := by
  unfold Obligations.RleRoundTripNeedsShortRuns
  intro d e s u hs hsOut hu huOut hcall
  obtain rfl : rleEncode d = e := by
    simpa using (rleCompressComputesItsFunction d s hs hsOut).symm.trans hcall
  have hdecode : rleDecode (rleEncode d) = .ok ((runsOf d).flatMap recordBytes) := by
    have heven : ¬(rleEncode d).length % 2 = 1 := by rw [rleEncode, length_records]; omega
    rw [rleDecode, if_neg heven, rleEncode, rleExpand_records]
  rw [rleDecompressComputesItsFunction _ u hu huOut, hdecode, shortRuns_iff, ← recordBytes_eq_iff, runsOf_flatMap]
  simp

end Sys2Proof.Safety

/-! The LZ77 round trip (R151): the decoder on the encoder's stream, token by token. -/

namespace Sys2Proof.Safety

open Sys2Proof.Machine

section

variable {d : List Byte}

/-- R163 on a stream that agrees with itself `off` places back: copying extends what is decoded so far. -/
theorem copyBack_take {off n i : Nat} (hpos : 1 ≤ off) (hle : off ≤ i) (hend : i + n ≤ d.length)
    (hagree : ∀ j < n, d[i - off + j]? = d[i + j]?) : copyBack off n (d.take i) = d.take (i + n) := by
  induction n generalizing i with
  | zero => rfl
  | succ n ih =>
    have hlen : (d.take i).length = i := by rw [List.length_take]; omega
    have hbyte : (d.take i).getD (i - off) 0#8 = d[i] := by
      have hfirst := hagree 0 (Nat.succ_pos n)
      rw [Nat.add_zero, Nat.add_zero, List.getElem?_eq_getElem (by omega), List.getElem?_eq_getElem (by omega)] at hfirst
      rw [List.getD_eq_getElem _ _ (by omega), List.getElem_take]
      exact Option.some.inj hfirst
    have hnext : ∀ j < n, d[i + 1 - off + j]? = d[i + 1 + j]? := fun j hj => by
      have h := hagree (j + 1) (by omega)
      rwa [show i - off + (j + 1) = i + 1 - off + j by omega, show i + (j + 1) = i + 1 + j by omega] at h
    rw [copyBack, hlen, hbyte, List.take_append_getElem (by omega), ih (by omega) (by omega) hnext]
    congr 1
    omega

/-- R147: a match that is used names an offset into what is encoded so far, at which the stream agrees with itself. -/
theorem findMatch_used {W L i : Nat} (hused : 3 ≤ (findMatch W L d i).2) :
    1 ≤ (findMatch W L d i).1 ∧ (findMatch W L d i).1 ≤ i ∧ i + (findMatch W L d i).2 ≤ d.length ∧
    ∀ j < (findMatch W L d i).2, d[i - (findMatch W L d i).1 + j]? = d[i + j]? := by
  rcases isFind_findMatch W L d i with ⟨-, hzero, -⟩ | ⟨hpos, hwindow, -, hlen, -, -⟩
  · omega
  · have hcap := matchLength_le L d i (findMatch W L d i).1
    exact ⟨hpos, by omega, by omega, fun j hj => matchLength_agrees L d i _ (hlen ▸ hj)⟩

/-- At the end of the input the encoder has emitted all, and the decoder, at the end of that, has decoded all. -/
theorem lz77DecodeFrom_encoded_end {i : Nat} (hi : d.length ≤ i) (out : List Byte) {fuel : Nat} (hfuel : 0 < fuel) :
    lz77DecodeFrom out fuel out.length (d.take i) = .ok d := by
  obtain ⟨fuel, rfl⟩ := Nat.exists_eq_add_one_of_ne_zero (Nat.ne_of_gt hfuel)
  rw [lz77DecodeFrom_end (List.drop_length), List.take_of_length_le hi]

/-- R151: what the encoder appends from position `i` on takes the decoder, at that place of the stream and with the first
`i` bytes decoded, to the whole input. -/
theorem lz77DecodeFrom_encodeFrom {W L fuel i : Nat} {out e : List Byte} (hfuel : d.length - i ≤ fuel)
    (h : lz77EncodeFrom W L d fuel i out = .ok e) :
    ∃ tokens, e = out ++ tokens ∧
      ∀ n, tokens.length < n → lz77DecodeFrom e n out.length (d.take i) = .ok d := by
  induction fuel generalizing i out with
  | zero =>
    cases h
    exact ⟨[], (List.append_nil e).symm, fun n hn => lz77DecodeFrom_encoded_end (by omega) e hn⟩
  | succ fuel ih =>
    rcases Nat.lt_or_ge i d.length with hi | hend
    case inr =>
      simp only [lz77EncodeFrom, List.getElem?_eq_none hend] at h
      cases h
      exact ⟨[], (List.append_nil e).symm, fun n hn => lz77DecodeFrom_encoded_end hend e hn⟩
    simp only [lz77EncodeFrom, List.getElem?_eq_getElem hi] at h
    split at h
    case isTrue hused =>
      split at h
      case isTrue => cases h
      case isFalse hfits =>
        have hused' : 3 ≤ (findMatch W L d i).2 := hused
        obtain ⟨hpos, hle, hinside, hagree⟩ := findMatch_used hused'
        generalize findMatch W L d i = m at *
        obtain ⟨hoff, hlen⟩ : m.1 ≤ 255 ∧ m.2 ≤ 255 := by simpa [Config.fieldMax] using hfits
        have hoffset : (BitVec.ofNat 8 m.1).toNat = m.1 := fieldByte_toNat hoff
        have hlength : (BitVec.ofNat 8 m.2).toNat = m.2 := fieldByte_toNat hlen
        obtain ⟨tokens, rfl, hdecode⟩ := ih (by omega) h
        refine ⟨0x01#8 :: BitVec.ofNat 8 m.1 :: BitVec.ofNat 8 m.2 :: tokens, by simp, fun n hn => ?_⟩
        obtain ⟨n, rfl⟩ : ∃ k, n = k + 1 := ⟨n - 1, by omega⟩
        have hdrop : (out ++ [0x01#8, BitVec.ofNat 8 m.1, BitVec.ofNat 8 m.2] ++ tokens).drop out.length =
            0x01#8 :: BitVec.ofNat 8 m.1 :: BitVec.ofNat 8 m.2 :: tokens := by simp
        have hgood : 1 ≤ (BitVec.ofNat 8 m.1).toNat ∧ (BitVec.ofNat 8 m.1).toNat ≤ (d.take i).length := by
          rw [hoffset, List.length_take]; omega
        have hlast := hdecode n (by simp only [List.length_cons] at hn; omega)
        rw [List.length_append] at hlast
        rw [lz77DecodeFrom_match hdrop hgood, hoffset, hlength, copyBack_take hpos hle hinside hagree]
        exact hlast
    case isFalse =>
      obtain ⟨tokens, rfl, hdecode⟩ := ih (by omega) h
      refine ⟨0x00#8 :: d[i] :: tokens, by simp, fun n hn => ?_⟩
      obtain ⟨n, rfl⟩ : ∃ m, n = m + 1 := ⟨n - 1, by omega⟩
      have hdrop : (out ++ [0x00#8, d[i]] ++ tokens).drop out.length = 0x00#8 :: d[i] :: tokens := by simp
      have hlast := hdecode n (by simp only [List.length_cons] at hn; omega)
      rw [List.length_append] at hlast
      rw [lz77DecodeFrom_lit hdrop, List.take_append_getElem hi]
      exact hlast

end

/-- Settles O57: a result of the encoder is its function's, whatever OUT's capacity, and the decoder's function undoes
it. -/
theorem lz77RoundTrip : Obligations.Lz77RoundTrip := by
  unfold Obligations.Lz77RoundTrip
  intro d e s u hs hu huOut hcall
  have hencode : lz77EncodeFrom s.cfg.W s.cfg.L d d.length 0 [] = .ok e := by
    rcases call_eq_function hs (code := 0x01#8) (by decide) with h | ⟨cap, pos, -, h⟩
    · exact Option.some.inj (h.symm.trans hcall)
    · cases h.symm.trans hcall
  obtain ⟨tokens, he, hdecode⟩ := lz77DecodeFrom_encodeFrom (Nat.sub_le _ _) hencode
  obtain rfl : e = tokens := he
  rw [lz77DecompressComputesItsFunction e u hu huOut]
  exact congrArg some (hdecode (e.length + 1) (Nat.lt_succ_self _))

end Sys2Proof.Safety
